-- ==== Sys2Proof/Word.lean ====
section
/-!
DEFINITION. The word types of the KOS ADPCM core: a byte, a 16-bit sample, a 4-bit code and the
u16 and u32 fields of the container (spec 00_scope.md R5, R7).
-/

namespace Sys2Proof

/-- A byte of an image or of an encoded stream (R50). -/
abbrev Byte := BitVec 8

/-- A PCM sample, an s16: read it as a number with `BitVec.toInt` (R75). -/
abbrev Sample := BitVec 16

/-- A 4-bit ADPCM code: bit 3 the sign, bits 2:0 the magnitude (R71). -/
abbrev Code := BitVec 4

/-- A 16-bit container field (R79). -/
abbrev U16 := BitVec 16

/-- A 32-bit container field or register (R79, R20). -/
abbrev U32 := BitVec 32

end Sys2Proof
end

