-- ==== Sys2Proof/Syntax.lean ====
section
/-!
DEFINITION. The instructions of the core, one constructor for each row of spec/opcode_table.json,
the places a row is read at (spec 30_encoding.md R70, R91) and the reasons the decoder rejects
bytes.
-/

namespace Sys2Proof

/-- The steps of the sequencer that are not chosen by bits of their own but run at a fixed place of
a command (R91, rows with `selected_by`). ENC.B is the one such row that has operand words. -/
inductive SeqStep where
  | rdRiff | walk | walkEnd | rdHdr | rdPayload
  | wrHdrA | wrDataA | wrSmpl | wrHdrP | wrDataP
  deriving DecidableEq, Repr

/-- Where the sequencer stands when it reads bits that select an operation: "A decoder always knows
which format it is reading from where it stands" (R70). -/
inductive Place where
  /-- The byte written to `CMD` (format C, R82). -/
  | command
  /-- One nibble of an encoded stream (format N, R71). -/
  | code
  /-- One byte of an encoded stream (format B, R74). -/
  | packed
  /-- One sample given to the encoder (format S, R75). -/
  | sample
  /-- Two consecutive samples given to the encoder (ENC.B, R103). -/
  | pair
  /-- An 8-byte chunk header at `POS` (format K, R76). -/
  | chunk
  /-- A fixed step of a command, which has no bits of its own (R91). -/
  | sequencer (k : SeqStep)
  deriving DecidableEq, Repr

/-- The instructions: one constructor for each row of spec/opcode_table.json. -/
inductive Instr where
  -- format C: host commands (R82)
  | convT
  | convF
  | encode
  | decode
  | deint
  | intl
  /-- Every command byte `c` that selects no other command (R223). -/
  | usage (c : Byte)
  -- format N: the sixteen codes of the decoder (R121 to R137)
  | decN0 | decN1 | decN2 | decN3 | decN4 | decN5 | decN6 | decN7
  | decN8 | decN9 | decNA | decNB | decNC | decND | decNE | decNF
  /-- Decode a byte: `lo` is the earlier code, `hi` the later one (R138). -/
  | decB (hi lo : Code)
  /-- Encode one sample (R102). -/
  | encS (x : Sample)
  /-- Encode a pair of samples, `x0` the earlier one (R103). -/
  | encB (x0 x1 : Sample)
  -- the reader of CONV.T (R173 to R180)
  | rdRiff
  | walk
  | ckFmt (len : U32)
  | ckData (len : U32)
  | ckSmpl (len : U32)
  /-- A chunk with an id (as a little-endian u32, R52) other than the three named ones. -/
  | ckSkip (id len : U32)
  | walkEnd
  -- the reader of CONV.F (R170, R172)
  | rdHdr
  | rdPayload
  -- the writer (R200 to R205)
  | wrHdrA
  | wrDataA
  | wrSmpl
  | wrHdrP
  | wrDataP
  deriving DecidableEq, Repr

/-- Why the decoder rejects bytes. -/
inductive Reject where
  /-- The bytes are not as many as the format of the place has (R70). -/
  | wrongLength (p : Place)
  /-- A byte given as one 4-bit code has a bit above bit 3 (R71). -/
  | notACode (b : Byte)
  deriving DecidableEq, Repr

end Sys2Proof
end

