-- ==== Sys2Proof/WellFormed.lean ====
section
/-!
DEFINITION. Which terms of `Instr` an encoding stands for: the two fallback rows have operands that
the other rows of their format do not leave to them (spec 30_encoding.md R77, R82).
-/

namespace Sys2Proof

/-- The command bytes that select a command other than USAGE (R82). -/
def commandCodes : List Byte := [0x74, 0x66, 0x01, 0x02, 0x03, 0x04]

/-- The ids of the three chunks with an operation of their own, `"fmt "`, `"data"`, `"smpl"`, as
little-endian u32 (R77, R78). -/
def namedChunkIds : List U32 := [0x20746D66, 0x61746164, 0x6C706D73]

/-- USAGE is "any other" command byte (R82). -/
def usageCodeOk (c : Byte) : Bool := !commandCodes.contains c

/-- CK.SKIP is selected by "every other id" (R77). -/
def skipIdOk (id : U32) : Bool := !namedChunkIds.contains id

/-- The instruction is one that some bits stand for. -/
def Instr.wellFormed : Instr → Bool
  | .usage c => usageCodeOk c
  | .ckSkip id _ => skipIdOk id
  | .convT | .convF | .encode | .decode | .deint | .intl => true
  | .decN0 | .decN1 | .decN2 | .decN3 | .decN4 | .decN5 | .decN6 | .decN7 => true
  | .decN8 | .decN9 | .decNA | .decNB | .decNC | .decND | .decNE | .decNF => true
  | .decB _ _ | .encS _ | .encB _ _ => true
  | .rdRiff | .walk | .ckFmt _ | .ckData _ | .ckSmpl _ | .walkEnd => true
  | .rdHdr | .rdPayload => true
  | .wrHdrA | .wrDataA | .wrSmpl | .wrHdrP | .wrDataP => true

end Sys2Proof
end

