-- ==== Sys2Proof/Decode.lean ====
section
/-!
DEFINITION. Byte order, the tags, the decoder (total on any bytes at any place, rejecting by name),
the encoder, and the match and mask patterns of the opcode table's file-format rows
(spec 30_encoding.md, 00_scope.md R9, 20_memory.md R51 to R54).
-/

namespace Sys2Proof

/-! ## Byte order -/

/-- `le16` of R9: the first byte is the less significant. -/
def le16 (b0 b1 : Byte) : U16 := b1 ++ b0

/-- `le32` of R9: the first byte is the least significant. -/
def le32 (b0 b1 b2 b3 : Byte) : U32 := b3 ++ b2 ++ b1 ++ b0

/-- `u16bytes` of R9, least significant first. -/
def u16bytes (v : U16) : List Byte := [v.extractLsb' 0 8, v.extractLsb' 8 8]

/-- `u32bytes` of R9, least significant first. -/
def u32bytes (v : U32) : List Byte :=
  [v.extractLsb' 0 8, v.extractLsb' 8 8, v.extractLsb' 16 8, v.extractLsb' 24 8]

/-- The packed byte of two codes: the earlier one in the low nibble (R74). -/
def packCodes (lo hi : Code) : Byte := hi ++ lo

/-- Bits 3:0 of a packed byte, the earlier code (R74). -/
def lowCode (b : Byte) : Code := b.extractLsb' 0 4

/-- Bits 7:4 of a packed byte, the later code (R74). -/
def highCode (b : Byte) : Code := b.extractLsb' 4 4

/-! ## Tags (R52, R78) -/

/-- `"RIFF"`. -/
def tagRiff : List Byte := [0x52, 0x49, 0x46, 0x46]
/-- `"WAVE"`. -/
def tagWave : List Byte := [0x57, 0x41, 0x56, 0x45]
/-- `"fmt "`. -/
def tagFmt : List Byte := [0x66, 0x6D, 0x74, 0x20]
/-- `"data"`. -/
def tagData : List Byte := [0x64, 0x61, 0x74, 0x61]
/-- `"smpl"`. -/
def tagSmpl : List Byte := [0x73, 0x6D, 0x70, 0x6C]

/-- What a chunk id selects (R77). -/
inductive ChunkKind where
  | fmt | data | smpl | skip
  deriving DecidableEq, Repr

/-- The id, as a little-endian u32, selects the reader's operation: the three named ids first, every
other id is skipped (R77). -/
def chunkKind (id : U32) : ChunkKind :=
  if id = 0x20746D66 then .fmt
  else if id = 0x61746164 then .data
  else if id = 0x6C706D73 then .smpl
  else .skip

/-! ## The decoder -/

/-- The command a byte of `CMD` selects (R82). -/
def decodeCommand (c : Byte) : Instr :=
  if c = 0x74 then .convT
  else if c = 0x66 then .convF
  else if c = 0x01 then .encode
  else if c = 0x02 then .decode
  else if c = 0x03 then .deint
  else if c = 0x04 then .intl
  else .usage c

/-- The decoder instruction of a code: all sixteen values are legal (R71). -/
def decodeCode (c : Code) : Instr :=
  match c.toNat with
  | 0 => .decN0 | 1 => .decN1 | 2 => .decN2 | 3 => .decN3
  | 4 => .decN4 | 5 => .decN5 | 6 => .decN6 | 7 => .decN7
  | 8 => .decN8 | 9 => .decN9 | 10 => .decNA | 11 => .decNB
  | 12 => .decNC | 13 => .decND | 14 => .decNE | _ => .decNF

/-- The chunk operation an id selects, with the chunk's length (R76, R77). -/
def decodeChunk (id len : U32) : Instr :=
  match chunkKind id with
  | .fmt => .ckFmt len
  | .data => .ckData len
  | .smpl => .ckSmpl len
  | .skip => .ckSkip id len

/-- The instruction of a fixed step of the sequencer (R91). -/
def decodeStep : SeqStep → Instr
  | .rdRiff => .rdRiff
  | .walk => .walk
  | .walkEnd => .walkEnd
  | .rdHdr => .rdHdr
  | .rdPayload => .rdPayload
  | .wrHdrA => .wrHdrA
  | .wrDataA => .wrDataA
  | .wrSmpl => .wrSmpl
  | .wrHdrP => .wrHdrP
  | .wrDataP => .wrDataP

/-- The decoder: what the bytes at a place select (R70). Total; it rejects by name. -/
def decode : Place → List Byte → Except Reject Instr
  | .command, [c] => .ok (decodeCommand c)
  | .code, [b] => if b.toNat < 16 then .ok (decodeCode (lowCode b)) else .error (.notACode b)
  | .packed, [b] => .ok (.decB (highCode b) (lowCode b))
  | .sample, [b0, b1] => .ok (.encS (le16 b0 b1))
  | .pair, [b0, b1, b2, b3] => .ok (.encB (le16 b0 b1) (le16 b2 b3))
  | .chunk, [b0, b1, b2, b3, b4, b5, b6, b7] =>
    .ok (decodeChunk (le32 b0 b1 b2 b3) (le32 b4 b5 b6 b7))
  | .sequencer k, [] => .ok (decodeStep k)
  | p, _ => .error (.wrongLength p)

/-! ## The encoder -/

/-- The place an instruction is read at. -/
def placeOf : Instr → Place
  | .convT | .convF | .encode | .decode | .deint | .intl | .usage _ => .command
  | .decN0 | .decN1 | .decN2 | .decN3 | .decN4 | .decN5 | .decN6 | .decN7 => .code
  | .decN8 | .decN9 | .decNA | .decNB | .decNC | .decND | .decNE | .decNF => .code
  | .decB _ _ => .packed
  | .encS _ => .sample
  | .encB _ _ => .pair
  | .ckFmt _ | .ckData _ | .ckSmpl _ | .ckSkip _ _ => .chunk
  | .rdRiff => .sequencer .rdRiff
  | .walk => .sequencer .walk
  | .walkEnd => .sequencer .walkEnd
  | .rdHdr => .sequencer .rdHdr
  | .rdPayload => .sequencer .rdPayload
  | .wrHdrA => .sequencer .wrHdrA
  | .wrDataA => .sequencer .wrDataA
  | .wrSmpl => .sequencer .wrSmpl
  | .wrHdrP => .sequencer .wrHdrP
  | .wrDataP => .sequencer .wrDataP

/-- How many bytes the format of a place has (R70); a nibble is given as a byte below 16. -/
def Place.byteCount : Place → Nat
  | .command | .code | .packed => 1
  | .sample => 2
  | .pair => 4
  | .chunk => 8
  | .sequencer _ => 0

/-- The encoder: the bytes of a well-formed instruction at its place, in file order. -/
def encode : Instr → List Byte
  | .convT => [0x74]
  | .convF => [0x66]
  | .encode => [0x01]
  | .decode => [0x02]
  | .deint => [0x03]
  | .intl => [0x04]
  | .usage c => [c]
  | .decN0 => [0x0] | .decN1 => [0x1] | .decN2 => [0x2] | .decN3 => [0x3]
  | .decN4 => [0x4] | .decN5 => [0x5] | .decN6 => [0x6] | .decN7 => [0x7]
  | .decN8 => [0x8] | .decN9 => [0x9] | .decNA => [0xA] | .decNB => [0xB]
  | .decNC => [0xC] | .decND => [0xD] | .decNE => [0xE] | .decNF => [0xF]
  | .decB hi lo => [packCodes lo hi]
  | .encS x => u16bytes x
  | .encB x0 x1 => u16bytes x0 ++ u16bytes x1
  | .ckFmt len => tagFmt ++ u32bytes len
  | .ckData len => tagData ++ u32bytes len
  | .ckSmpl len => tagSmpl ++ u32bytes len
  | .ckSkip id len => u32bytes id ++ u32bytes len
  | .rdRiff | .walk | .walkEnd | .rdHdr | .rdPayload => []
  | .wrHdrA | .wrDataA | .wrSmpl | .wrHdrP | .wrDataP => []

/-! ## The file-format rows of the opcode table (R91) -/

/-- A row's `match` and `mask`, bytes in file order. -/
structure Pattern where
  value : List Byte
  mask : List Byte
  deriving DecidableEq, Repr

/-- "a byte sequence `b` selects the row when `(b & mask) = match` byte by byte" (R91). -/
def Pattern.selects (p : Pattern) (bs : List Byte) : Bool :=
  bs.length == p.mask.length &&
    (bs.zip (p.mask.zip p.value)).all fun x => x.1 &&& x.2.1 == x.2.2

/-- Four mask bytes of a field the row fixes. -/
def fixed4 : List Byte := [0xFF, 0xFF, 0xFF, 0xFF]
/-- Four bytes of a field the row leaves open. -/
def open4 : List Byte := [0, 0, 0, 0]

/-- The preamble RD.RIFF requires (row RD.RIFF). -/
def riffPattern : Pattern := ⟨tagRiff ++ open4 ++ tagWave, fixed4 ++ open4 ++ fixed4⟩

/-- A fixed header with the two format fields given; `dataTag` says whether the row fixes the
`"data"` tag at 36 (rows RD.HDR, WR.HDR.A, WR.HDR.P; R79). -/
def headerPattern (format bits : U16) (dataTag : Bool) : Pattern :=
  ⟨tagRiff ++ open4 ++ tagWave ++ tagFmt ++ u32bytes 16 ++ u16bytes format ++ [0, 0] ++ open4 ++
      open4 ++ [0, 0] ++ u16bytes bits ++ (if dataTag then tagData else open4) ++ open4,
    fixed4 ++ open4 ++ fixed4 ++ fixed4 ++ fixed4 ++ [0xFF, 0xFF] ++ [0, 0] ++ open4 ++
      open4 ++ [0, 0] ++ [0xFF, 0xFF] ++ (if dataTag then fixed4 else open4) ++ open4⟩

/-- The loop chunk WR.SMPL emits (row WR.SMPL; R81). -/
def smplPattern : Pattern :=
  ⟨tagSmpl ++ u32bytes 0x3C ++ List.replicate 40 0 ++ List.replicate 12 0 ++ List.replicate 8 0,
    List.replicate 48 0xFF ++ List.replicate 12 0 ++ List.replicate 8 0xFF⟩

/-- Any chunk header (row WALK: match and mask all zero). -/
def anyChunkPattern : Pattern := ⟨List.replicate 8 0, List.replicate 8 0⟩

/-- The pattern a fixed step of the sequencer requires of the bytes it reads, or emits (R91). WALK.END
reads no byte; the rows of RD.PAYLOAD, WR.DATA.A and WR.DATA.P carry the string of one element, with
every bit open, and no pattern. -/
def stepPattern : SeqStep → Option Pattern
  | .rdRiff => some riffPattern
  | .rdHdr => some (headerPattern 20 4 false)
  | .wrHdrA => some (headerPattern 20 4 true)
  | .wrHdrP => some (headerPattern 1 16 true)
  | .wrSmpl => some smplPattern
  | .walk => some anyChunkPattern
  | .walkEnd => some ⟨[], []⟩
  | .rdPayload | .wrDataA | .wrDataP => none

/-! ## Words of the opcode table -/

/-- The first bytes of a number, bits 7:0 first. -/
def bytesOfNat : Nat → Nat → List Byte
  | 0, _ => []
  | n + 1, w => BitVec.ofNat 8 w :: bytesOfNat n (w / 256)

/-- The bytes of a word of `nbits` bits, the first byte in bits 7:0. -/
def tableBytes (nbits w : Nat) : List Byte := bytesOfNat ((nbits + 7) / 8) w

/-- The fixed steps with a pattern, the fuller masks first; WALK matches every chunk header and is last. -/
def stepsByMask : List SeqStep := [.wrSmpl, .wrHdrP, .wrHdrA, .rdHdr, .rdRiff, .walkEnd, .walk]

/-- Where the core would meet a word of the opcode table on its own. Rows share words and are told
apart by place only (R70, R91); of the rows that share one, the row that fixes more of its bits is taken
(log entry 12): a byte is a command if the command table names it, else a code if it is below 16, else
the fallback of format C; two bytes are format S, eight a chunk header that its four rows decode. -/
def tablePlace (nbits : Nat) (bs : List Byte) : Option Place :=
  match bs with
  | [b] =>
    if nbits ≤ 4 then some .code
    else if b.toNat < 16 ∧ decodeCommand b = .usage b then some .code
    else some .command
  | [_, _] => some .sample
  | [_, _, _, _] => some .pair
  | [_, _, _, _, _, _, _, _] => some .chunk
  | bs => (stepsByMask.find? fun k => (stepPattern k).any fun p => p.selects bs).map .sequencer

/-- The bytes presented at a place. ENC.B's string has the earlier sample in its upper 16 bits (R91), and
the earlier sample is presented first; a fixed step has no bytes of its own (R91). -/
def placeBytes : Place → List Byte → List Byte
  | .pair, [b0, b1, b2, b3] => [b2, b3, b0, b1]
  | .sequencer _, _ => []
  | _, bs => bs

/-- The instruction the decoder reads from a word numbered as spec/opcode_table.json numbers it. -/
def decodeTableWord (nbits w : Nat) : Option Instr :=
  match tablePlace nbits (tableBytes nbits w) with
  | some p => (decode p (placeBytes p (tableBytes nbits w))).toOption
  | none => none

end Sys2Proof
end

