-- ==== Sys2Proof/Config.lean ====
section
/-!
DEFINITION. What an implementation fixes and the free values: constants without a body, so that no
proof can know a value of one (spec 92_eei_decisions.md D19, D22; 93_implementation_defined.md
U12 to U16, U20, U21).
-/

namespace Sys2Proof

/-- `OUT_CAP` at reset: the OPEN launch parameter (R5, R270, D22). Log entry 9. -/
opaque Config.outCap : U32

/-- `CHECK_DATA_TAG`: the OPEN Boolean parameter of RD.HDR (R170, D19). Log entry 9. -/
opaque Config.checkDataTag : Bool

/-- The byte of `IN` at an address the host has not written (R270: "unspecified"). Log entry 6. -/
opaque Config.freeIn : Nat → Byte

/-- The byte of `OUT` at an address nothing has written (R270, U15). Log entry 7. -/
opaque Config.freeOut : Nat → Byte

/-- The element of `PCMBUF` that nothing has written, by generation and index (U12, U14). Log entry 5. -/
opaque Config.freePcm : Nat → Nat → Sample

/-- The element of `ADBUF` that nothing has written, by generation and index (U12, U14). Log entry 5. -/
opaque Config.freeAd : Nat → Nat → Byte

/-- The element of `CHL` that nothing has written, by generation and index (U12, U14). Log entry 5. -/
opaque Config.freeChl : Nat → Nat → Sample

/-- The element of `CHR` that nothing has written, by generation and index (U12, U14). Log entry 5. -/
opaque Config.freeChr : Nat → Nat → Sample

/-- What a read of the write-only register `CMD` gives, by the count of such reads (R29, U13). Log
entry 8. -/
opaque Config.cmdRead : Nat → Byte

/-- The quantiser's `scaled` for a step of 0, which R100 leaves outside its domain, as a function of
the difference. Log entry 10. -/
opaque Config.scaledAtStepZero : Int → Int

end Sys2Proof
end

