-- ==== Sys2Proof/Machine/State.lean ====
section
/-!
DEFINITION. The architectural state of the core as plain data (spec 10_state.md R20), its reset
(R40, 70_reset_and_hazards.md R270), and the reasons a step can stop.
-/

namespace Sys2Proof.Machine

/-- A sparse memory: address and content pairs with rising addresses. An address that is not listed
has unspecified contents (R270). -/
abbrev Memory (α : Type) := List (Nat × α)

/-- A work buffer (R36): the elements that have been written, and a counter that names the free
values of the others (log entry 5). -/
structure Buf (α : Type) where
  cells : Memory α
  gen : Nat
  deriving DecidableEq, Repr

/-- The codec registers `SIG` and `STEP` (R21 to R23). -/
@[ext]
structure Codec where
  /-- `SIG`, 16 bits signed (R21). -/
  sig : BitVec 16
  /-- `STEP`, 16 bits unsigned (R22). -/
  step : BitVec 16
  deriving DecidableEq, Repr

/-- The container record `CR.*` (R34). -/
@[ext]
structure ContainerRec where
  totalSize : U32 := 0
  fmtSize : U32 := 0
  format : U16 := 0
  channels : U16 := 0
  rate : U32 := 0
  byteRate : U32 := 0
  blockAlign : U16 := 0
  bits : U16 := 0
  dataSize : U32 := 0
  deriving DecidableEq, Repr

/-- The loop record `LR.TYPE`, `LR.START`, `LR.END` (R35). -/
@[ext]
structure LoopRec where
  type : U32 := 0
  start : U32 := 0
  /-- `LR.END`. -/
  stop : U32 := 0
  deriving DecidableEq, Repr

/-- `FLAGS` (R20 #11, R27, R28), bit 0 first. -/
@[ext]
structure Flags where
  fmtSeen : Bool := false
  dataSeen : Bool := false
  smplSeen : Bool := false
  /-- `LR.ENABLED`. -/
  loopEnabled : Bool := false
  /-- `LR.ENDNZ`. -/
  loopEndNz : Bool := false
  deriving DecidableEq, Repr

/-- `BUFV` (R20 #27, R36), bit 0 first. -/
@[ext]
structure Bufv where
  pcm : Bool := false
  ad : Bool := false
  ch : Bool := false
  deriving DecidableEq, Repr

/-- What the sequencer runs next. The model's own field (log entry 1): the moment between the host's
write of `CMD` and the run (R220), or one operation presented on its own. -/
inductive Issue where
  /-- The block is idle and waits for the host (R273). -/
  | idle
  /-- The byte in `CMD` has been written and not yet run (R29). -/
  | command
  /-- One operation at a place, with the bytes that select it. -/
  | operation (p : Place) (bs : List Byte)
  deriving DecidableEq, Repr

/-- What the codec operation run last on its own returned. The model's own field (log entry 2). -/
inductive Result where
  | none
  /-- ENC.S returns a code (R102). -/
  | code (c : Code)
  /-- ENC.B returns a byte (R103). -/
  | byte (b : Byte)
  /-- DEC.N returns one sample, DEC.B two, in time order (R121, R138). -/
  | samples (xs : List Sample)
  deriving DecidableEq, Repr

/-- The error kinds (R240). All are terminal for the command (R250). -/
inductive ErrKind where
  | fileNotFound | malformedContainer | unsupportedFormat | truncatedHeader | ioFailure | usageError
  deriving DecidableEq, Repr

/-- The complete state of the block (R20), and the model's own fields `issue`, `result`,
`cmdReads`. -/
@[ext]
structure State where
  /-- `CMD` (R29). -/
  cmd : BitVec 8
  /-- `STATUS` (R30). -/
  status : BitVec 32
  /-- `ERR` (R31). -/
  err : BitVec 8
  /-- `IN_PRESENT` (R32). -/
  inPresent : Bool
  /-- `IN_LEN` (R32). -/
  inLen : U32
  /-- `OUT_LEN` (R33). -/
  outLen : U32
  /-- `OUT_CAP` (R33). -/
  outCap : U32
  /-- `OUT_VALID` (R33). -/
  outValid : Bool
  /-- `SIG`, `STEP` (R21, R22). -/
  codec : Codec
  /-- `POS` (R25), a number that never wraps (log entry 4). -/
  pos : Nat
  /-- `FLAGS` (R27, R28). -/
  flags : Flags
  /-- `CR.*` (R34). -/
  cr : ContainerRec
  /-- `LR.*` (R35). -/
  lr : LoopRec
  /-- `PCM_N` (R36). -/
  pcmN : U32
  /-- `AD_N` (R36). -/
  adN : U32
  /-- `CH_N` (R36). -/
  chN : U32
  /-- `BUFV` (R36). -/
  bufv : Bufv
  /-- `PCMBUF` (R36). -/
  pcmbuf : Buf Sample
  /-- `ADBUF` (R36). -/
  adbuf : Buf Byte
  /-- `CHL` (R36). -/
  chl : Buf Sample
  /-- `CHR` (R36). -/
  chr : Buf Sample
  /-- `IN` (R37). -/
  input : Memory Byte
  /-- `OUT` (R37). -/
  output : Memory Byte
  /-- The model's own: what runs next (log entry 1). -/
  issue : Issue
  /-- The model's own: what the last codec operation returned (log entry 2). -/
  result : Result
  /-- The model's own: how often `CMD` has been read (log entry 8). -/
  cmdReads : Nat
  deriving DecidableEq, Repr

/-- The state after power-on reset (R40, R270): every register 0 but `STEP` = 127 and `OUT_CAP`, its
parameter; the contents of images and buffers unspecified (nothing listed); the block idle. -/
def State.reset : State where
  cmd := 0
  status := 0
  err := 0
  inPresent := false
  inLen := 0
  outLen := 0
  outCap := Config.outCap
  outValid := false
  codec := ⟨0, 127⟩
  pos := 0
  flags := {}
  cr := {}
  lr := {}
  pcmN := 0
  adN := 0
  chN := 0
  bufv := {}
  pcmbuf := ⟨[], 0⟩
  adbuf := ⟨[], 0⟩
  chl := ⟨[], 0⟩
  chr := ⟨[], 0⟩
  input := []
  output := []
  issue := .idle
  result := .none
  cmdReads := 0

/-- The machine stops with a fault. The error kinds of the spec are NOT faults: they end the command
and leave a next state (R250). -/
inductive Fault where
  /-- The host writes while the block is not idle, which the spec gives no step (R64, U10). Raised by
  `hostWrite` only, never by `step`. Safe: the model stops. -/
  | hostWhileBusy
  deriving DecidableEq, Repr

/-- An input the spec gives no next state: "refuse" (R11, R255). Safe: nothing can be proved about a
run that meets one. -/
inductive Refusal where
  /-- An instruction without a meaning, raised by `exec` only. Safe. -/
  | notModelled (mnemonic : String)
  /-- The bytes presented to the sequencer select nothing; raised by `step` only, for bytes that are
  not as long as their place's format, which no host write can present. Safe. -/
  | undecodable (r : Reject)
  /-- U1: `encode` of an odd number of samples (R105); ENCODE. Safe. -/
  | oddSampleCount
  /-- U2: `encode` or `decode` of an empty stream (R105, R139); ENCODE, DECODE. Safe. -/
  | emptyStream
  /-- U3: `deinterleave` of an odd-length buffer (R164); DEINT. Safe. -/
  | oddInterleaved
  /-- U3: `interleave` of channels of different lengths (R164); no command reaches it. Safe. -/
  | unequalChannels
  /-- U4: CONV.T with a payload that is no multiple of 4 (mono) or 8 (stereo) (R230). Safe. -/
  | payloadNotMultiple
  /-- U5: CONV.T or CONV.F with an empty payload (R230). Safe. -/
  | emptyPayload
  /-- U6: CONV.F with two channels and an odd payload (R230). Safe. -/
  | oddStereoPayload
  /-- U7: CONV.F, or WR.HDR.P, whose PCM output would reach 2^32 bytes (R230, R204). Safe. -/
  | outputTooLarge
  /-- U8: a unit command whose input buffer is not valid (R224 to R227). Safe. -/
  | bufferInvalid
  /-- U9: DECODE or INTL whose result length does not fit its register (R225, R227). Safe. -/
  | lengthTooLarge
  deriving DecidableEq, Repr

end Sys2Proof.Machine
end

