-- ==== Sys2Proof/Machine/Ops.lean ====
section
/-!
DEFINITION. The named operations over memories, buffers and registers; how an operation of the
sequencer ends (R11); the initialisation of a command (R271), its success (R228) and the abort
(R250), which is the core's one exception entry. There is no return from one (R251).
-/

namespace Sys2Proof.Machine

/-! ## Memories -/

/-- The content listed at an address. -/
def Memory.get? {α : Type} : Memory α → Nat → Option α
  | [], _ => none
  | (k, v) :: m, a => if a = k then some v else Memory.get? m a

/-- The canonical form: addresses strictly rising. An unlisted address has no content, so no entry
can equal what it reads as. -/
abbrev Memory.wf {α : Type} (m : Memory α) : Prop := m.Pairwise fun x y => x.1 < y.1

/-- Write one element, keeping the canonical form. -/
def Memory.put {α : Type} : Memory α → Nat → α → Memory α
  | [], a, v => [(a, v)]
  | (k, w) :: m, a, v =>
    if a < k then (a, v) :: (k, w) :: m
    else if a = k then (a, v) :: m
    else (k, w) :: Memory.put m a v

/-- Write a run of elements upward from an address. -/
def Memory.putRun {α : Type} : Memory α → Nat → List α → Memory α
  | m, _, [] => m
  | m, a, v :: vs => Memory.putRun (Memory.put m a v) (a + 1) vs

/-- The memory that holds exactly a run of elements from an address upward. -/
def Memory.ofRun {α : Type} : Nat → List α → Memory α
  | _, [] => []
  | a, v :: vs => (a, v) :: Memory.ofRun (a + 1) vs

/-! ## Work buffers (R36) -/

/-- An element of a buffer; one that nothing has written is a free value (U12, U14). -/
def Buf.read {α : Type} (free : Nat → Nat → α) (b : Buf α) (i : Nat) : α :=
  (b.cells.get? i).getD (free b.gen i)

/-- The first `n` elements of a buffer. -/
def Buf.slice {α : Type} (free : Nat → Nat → α) (b : Buf α) (n : Nat) : List α :=
  (List.range n).map (b.read free)

/-- The block writes a whole buffer: elements beyond it become unspecified (U14). -/
def Buf.load {α : Type} (b : Buf α) (xs : List α) : Buf α := ⟨Memory.ofRun 0 xs, b.gen + 1⟩

/-- The host writes one element (R36). -/
def Buf.put {α : Type} (b : Buf α) (i : Nat) (x : α) : Buf α := ⟨b.cells.put i x, b.gen⟩

/-- A buffer is released: all its contents become unspecified (R36, U14). -/
def Buf.discard {α : Type} (b : Buf α) : Buf α := ⟨[], b.gen + 1⟩

/-- `PCMBUF[0 .. n)`. -/
def State.pcmSlice (s : State) (n : Nat) : List Sample := s.pcmbuf.slice Config.freePcm n
/-- `ADBUF[0 .. n)`. -/
def State.adSlice (s : State) (n : Nat) : List Byte := s.adbuf.slice Config.freeAd n
/-- `CHL[0 .. n)`. -/
def State.chlSlice (s : State) (n : Nat) : List Sample := s.chl.slice Config.freeChl n
/-- `CHR[0 .. n)`. -/
def State.chrSlice (s : State) (n : Nat) : List Sample := s.chr.slice Config.freeChr n

/-! ## How an operation of the sequencer ends -/

/-- How the pseudocode of an operation ends: it goes on, it raises an error kind with what it has
written so far (R252), or it refuses (R11). -/
inductive Flow where
  | go (s : State)
  | raise (k : ErrKind) (s : State)
  | refuse (r : Refusal)
  deriving DecidableEq, Repr

/-- One operation after another: "nothing after the `raise` runs" (R250). -/
def Flow.andThen (x : Flow) (f : State → Flow) : Flow :=
  match x with
  | .go s => f s
  | .raise k s => .raise k s
  | .refuse r => .refuse r

/-- A stream function's refusal is the operation's (R105, R139, R164). -/
def Flow.withValue {β : Type} (x : Except Refusal β) (f : β → Flow) : Flow :=
  match x with
  | .ok b => f b
  | .error r => .refuse r

/-! ## Registers -/

/-- `code(K)`: what `ERR` holds after an error (R240). -/
def errCode : ErrKind → BitVec 8
  | .fileNotFound => 1
  | .malformedContainer => 2
  | .unsupportedFormat => 3
  | .truncatedHeader => 4
  | .ioFailure => 5
  | .usageError => 6

/-- A conversion's buffers are released: the three valid bits cleared, the contents gone; the lengths
are left behind (R36, R228, R250 step 5). -/
def State.releaseBuffers (s : State) : State :=
  { s with
    bufv := {}
    pcmbuf := s.pcmbuf.discard
    adbuf := s.adbuf.discard
    chl := s.chl.discard
    chr := s.chr.discard }

/-- `initialise` (R271); `conv` says whether the command is CONV.T or CONV.F. -/
def State.initialise (conv : Bool) (s : State) : State :=
  let t := { s with outValid := false, outLen := 0, pos := 0, flags := {}, cr := {}, lr := {} }
  if conv then { t with bufv := {}, pcmN := 0, adN := 0, chN := 0 } else t

/-- Success of a command (R228): `ERR` and `STATUS` 0; a conversion commits `OUT` and releases its
buffers. -/
def State.succeed (conv : Bool) (s : State) : State :=
  let t := { s with err := 0, status := 0 }
  if conv then { t.releaseBuffers with outValid := true } else t

/-- Taking an exception: the abort of a command (R250, steps 2 to 6). -/
def State.abort (conv : Bool) (k : ErrKind) (s : State) : State :=
  let t := { s with err := errCode k, status := 0xFFFFFFFF, outValid := false }
  if conv then t.releaseBuffers else t

/-- How an operation answers: a `raise` aborts the running command and leaves a next state. -/
def Flow.conclude (conv : Bool) : Flow → Host.Outcome State Fault Refusal
  | .go s => .next s
  | .raise k s => .next (s.abort conv k)
  | .refuse r => .refused r

/-- A command: initialise, the body, success (R220). -/
def runCommand (conv : Bool) (body : State → Flow) (s : State) : Host.Outcome State Fault Refusal :=
  ((body (s.initialise conv)).andThen fun t => .go (t.succeed conv)).conclude conv

/-- A reader or writer step run on its own: these steps belong to conversions, so an error aborts a
conversion (R250; log entry 3). -/
def runStep (f : State → Flow) (s : State) : Host.Outcome State Fault Refusal :=
  (f s).conclude true

/-! ## Writing OUT -/

/-- `emit` of 44_container_writer.md under R206: the bytes below `OUT_CAP` are written, a byte at or
past it is not and raises IoFailure. While `OUT_LEN` is above `OUT_CAP`, which R206 has no case for, a step
presented on its own writes no byte and leaves `OUT_LEN` as it is (DESIGN CHOICE, log entry 3). -/
def State.emit (bs : List Byte) (s : State) : Flow :=
  let room := s.outCap.toNat - s.outLen.toNat
  let t := { s with
    output := s.output.putRun s.outLen.toNat (bs.take room)
    outLen := s.outLen + BitVec.ofNat 32 (bs.take room).length }
  if bs.length ≤ room then .go t else .raise .ioFailure t

end Sys2Proof.Machine
end

