-- ==== Sys2Proof/Machine/Operands.lean ====
section
/-!
DEFINITION. Every operand form: the bytes and fields an operation reads from `IN` (R10, R51 to R57),
samples in a payload (R53), and the forms the writer emits.
-/

namespace Sys2Proof.Machine

/-- A byte of `IN`; one the host has not written is a free value (R270; log entry 6). -/
def State.inByte (s : State) (a : Nat) : Byte := (s.input.get? a).getD (Config.freeIn a)

/-- `MemRead(addr, n)` (R10). The rule that reads has checked `addr + n ≤ IN_LEN`. -/
def State.memRead (s : State) (a n : Nat) : List Byte := (List.range n).map fun i => s.inByte (a + i)

/-- `RD16(a)` (R10). -/
def State.rd16 (s : State) (a : Nat) : U16 := le16 (s.inByte a) (s.inByte (a + 1))

/-- `RD32(a)` (R10). -/
def State.rd32 (s : State) (a : Nat) : U32 :=
  le32 (s.inByte a) (s.inByte (a + 1)) (s.inByte (a + 2)) (s.inByte (a + 3))

/-- The `n` samples of a payload at offset `a`: sample `i` is the little-endian word at `a + 2i`
(R53). -/
def State.rdSamples (s : State) (a n : Nat) : List Sample :=
  (List.range n).map fun i => s.rd16 (a + 2 * i)

/-- `s16bytes` of a run of samples, each least significant byte first (R53, R205). -/
def samplesToBytes (xs : List Sample) : List Byte := xs.flatMap u16bytes

/-- The sample length `L = CR.DATASIZE div 2` (R181). -/
def State.sampleLength (s : State) : U32 := s.cr.dataSize / 2

/-- The 44 bytes of the fixed header whose fields the container record holds (R79). -/
def headerBytes (cr : ContainerRec) : List Byte :=
  tagRiff ++ u32bytes cr.totalSize ++ tagWave ++ tagFmt ++ u32bytes cr.fmtSize ++
    u16bytes cr.format ++ u16bytes cr.channels ++ u32bytes cr.rate ++ u32bytes cr.byteRate ++
    u16bytes cr.blockAlign ++ u16bytes cr.bits ++ tagData ++ u32bytes cr.dataSize

/-- The 68 bytes of the loop chunk, reserved words zero (R81, R202). -/
def loopChunkBytes (lr : LoopRec) : List Byte :=
  tagSmpl ++ u32bytes 0x3C ++ List.replicate 40 0 ++ u32bytes lr.type ++ u32bytes lr.start ++
    u32bytes lr.stop ++ List.replicate 8 0

end Sys2Proof.Machine
end

