-- ==== Sys2Proof/Machine/Flags.lean ====
section
/-!
DEFINITION. Every flag computation: the conditions the reader and the writer test, the loop flags and
the loop clamps (R28, R179, R203), and the packed views of `FLAGS` and `BUFV` (R20).
-/

namespace Sys2Proof.Machine

/-- "channels ∈ {1, 2}" (R83). -/
def channelsOk (c : U16) : Bool := c == 1 || c == 2

/-- `LR.ENABLED`: loop type 0 and loop end not 0 (R28, R177). -/
def loopEnabledOf (type stop : U32) : Bool := type == 0 && stop != 0

/-- `LR.ENDNZ`: the loop end read, before clamping, is not 0 (R28). -/
def loopEndNzOf (stop : U32) : Bool := stop != 0

/-- The clamp of the loop start: 0 if it exceeds the sample length, unsigned and strict (R179). -/
def clampLoopStart (len start : U32) : U32 := if len < start then 0 else start

/-- The clamp of the loop end: the sample length if it exceeds it, unsigned and strict (R179). -/
def clampLoopEnd (len stop : U32) : U32 := if len < stop then len else stop

/-- The loop chunk is written, and the loop record kept, exactly when a `smpl` chunk was read and its
end was not 0 (R180, R203). -/
def Flags.loopCaptured (f : Flags) : Bool := f.smplSeen && f.loopEndNz

/-- The 5-bit register `FLAGS`, bit 0 `FMT_SEEN` (R20). -/
def Flags.bits (f : Flags) : BitVec 5 :=
  BitVec.ofBool f.loopEndNz ++ BitVec.ofBool f.loopEnabled ++ BitVec.ofBool f.smplSeen ++
    BitVec.ofBool f.dataSeen ++ BitVec.ofBool f.fmtSeen

/-- The 3-bit register `BUFV`, bit 0 `PCM_V` (R20). -/
def Bufv.bits (b : Bufv) : BitVec 3 :=
  BitVec.ofBool b.ch ++ BitVec.ofBool b.ad ++ BitVec.ofBool b.pcm

/-- A host write of `BUFV` (R20). -/
def Bufv.ofBits (v : BitVec 3) : Bufv := ⟨v.getLsbD 0, v.getLsbD 1, v.getLsbD 2⟩

end Sys2Proof.Machine
end

