-- ==== Sys2Proof/Machine/Codec.lean ====
section
/-!
DEFINITION. The codec: the quantiser and the predictor update (R100, R120), the operations ENC.S,
ENC.B, DEC.N (one definition for each code) and DEC.B, and the stream functions encode and decode
(spec 40_codec_encode.md, 41_codec_decode.md). Arithmetic is on exact integers and narrowed at the
end (R8, R106).
-/

namespace Sys2Proof.Machine

/-- `clamp(v, lo, hi)` (R8). -/
def clampInt (v lo hi : Int) : Int := if v < lo then lo else if hi < v then hi else v

/-- `DIFF_LOOKUP`, indexed by the code (R72). -/
def diffLookup (c : Code) : Int :=
  [1, 3, 5, 7, 9, 11, 13, 15, -1, -3, -5, -7, -9, -11, -13, -15].getD c.toNat 0

/-- `STEP_SCALE`, indexed by the low 3 bits of the code (R73, 90_conflicts.md C6). -/
def stepScale (c : Code) : Nat :=
  [230, 230, 230, 230, 307, 409, 512, 614].getD (c.toNat % 8) 0

/-- The initial state (0, 127) of every stream (R272). -/
def Codec.initial : Codec := ⟨0, 127⟩

/-- `update(sig, step, code)` (R120): multiply first, divide by 8 truncating toward zero, both results
from the old pair, both clamped. -/
def update (k : Codec) (c : Code) : Codec where
  sig := BitVec.ofInt 16
    (clampInt (k.sig.toInt + Int.tdiv (k.step.toNat * diffLookup c) 8) (-32768) 32767)
  step := BitVec.ofInt 16 (clampInt ((k.step.toNat * stepScale c) / 256 : Nat) 127 24576)

/-- The quantiser's `scaled` (R100). A step of 0 is outside the rule's domain: a free value. -/
def scaledDiff (x : Sample) (k : Codec) : Int :=
  let diff := x.toInt - k.sig.toInt
  if k.step = 0 then Config.scaledAtStepZero diff else Int.tdiv (diff * 8) k.step.toNat

/-- `quant(sample, sig, step)` (R100). -/
def quant (x : Sample) (k : Codec) : Code :=
  let scaled := scaledDiff x k
  BitVec.ofNat 4 (min (scaled.natAbs / 2) 7 + if scaled < 0 then 8 else 0)

/-! ## One sample and one byte, as functions -/

/-- ENC.S as a function: the new codec state and the code (R102). -/
def encodeSample (k : Codec) (x : Sample) : Codec × Code := (update k (quant x k), quant x k)

/-- ENC.B as a function: the second sample sees the state the first left (R103). -/
def encodePair (k : Codec) (x0 x1 : Sample) : Codec × Byte :=
  let (k0, lo) := encodeSample k x0
  let (k1, hi) := encodeSample k0 x1
  (k1, packCodes lo hi)

/-- DEC.N as a function: the emitted sample is the new `SIG` (R121). -/
def decodeCodeValue (k : Codec) (c : Code) : Codec × Sample := (update k c, (update k c).sig)

/-- DEC.B as a function: low nibble first (R138). -/
def decodeByte (k : Codec) (hi lo : Code) : Codec × Sample × Sample :=
  let (k0, y0) := decodeCodeValue k lo
  let (k1, y1) := decodeCodeValue k0 hi
  (k1, y0, y1)

/-! ## Streams -/

/-- The fold of ENC.B over consecutive pairs (R104). -/
def encodeStream : Codec → List Sample → Codec × List Byte
  | k, x0 :: x1 :: xs =>
    let (k1, b) := encodePair k x0 x1
    let (k2, bs) := encodeStream k1 xs
    (k2, b :: bs)
  | k, _ => (k, [])

/-- The fold of DEC.B over the bytes (R139). -/
def decodeStream : Codec → List Byte → Codec × List Sample
  | k, [] => (k, [])
  | k, b :: bs =>
    let (k1, y0, y1) := decodeByte k (highCode b) (lowCode b)
    let (k2, ys) := decodeStream k1 bs
    (k2, y0 :: y1 :: ys)

/-- `encode(xs)`: an even, nonzero number of samples, else refuse; from (0, 127) (R104, R105). -/
def encodeAll (xs : List Sample) : Except Refusal (Codec × List Byte) :=
  if xs.length = 0 then .error .emptyStream
  else if xs.length % 2 ≠ 0 then .error .oddSampleCount
  else .ok (encodeStream Codec.initial xs)

/-- `decode(bs)`: a nonzero number of bytes, else refuse; from (0, 127) (R139). -/
def decodeAll (bs : List Byte) : Except Refusal (Codec × List Sample) :=
  if bs.length = 0 then .error .emptyStream
  else .ok (decodeStream Codec.initial bs)

/-! ## The operations on the state -/

/-- DEC.N of a code (R121): `SIG` and `STEP` updated, the new `SIG` emitted. -/
def decodeOneCode (c : Code) (s : State) : Host.Outcome State Fault Refusal :=
  let (k, y) := decodeCodeValue s.codec c
  .next { s with codec := k, result := .samples [y] }

/-- DEC.N 0x0 (R122). -/
def execDecN0 (s : State) : Host.Outcome State Fault Refusal := decodeOneCode 0x0 s
/-- DEC.N 0x1 (R123). -/
def execDecN1 (s : State) : Host.Outcome State Fault Refusal := decodeOneCode 0x1 s
/-- DEC.N 0x2 (R124). -/
def execDecN2 (s : State) : Host.Outcome State Fault Refusal := decodeOneCode 0x2 s
/-- DEC.N 0x3 (R125). -/
def execDecN3 (s : State) : Host.Outcome State Fault Refusal := decodeOneCode 0x3 s
/-- DEC.N 0x4 (R126). -/
def execDecN4 (s : State) : Host.Outcome State Fault Refusal := decodeOneCode 0x4 s
/-- DEC.N 0x5 (R127). -/
def execDecN5 (s : State) : Host.Outcome State Fault Refusal := decodeOneCode 0x5 s
/-- DEC.N 0x6 (R128). -/
def execDecN6 (s : State) : Host.Outcome State Fault Refusal := decodeOneCode 0x6 s
/-- DEC.N 0x7 (R129). -/
def execDecN7 (s : State) : Host.Outcome State Fault Refusal := decodeOneCode 0x7 s
/-- DEC.N 0x8 (R130). -/
def execDecN8 (s : State) : Host.Outcome State Fault Refusal := decodeOneCode 0x8 s
/-- DEC.N 0x9 (R131). -/
def execDecN9 (s : State) : Host.Outcome State Fault Refusal := decodeOneCode 0x9 s
/-- DEC.N 0xA (R132). -/
def execDecNA (s : State) : Host.Outcome State Fault Refusal := decodeOneCode 0xA s
/-- DEC.N 0xB (R133). -/
def execDecNB (s : State) : Host.Outcome State Fault Refusal := decodeOneCode 0xB s
/-- DEC.N 0xC (R134). -/
def execDecNC (s : State) : Host.Outcome State Fault Refusal := decodeOneCode 0xC s
/-- DEC.N 0xD (R135). -/
def execDecND (s : State) : Host.Outcome State Fault Refusal := decodeOneCode 0xD s
/-- DEC.N 0xE (R136). -/
def execDecNE (s : State) : Host.Outcome State Fault Refusal := decodeOneCode 0xE s
/-- DEC.N 0xF (R137). -/
def execDecNF (s : State) : Host.Outcome State Fault Refusal := decodeOneCode 0xF s

/-- DEC.B (R138). -/
def execDecB (hi lo : Code) (s : State) : Host.Outcome State Fault Refusal :=
  let (k, y0, y1) := decodeByte s.codec hi lo
  .next { s with codec := k, result := .samples [y0, y1] }

/-- ENC.S (R102). -/
def execEncS (x : Sample) (s : State) : Host.Outcome State Fault Refusal :=
  let (k, c) := encodeSample s.codec x
  .next { s with codec := k, result := .code c }

/-- ENC.B (R103). -/
def execEncB (x0 x1 : Sample) (s : State) : Host.Outcome State Fault Refusal :=
  let (k, b) := encodePair s.codec x0 x1
  .next { s with codec := k, result := .byte b }

end Sys2Proof.Machine
end

