-- ==== Sys2Proof/Machine/Reader.lean ====
section
/-!
DEFINITION. The container reader (spec 43_container_reader.md): the fixed-header front end of CONV.F
(RD.HDR, RD.PAYLOAD) and the chunk walk of CONV.T (RD.RIFF, WALK, CK.FMT, CK.DATA, CK.SMPL, CK.SKIP,
WALK.END). Checks are made in the order the rules write them, and a raise keeps what was written
before it (R249, R252).
-/

namespace Sys2Proof.Machine

/-! ## The fixed-header front end -/

/-- RD.HDR's first capture: the file size and the size of the format block (R170, R79). -/
def captureSizes (s : State) : State :=
  { s with cr := { s.cr with totalSize := s.rd32 4, fmtSize := s.rd32 16 } }

/-- RD.HDR's second capture: the format tag (R170, R79). -/
def captureTag (s : State) : State := { s with cr := { s.cr with format := s.rd16 20 } }

/-- RD.HDR's third capture: the channel count (R170, R79). -/
def captureChannels (s : State) : State := { s with cr := { s.cr with channels := s.rd16 22 } }

/-- RD.HDR's fourth capture: rate, byte rate, block alignment and bits (R170, R79). -/
def captureRates (s : State) : State :=
  { s with cr := { s.cr with
    rate := s.rd32 24, byteRate := s.rd32 28, blockAlign := s.rd16 32, bits := s.rd16 34 } }

/-- RD.HDR's last capture: the payload size (R170, R79). -/
def captureDataSize (s : State) : State := { s with cr := { s.cr with dataSize := s.rd32 40 } }

/-- RD.HDR from the channel count on (R170). -/
def readHeaderTail (checkDataTag : Bool) (s : State) : Flow :=
  let s1 := captureChannels s
  if ¬channelsOk s1.cr.channels then .raise .unsupportedFormat s1
  else
    let s2 := captureRates s1
    if s2.cr.bits ≠ 4 then .raise .unsupportedFormat s2
    else if s.memRead 36 4 ≠ tagData ∧ checkDataTag then .raise .unsupportedFormat s2
    else .go (captureDataSize s2)

/-- `RD.HDR` (R170, order R171), with the open parameter `CHECK_DATA_TAG` as an argument. -/
def readHeader (checkDataTag : Bool) (s : State) : Flow :=
  if s.inLen.toNat < 44 then .raise .truncatedHeader s
  else if s.memRead 0 4 ≠ tagRiff then .raise .malformedContainer s
  else if s.memRead 8 4 ≠ tagWave then .raise .malformedContainer s
  else if s.memRead 12 4 ≠ tagFmt then .raise .unsupportedFormat s
  else
    let s1 := captureSizes s
    if s1.cr.fmtSize ≠ 16 then .raise .unsupportedFormat s1
    else
      let s2 := captureTag s1
      if s2.cr.format ≠ 20 then .raise .unsupportedFormat s2
      else readHeaderTail checkDataTag s2

/-- `RD.PAYLOAD` (R172): the `E = CR.DATASIZE` bytes at offset 44 into `ADBUF`. -/
def readPayload (s : State) : Flow :=
  let e := s.cr.dataSize
  if s.inLen.toNat < 44 + e.toNat then .raise .ioFailure s
  else .go { s with adbuf := s.adbuf.load (s.memRead 44 e.toNat), adN := e }

/-! ## The chunk walk -/

/-- `RD.RIFF` (R173). -/
def readRiff (s : State) : Flow :=
  if s.inLen.toNat < 12 then .raise .truncatedHeader s
  else if s.memRead 0 4 ≠ tagRiff then .raise .malformedContainer s
  else if s.memRead 8 4 ≠ tagWave then .raise .malformedContainer s
  else .go { s with cr := { s.cr with totalSize := s.rd32 4 }, pos := 12 }

/-- The fields `CK.FMT` captures from the format F payload at `POS + 8` (R80, R175). -/
def captureFormat (len : U32) (s : State) : State :=
  let p := s.pos + 8
  { s with cr := { s.cr with
    fmtSize := len
    format := s.rd16 p
    channels := s.rd16 (p + 2)
    rate := s.rd32 (p + 4)
    byteRate := s.rd32 (p + 8)
    blockAlign := s.rd16 (p + 12)
    bits := s.rd16 (p + 14) } }

/-- `CK.FMT(len)` (R175). -/
def chunkFmt (len : U32) (s : State) : Flow :=
  if s.flags.fmtSeen then .raise .unsupportedFormat s
  else if len.toNat < 16 then .raise .unsupportedFormat s
  else if s.inLen.toNat < s.pos + 8 + 16 then .raise .truncatedHeader s
  else
    let t := captureFormat len s
    if t.cr.format ≠ 1 then .raise .unsupportedFormat t
    else if ¬channelsOk t.cr.channels then .raise .unsupportedFormat t
    else .go { t with flags := { t.flags with fmtSeen := true } }

/-- `CK.DATA(len)` (R176): loads `len div 2` samples of the payload. -/
def chunkData (len : U32) (s : State) : Flow :=
  if ¬s.flags.fmtSeen then .raise .unsupportedFormat s
  else if s.flags.dataSeen then .raise .unsupportedFormat s
  else if s.cr.blockAlign ≠ 2 then .raise .unsupportedFormat s
  else if s.inLen.toNat < s.pos + 8 + len.toNat then .raise .ioFailure s
  else .go { s with
    cr := { s.cr with dataSize := len }
    pcmN := len / 2
    pcmbuf := s.pcmbuf.load (s.rdSamples (s.pos + 8) (len.toNat / 2))
    flags := { s.flags with dataSeen := true } }

/-- `CK.SMPL(len)` (R177, clamps R179): the loop record from the payload at `POS + 8`, whatever `len`
says. -/
def chunkSmpl (_len : U32) (s : State) : Flow :=
  if s.inLen.toNat < s.pos + 8 + 60 then .raise .truncatedHeader s
  else
    let p := s.pos + 8
    let type := s.rd32 (p + 40)
    let start := s.rd32 (p + 44)
    let stop := s.rd32 (p + 48)
    .go { s with
      lr := ⟨type, clampLoopStart s.sampleLength start, clampLoopEnd s.sampleLength stop⟩
      flags := { s.flags with
        smplSeen := true
        loopEnabled := loopEnabledOf type stop
        loopEndNz := loopEndNzOf stop } }

/-- `CK.SKIP(len)` does nothing (R178). -/
def chunkSkip (_id _len : U32) (s : State) : Flow := .go s

/-- The seek "to next chunk by id+length", with no pad byte (R174, R56). -/
def State.seek (len : U32) (s : State) : State := { s with pos := s.pos + 8 + len.toNat }

/-- The loop of `WALK` (R174). The first argument bounds the turns: each moves `POS` by at least 8, so
`IN_LEN - POS` turns are never used up before `POS ≥ IN_LEN` ends the walk. -/
def walkLoop : Nat → State → Flow
  | 0, s => .go s
  | n + 1, s =>
    if s.inLen.toNat ≤ s.pos then .go s
    else if s.inLen.toNat - s.pos < 8 then .raise .truncatedHeader s
    else
      let id := s.rd32 s.pos
      let len := s.rd32 (s.pos + 4)
      match chunkKind id with
      | .fmt => (chunkFmt len s).andThen fun t => walkLoop n (t.seek len)
      | .data => (chunkData len s).andThen fun t => walkLoop n (t.seek len)
      | .smpl => chunkSmpl len s
      | .skip => (chunkSkip id len s).andThen fun t => walkLoop n (t.seek len)

/-- `WALK.END` (R180): no payload is TruncatedHeader; without an accepted loop the defaults. -/
def walkEnd (s : State) : Flow :=
  if ¬s.flags.dataSeen then .raise .truncatedHeader s
  else if s.flags.loopCaptured then .go s
  else .go { s with
    flags := { s.flags with loopEnabled := false }
    lr := { s.lr with start := 0, stop := s.sampleLength } }

/-- `WALK` (R174): the loop, then `WALK.END`. -/
def walk (s : State) : Flow := (walkLoop (s.inLen.toNat - s.pos) s).andThen walkEnd

/-! ## The instructions -/

/-- RD.HDR (R170). -/
def execRdHdr (s : State) : Host.Outcome State Fault Refusal :=
  runStep (readHeader Config.checkDataTag) s
/-- RD.PAYLOAD (R172). -/
def execRdPayload (s : State) : Host.Outcome State Fault Refusal := runStep readPayload s
/-- RD.RIFF (R173). -/
def execRdRiff (s : State) : Host.Outcome State Fault Refusal := runStep readRiff s
/-- WALK (R174). -/
def execWalk (s : State) : Host.Outcome State Fault Refusal := runStep walk s
/-- CK.FMT (R175). -/
def execCkFmt (len : U32) (s : State) : Host.Outcome State Fault Refusal := runStep (chunkFmt len) s
/-- CK.DATA (R176). -/
def execCkData (len : U32) (s : State) : Host.Outcome State Fault Refusal := runStep (chunkData len) s
/-- CK.SMPL (R177). -/
def execCkSmpl (len : U32) (s : State) : Host.Outcome State Fault Refusal := runStep (chunkSmpl len) s
/-- CK.SKIP (R178). -/
def execCkSkip (id len : U32) (s : State) : Host.Outcome State Fault Refusal :=
  runStep (chunkSkip id len) s
/-- WALK.END (R180). -/
def execWalkEnd (s : State) : Host.Outcome State Fault Refusal := runStep walkEnd s

end Sys2Proof.Machine
end

