-- ==== Sys2Proof/Machine/Stereo.lean ====
section
/-!
DEFINITION. The stereo transform (spec 42_stereo.md): samples are moved, nothing is computed.
-/

namespace Sys2Proof.Machine

/-- Even indices go left, odd indices go right (R160). -/
def splitFrames : List Sample → List Sample × List Sample
  | l :: r :: xs =>
    let (ls, rs) := splitFrames xs
    (l :: ls, r :: rs)
  | _ => ([], [])

/-- `xs[2j] = l[j]`, `xs[2j+1] = r[j]` (R161). -/
def joinFrames : List Sample → List Sample → List Sample
  | l :: ls, r :: rs => l :: r :: joinFrames ls rs
  | _, _ => []

/-- `deinterleave(xs)`: an even length, else refuse (R160, R164). -/
def deinterleave (xs : List Sample) : Except Refusal (List Sample × List Sample) :=
  if xs.length % 2 ≠ 0 then .error .oddInterleaved else .ok (splitFrames xs)

/-- `interleave(l, r)`: equal lengths, else refuse (R161, R164). -/
def interleave (l r : List Sample) : Except Refusal (List Sample) :=
  if l.length ≠ r.length then .error .unequalChannels else .ok (joinFrames l r)

end Sys2Proof.Machine
end

