-- ==== Sys2Proof/Machine/Writer.lean ====
section
/-!
DEFINITION. The container writer (spec 44_container_writer.md): WR.HDR.A, WR.DATA.A, WR.SMPL for
CONV.T, WR.HDR.P, WR.DATA.P for CONV.F. Every byte goes through `State.emit` (R206).
-/

namespace Sys2Proof.Machine

/-- The container record of the ADPCM file (R200): format 20, 4 bits, `E = AD_N`. -/
def adpcmRecord (e : U32) (cr : ContainerRec) : ContainerRec :=
  { cr with fmtSize := 16, format := 20, bits := 4, dataSize := e, totalSize := e + 36 }

/-- `WR.HDR.A` (R200). -/
def writeHeaderA (s : State) : Flow :=
  let t := { s with cr := adpcmRecord s.adN s.cr }
  t.emit (headerBytes t.cr)

/-- `WR.DATA.A` (R201). -/
def writeDataA (s : State) : Flow := s.emit (s.adSlice s.adN.toNat)

/-- `WR.SMPL` (R202). -/
def writeSmpl (s : State) : Flow := s.emit (loopChunkBytes s.lr)

/-- The container record of the PCM file (R204), from the encoded byte count `E = CR.DATASIZE`. -/
def pcmRecord (cr : ContainerRec) : ContainerRec :=
  let blockAlign := 2 * cr.channels
  { cr with
    fmtSize := 16
    format := 1
    bits := 16
    blockAlign := blockAlign
    byteRate := cr.rate * blockAlign.setWidth 32
    dataSize := 4 * cr.dataSize
    totalSize := 4 * cr.dataSize + 36 }

/-- `4E + 44 ≥ 2^32`: a PCM file no u32 size field expresses (R204, R222, U7). -/
def pcmTooLarge (e : U32) : Bool := 2 ^ 32 ≤ 4 * e.toNat + 44

/-- `WR.HDR.P` (R204): "4E + 44 < 2^32, else refuse". -/
def writeHeaderP (s : State) : Flow :=
  if pcmTooLarge s.cr.dataSize then .refuse .outputTooLarge
  else
    let t := { s with cr := pcmRecord s.cr }
    t.emit (headerBytes t.cr)

/-- `WR.DATA.P` (R205). -/
def writeDataP (s : State) : Flow := s.emit (samplesToBytes (s.pcmSlice s.pcmN.toNat))

/-- WR.HDR.A (R200). -/
def execWrHdrA (s : State) : Host.Outcome State Fault Refusal := runStep writeHeaderA s
/-- WR.DATA.A (R201). -/
def execWrDataA (s : State) : Host.Outcome State Fault Refusal := runStep writeDataA s
/-- WR.SMPL (R202). -/
def execWrSmpl (s : State) : Host.Outcome State Fault Refusal := runStep writeSmpl s
/-- WR.HDR.P (R204). -/
def execWrHdrP (s : State) : Host.Outcome State Fault Refusal := runStep writeHeaderP s
/-- WR.DATA.P (R205). -/
def execWrDataP (s : State) : Host.Outcome State Fault Refusal := runStep writeDataP s

end Sys2Proof.Machine
end

