-- ==== Sys2Proof/Machine/Commands.lean ====
section
/-!
DEFINITION. The host commands (spec 45_commands.md): CONV.T, CONV.F, USAGE, ENCODE, DECODE, DEINT,
INTL. Each is one atomic transition (R64, R220).
-/

namespace Sys2Proof.Machine

/-! ## CONV.T -/

/-- The codec part of CONV.T: the length tests (R230) and the coding of the payload, one stream or
two (R221). -/
def encodePayload (s : State) : Flow :=
  let p := s.cr.dataSize.toNat
  if s.cr.channels = 1 then
    if p = 0 then .refuse .emptyPayload
    else if p % 4 ≠ 0 then .refuse .payloadNotMultiple
    else Flow.withValue (encodeAll (s.pcmSlice s.pcmN.toNat)) fun (k, bs) =>
      .go { s with codec := k, adbuf := s.adbuf.load bs, adN := BitVec.ofNat 32 (p / 4) }
  else
    if p = 0 then .refuse .emptyPayload
    else if p % 8 ≠ 0 then .refuse .payloadNotMultiple
    else Flow.withValue (deinterleave (s.pcmSlice s.pcmN.toNat)) fun (ls, rs) =>
      Flow.withValue (encodeAll ls) fun (_, left) =>
      Flow.withValue (encodeAll rs) fun (k, right) =>
        .go { s with
          codec := k
          chl := s.chl.load ls
          chr := s.chr.load rs
          chN := s.pcmN / 2
          adbuf := s.adbuf.load (left ++ right)
          adN := BitVec.ofNat 32 (p / 4) }

/-- The writer part of CONV.T (R221, R203). -/
def writeAdpcmFile (s : State) : Flow :=
  (writeHeaderA s).andThen fun s => (writeDataA s).andThen fun s =>
    if s.flags.loopCaptured then writeSmpl s else .go s

/-- The body of CONV.T after the initialisation (R221). -/
def convTBody (s : State) : Flow :=
  if ¬s.inPresent then .raise .fileNotFound s
  else (readRiff s).andThen fun s => (walk s).andThen fun s =>
    (encodePayload s).andThen writeAdpcmFile

/-- CONV.T (R221). -/
def execConvT (s : State) : Host.Outcome State Fault Refusal := runCommand true convTBody s

/-! ## CONV.F -/

/-- The codec part of CONV.F: the length tests (R230) and the decoding of the payload, one stream or
two (R222). -/
def decodePayload (s : State) : Flow :=
  let e := s.adN.toNat
  let bs := s.adSlice e
  if pcmTooLarge s.adN then .refuse .outputTooLarge
  else if s.cr.channels = 1 then
    if e = 0 then .refuse .emptyPayload
    else Flow.withValue (decodeAll bs) fun (k, xs) =>
      .go { s with codec := k, pcmbuf := s.pcmbuf.load xs, pcmN := 2 * s.adN }
  else
    if e = 0 then .refuse .emptyPayload
    else if e % 2 ≠ 0 then .refuse .oddStereoPayload
    else Flow.withValue (decodeAll (bs.take (e / 2))) fun (_, ls) =>
      Flow.withValue (decodeAll (bs.drop (e / 2))) fun (k, rs) =>
      Flow.withValue (interleave ls rs) fun xs =>
        .go { s with
          codec := k
          chl := s.chl.load ls
          chr := s.chr.load rs
          chN := s.adN
          pcmbuf := s.pcmbuf.load xs
          pcmN := 2 * s.adN }

/-- The body of CONV.F after the initialisation, with the open parameter `CHECK_DATA_TAG` as an
argument (R222). -/
def convFBody (checkDataTag : Bool) (s : State) : Flow :=
  if ¬s.inPresent then .raise .fileNotFound s
  else (readHeader checkDataTag s).andThen fun s => (readPayload s).andThen fun s =>
    (decodePayload s).andThen fun s => (writeHeaderP s).andThen writeDataP

/-- CONV.F (R222). -/
def execConvF (s : State) : Host.Outcome State Fault Refusal :=
  runCommand true (convFBody Config.checkDataTag) s

/-! ## USAGE and the unit commands -/

/-- USAGE (R223, R246). -/
def execUsage (_c : Byte) (s : State) : Host.Outcome State Fault Refusal :=
  runCommand false (fun s => .raise .usageError s) s

/-- The body of ENCODE (R224). -/
def encodeBody (s : State) : Flow :=
  if ¬s.bufv.pcm then .refuse .bufferInvalid
  else Flow.withValue (encodeAll (s.pcmSlice s.pcmN.toNat)) fun (k, bs) =>
    .go { s with
      codec := k
      adbuf := s.adbuf.load bs
      adN := s.pcmN / 2
      bufv := { s.bufv with ad := true } }

/-- ENCODE (R224). -/
def execEncode (s : State) : Host.Outcome State Fault Refusal := runCommand false encodeBody s

/-- The body of DECODE (R225). -/
def decodeBody (s : State) : Flow :=
  if ¬s.bufv.ad then .refuse .bufferInvalid
  else if 2 ^ 31 ≤ s.adN.toNat then .refuse .lengthTooLarge
  else Flow.withValue (decodeAll (s.adSlice s.adN.toNat)) fun (k, xs) =>
    .go { s with
      codec := k
      pcmbuf := s.pcmbuf.load xs
      pcmN := 2 * s.adN
      bufv := { s.bufv with pcm := true } }

/-- DECODE (R225). -/
def execDecode (s : State) : Host.Outcome State Fault Refusal := runCommand false decodeBody s

/-- The body of DEINT (R226). -/
def deintBody (s : State) : Flow :=
  if ¬s.bufv.pcm then .refuse .bufferInvalid
  else Flow.withValue (deinterleave (s.pcmSlice s.pcmN.toNat)) fun (ls, rs) =>
    .go { s with
      chl := s.chl.load ls
      chr := s.chr.load rs
      chN := s.pcmN / 2
      bufv := { s.bufv with ch := true } }

/-- DEINT (R226). -/
def execDeint (s : State) : Host.Outcome State Fault Refusal := runCommand false deintBody s

/-- The body of INTL (R227). -/
def intlBody (s : State) : Flow :=
  if ¬s.bufv.ch then .refuse .bufferInvalid
  else if 2 ^ 31 ≤ s.chN.toNat then .refuse .lengthTooLarge
  else Flow.withValue (interleave (s.chlSlice s.chN.toNat) (s.chrSlice s.chN.toNat)) fun xs =>
    .go { s with
      pcmbuf := s.pcmbuf.load xs
      pcmN := 2 * s.chN
      bufv := { s.bufv with pcm := true } }

/-- INTL (R227). -/
def execIntl (s : State) : Host.Outcome State Fault Refusal := runCommand false intlBody s

end Sys2Proof.Machine
end

