-- ==== Sys2Proof/Machine/Dispatch.lean ====
section
/-!
DEFINITION. One arm for each instruction, each one call of its meaning.
-/

namespace Sys2Proof.Machine

def exec (i : Instr) (s : State) : Host.Outcome State Fault Refusal :=
  match i with
  | .convT => Sys2Proof.Machine.execConvT s
  | .convF => Sys2Proof.Machine.execConvF s
  | .encode => Sys2Proof.Machine.execEncode s
  | .decode => Sys2Proof.Machine.execDecode s
  | .deint => Sys2Proof.Machine.execDeint s
  | .intl => Sys2Proof.Machine.execIntl s
  | .usage c => Sys2Proof.Machine.execUsage c s
  | .decN0 => Sys2Proof.Machine.execDecN0 s
  | .decN1 => Sys2Proof.Machine.execDecN1 s
  | .decN2 => Sys2Proof.Machine.execDecN2 s
  | .decN3 => Sys2Proof.Machine.execDecN3 s
  | .decN4 => Sys2Proof.Machine.execDecN4 s
  | .decN5 => Sys2Proof.Machine.execDecN5 s
  | .decN6 => Sys2Proof.Machine.execDecN6 s
  | .decN7 => Sys2Proof.Machine.execDecN7 s
  | .decN8 => Sys2Proof.Machine.execDecN8 s
  | .decN9 => Sys2Proof.Machine.execDecN9 s
  | .decNA => Sys2Proof.Machine.execDecNA s
  | .decNB => Sys2Proof.Machine.execDecNB s
  | .decNC => Sys2Proof.Machine.execDecNC s
  | .decND => Sys2Proof.Machine.execDecND s
  | .decNE => Sys2Proof.Machine.execDecNE s
  | .decNF => Sys2Proof.Machine.execDecNF s
  | .decB hi lo => Sys2Proof.Machine.execDecB hi lo s
  | .encS x => Sys2Proof.Machine.execEncS x s
  | .encB x0 x1 => Sys2Proof.Machine.execEncB x0 x1 s
  | .rdRiff => Sys2Proof.Machine.execRdRiff s
  | .walk => Sys2Proof.Machine.execWalk s
  | .ckFmt len => Sys2Proof.Machine.execCkFmt len s
  | .ckData len => Sys2Proof.Machine.execCkData len s
  | .ckSmpl len => Sys2Proof.Machine.execCkSmpl len s
  | .ckSkip id len => Sys2Proof.Machine.execCkSkip id len s
  | .walkEnd => Sys2Proof.Machine.execWalkEnd s
  | .rdHdr => Sys2Proof.Machine.execRdHdr s
  | .rdPayload => Sys2Proof.Machine.execRdPayload s
  | .wrHdrA => Sys2Proof.Machine.execWrHdrA s
  | .wrDataA => Sys2Proof.Machine.execWrDataA s
  | .wrSmpl => Sys2Proof.Machine.execWrSmpl s
  | .wrHdrP => Sys2Proof.Machine.execWrHdrP s
  | .wrDataP => Sys2Proof.Machine.execWrDataP s

end Sys2Proof.Machine
end

