-- ==== Sys2Proof/Machine/Fetch.lean ====
section
/-!
DEFINITION. What the sequencer fetches: the place it stands at and the bytes it reads there (spec
30_encoding.md R70, 45_commands.md R220); and how a word of the opcode table is put there.
-/

namespace Sys2Proof.Machine

/-- What selects the next operation: the byte in `CMD`, or one operation presented on its own; nothing
while the block is idle (log entry 1). -/
def State.fetched (s : State) : Option (Place × List Byte) :=
  match s.issue with
  | .idle => none
  | .command => some (.command, [s.cmd])
  | .operation p bs => some (p, bs)

/-- The operation has been taken up: nothing more is presented (R220: "There is no queue"). -/
def State.taken (s : State) : State := { s with issue := .idle }

/-- Present the bytes of a place: a byte of format C goes to `CMD`, anything else is an operation on
its own. -/
def State.present (s : State) (p : Place) (bs : List Byte) : State :=
  match p, bs with
  | .command, [c] => { s with cmd := c, issue := .command }
  | p, bs => { s with issue := .operation p bs }

/-- Put a word of the opcode table where the next step fetches. A word no place reads is presented as
a command with all its bytes, which the step rejects by name. -/
def State.presentWord (s : State) (nbits w : Nat) : State :=
  match tablePlace nbits (tableBytes nbits w) with
  | some p => s.present p (placeBytes p (tableBytes nbits w))
  | none => { s with issue := .operation .command (tableBytes nbits w) }

end Sys2Proof.Machine
end

