-- ==== Sys2Proof/Machine/Step.lean ====
section
/-!
DEFINITION. One step of the core: what has been presented is decoded and run to its end, as one
atomic transition (spec 20_memory.md R64, 45_commands.md R220). While nothing is presented the block
waits (70_reset_and_hazards.md R273): the step changes nothing.
-/

namespace Sys2Proof.Machine

/-- One step. -/
def step (s : State) : Host.Outcome State Fault Refusal :=
  match s.fetched with
  | none => .next s
  | some (p, bs) =>
    match decode p bs with
    | .ok i => exec i s.taken
    | .error r => .refused (.undecodable r)

/-- `s` with a word of the opcode table where the next step fetches. -/
def State.withFetchWord (s : State) (nbits w : Nat) : State := s.presentWord nbits w

end Sys2Proof.Machine
end

