-- ==== Sys2Proof/Machine/HostPort.lean ====
section
/-!
DEFINITION. What the host may do between commands (spec 10_state.md R20, R29 to R33, R36;
70_reset_and_hazards.md R273): its writes and its reads. They are not steps of the core; the model's
`step` runs what they have set up.
-/

namespace Sys2Proof.Machine

/-- The registers of the table under R20, by name. -/
inductive Reg where
  | cmd | status | err | inPresent | inLen | outLen | outCap | outValid | sig | step | pos | flags
  | crTotalSize | crFmtSize | crFormat | crChannels | crRate | crByteRate | crBlockAlign | crBits
  | crDataSize | lrType | lrStart | lrEnd | pcmN | adN | chN | bufv
  deriving DecidableEq, Repr

/-- The register number of R20, "an index for reference". -/
def Reg.number : Reg → Nat
  | .cmd => 0 | .status => 1 | .err => 2 | .inPresent => 3 | .inLen => 4 | .outLen => 5
  | .outCap => 6 | .outValid => 7 | .sig => 8 | .step => 9 | .pos => 10 | .flags => 11
  | .crTotalSize => 12 | .crFmtSize => 13 | .crFormat => 14 | .crChannels => 15 | .crRate => 16
  | .crByteRate => 17 | .crBlockAlign => 18 | .crBits => 19 | .crDataSize => 20 | .lrType => 21
  | .lrStart => 22 | .lrEnd => 23 | .pcmN => 24 | .adN => 25 | .chN => 26 | .bufv => 27

/-- The value of a register as an unsigned pattern; `CMD`'s read value is unspecified, a free value
(R29, U13; log entry 8). -/
def State.regValue (r : Reg) (s : State) : Nat :=
  match r with
  | .cmd => (Config.cmdRead s.cmdReads).toNat
  | .status => s.status.toNat
  | .err => s.err.toNat
  | .inPresent => s.inPresent.toNat
  | .inLen => s.inLen.toNat
  | .outLen => s.outLen.toNat
  | .outCap => s.outCap.toNat
  | .outValid => s.outValid.toNat
  | .sig => s.codec.sig.toNat
  | .step => s.codec.step.toNat
  | .pos => s.pos
  | .flags => s.flags.bits.toNat
  | .crTotalSize => s.cr.totalSize.toNat
  | .crFmtSize => s.cr.fmtSize.toNat
  | .crFormat => s.cr.format.toNat
  | .crChannels => s.cr.channels.toNat
  | .crRate => s.cr.rate.toNat
  | .crByteRate => s.cr.byteRate.toNat
  | .crBlockAlign => s.cr.blockAlign.toNat
  | .crBits => s.cr.bits.toNat
  | .crDataSize => s.cr.dataSize.toNat
  | .lrType => s.lr.type.toNat
  | .lrStart => s.lr.start.toNat
  | .lrEnd => s.lr.stop.toNat
  | .pcmN => s.pcmN.toNat
  | .adN => s.adN.toNat
  | .chN => s.chN.toNat
  | .bufv => s.bufv.bits.toNat

/-- A byte of `OUT`; one nothing has written is a free value (U15; log entry 7). -/
def State.outByte (s : State) (a : Nat) : Byte := (s.output.get? a).getD (Config.freeOut a)

/-- An element of a work buffer as the host sees it: the element while the buffer is valid and the index
below its length, else a free value (R36, U14; log entry 5). -/
def Buf.hostElem {α : Type} (free : Nat → Nat → α) (b : Buf α) (valid : Bool) (len i : U32) : α :=
  if valid ∧ i < len then b.read free i.toNat else free b.gen i.toNat

/-- What the host can read: a register, a byte of `OUT`, an element of a work buffer (R63, R273
step 4). `IN` is read by conversion commands only (R37). -/
inductive HostRead where
  | reg (r : Reg)
  | out (a : U32)
  | pcm (i : U32)
  | ad (i : U32)
  | chl (i : U32)
  | chr (i : U32)
  deriving DecidableEq, Repr

/-- The address exists: `OUT` ends at `OUT_CAP` (R50). -/
def HostRead.addressable (q : HostRead) (s : State) : Bool :=
  match q with
  | .out a => decide (a < s.outCap)
  | .reg _ | .pcm _ | .ad _ | .chl _ | .chr _ => true

/-- The value read, as an unsigned pattern. -/
def HostRead.value (q : HostRead) (s : State) : Nat :=
  match q with
  | .reg r => s.regValue r
  | .out a => (s.outByte a.toNat).toNat
  | .pcm i => (s.pcmbuf.hostElem Config.freePcm s.bufv.pcm s.pcmN i).toNat
  | .ad i => (s.adbuf.hostElem Config.freeAd s.bufv.ad s.adN i).toNat
  | .chl i => (s.chl.hostElem Config.freeChl s.bufv.ch s.chN i).toNat
  | .chr i => (s.chr.hostElem Config.freeChr s.bufv.ch s.chN i).toNat

/-- The state after a read: no read has a side effect (R58); the model counts the reads of `CMD` (log
entry 8). -/
def HostRead.after (q : HostRead) (s : State) : State :=
  if q = .reg .cmd then { s with cmdReads := s.cmdReads + 1 } else s

/-- A host read while the block is idle, which is after the completion of the last command (R63): the
value, and the state after. The host has no step while the block is not idle (R64, U10). -/
def hostRead (q : HostRead) (s : State) : Option (Nat × State) :=
  if s.issue = .idle ∧ q.addressable s then some (q.value s, q.after s) else none

/-- The host's writes: the registers R20 marks write or read/write, the bytes of `IN` and the elements
of the work buffers. The registers marked read have none (U11). -/
inductive HostWrite where
  | cmd (c : Byte)
  | inPresent (v : Bool)
  | inLen (n : U32)
  | outCap (n : U32)
  | pcmN (n : U32)
  | adN (n : U32)
  | chN (n : U32)
  | bufv (v : BitVec 3)
  | inByte (a : U32) (b : Byte)
  | pcm (i : U32) (x : Sample)
  | ad (i : U32) (b : Byte)
  | chl (i : U32) (x : Sample)
  | chr (i : U32) (x : Sample)
  deriving DecidableEq, Repr

/-- A host write of `BUFV`: a buffer whose valid bit it clears has unspecified contents from then on
(R36, U14; log entry 5). -/
def State.writeBufv (v : BitVec 3) (s : State) : State :=
  let b := Bufv.ofBits v
  { s with
    bufv := b
    pcmbuf := if s.bufv.pcm ∧ ¬b.pcm then s.pcmbuf.discard else s.pcmbuf
    adbuf := if s.bufv.ad ∧ ¬b.ad then s.adbuf.discard else s.adbuf
    chl := if s.bufv.ch ∧ ¬b.ch then s.chl.discard else s.chl
    chr := if s.bufv.ch ∧ ¬b.ch then s.chr.discard else s.chr }

/-- What a host write does while the block is idle. A write of `IN_LEN` or `IN_PRESENT` leaves the bytes
of `IN` as they are, so a byte the host wrote is read again when the length covers it again: R62's last
value written, where U16 calls the stored bytes any value (DESIGN CHOICE, log entry 6). -/
def HostWrite.apply (w : HostWrite) (s : State) : State :=
  match w with
  | .cmd c => { s with cmd := c, issue := .command }
  | .inPresent v => { s with inPresent := v }
  | .inLen n => { s with inLen := n }
  | .outCap n => { s with outCap := n }
  | .pcmN n => { s with pcmN := n }
  | .adN n => { s with adN := n }
  | .chN n => { s with chN := n }
  | .bufv v => s.writeBufv v
  | .inByte a b => { s with input := s.input.put a.toNat b }
  | .pcm i x => { s with pcmbuf := s.pcmbuf.put i.toNat x }
  | .ad i b => { s with adbuf := s.adbuf.put i.toNat b }
  | .chl i x => { s with chl := s.chl.put i.toNat x }
  | .chr i x => { s with chr := s.chr.put i.toNat x }

/-- A host write: the host has no step while the block is not idle (R64, U10). -/
def hostWrite (w : HostWrite) (s : State) : Host.Outcome State Fault Refusal :=
  if s.issue = .idle then .next (w.apply s) else .fault .hostWhileBusy

end Sys2Proof.Machine
end

