-- ==== Sys2Proof/Safety.lean ====
section
/-!
DEFINITION. The terms claims use: what a state holds (the spec's buffers and images as sequences), the
invariant of the block (spec 10_state.md R25, R33, R41; 20_memory.md; 60_exceptions.md R240), and what
an unsuccessful command looks like.
-/

namespace Sys2Proof.Machine

/-! ## What a state holds -/

/-- The memory holds the sequence `xs` from address `a` upward. -/
def Memory.Holds {α : Type} (m : Memory α) (a : Nat) (xs : List α) : Prop :=
  ∀ i (h : i < xs.length), m.get? (a + i) = some xs[i]

/-- `PCMBUF[0 .. PCM_N)` is `xs` (R36). -/
def State.HoldsPcm (s : State) (xs : List Sample) : Prop :=
  s.pcmN.toNat = xs.length ∧ s.pcmbuf.cells.Holds 0 xs

/-- `ADBUF[0 .. AD_N)` is `bs` (R36). -/
def State.HoldsAd (s : State) (bs : List Byte) : Prop :=
  s.adN.toNat = bs.length ∧ s.adbuf.cells.Holds 0 bs

/-- `CHL[0 .. CH_N)` is `ls` and `CHR[0 .. CH_N)` is `rs` (R36). -/
def State.HoldsChannels (s : State) (ls rs : List Sample) : Prop :=
  s.chN.toNat = ls.length ∧ ls.length = rs.length ∧ s.chl.cells.Holds 0 ls ∧ s.chr.cells.Holds 0 rs

/-- The host has loaded the file `bs` (R273 step 1). -/
def State.HoldsInput (s : State) (bs : List Byte) : Prop :=
  s.inPresent = true ∧ s.inLen.toNat = bs.length ∧ s.input.Holds 0 bs

/-- `OUT[0 .. OUT_LEN)` is `bs` (R33). -/
def State.HoldsOutput (s : State) (bs : List Byte) : Prop :=
  s.outLen.toNat = bs.length ∧ s.output.Holds 0 bs

/-! ## The invariant -/

/-- `STEP` in 127..24576 (R22, R41); `SIG` is an s16 by its width. -/
def Codec.InRange (k : Codec) : Prop := 127 ≤ k.step.toNat ∧ k.step.toNat ≤ 24576

/-- Every memory is in its canonical form. -/
def State.MemoriesWf (s : State) : Prop :=
  s.input.wf ∧ s.output.wf ∧ s.pcmbuf.cells.wf ∧ s.adbuf.cells.wf ∧ s.chl.cells.wf ∧ s.chr.cells.wf

/-- `ERR` and `STATUS` report one outcome: both 0, or an error code 1..6 with 0xFFFFFFFF (R30, R31,
R240). -/
def State.ReportOk (s : State) : Prop :=
  (s.err = 0 ∧ s.status = 0) ∨ (1 ≤ s.err.toNat ∧ s.err.toNat ≤ 6 ∧ s.status = 0xFFFFFFFF)

/-- Every byte of `OUT[0 .. OUT_LEN)` has been written (R33, R60). -/
def State.OutputWritten (s : State) : Prop := ∀ a, a < s.outLen.toNat → (s.output.get? a).isSome

/-- The invariant of the block: canonical memories, `STEP` in range (R41), `POS` within its width
(R25), the report consistent (R30, R31), the output written up to `OUT_LEN` (R33), and a committed
output has one or two channels (R41). -/
structure State.Inv (s : State) : Prop where
  memories : s.MemoriesWf
  codec : s.codec.InRange
  pos : s.pos < 2 ^ 33 + 8
  report : s.ReportOk
  output : s.OutputWritten
  channels : s.outValid = true → s.cr.channels = 1 ∨ s.cr.channels = 2

/-- The state an aborted conversion leaves: the error reported, no output offered, no buffer valid
(R250). -/
def State.Aborted (s : State) : Prop :=
  s.err ≠ 0 ∧ s.status = 0xFFFFFFFF ∧ s.outValid = false ∧ s.bufv = {}

end Sys2Proof.Machine
end

