-- ==== Sys2Proof/Certificates/Slice0/Obligations.lean ====
section
/-!
DEFINITION. The statements for the provers, from the numbered rules of spec/. Each docstring names the
rules or sections it formalises. A conclusion `exec i s = .next t` says that the instruction completes
and gives every field of the next state; a field written nowhere is unchanged.
-/

namespace Sys2Proof.Claims

open Sys2Proof.Machine

/-! ## Terms the statements use -/

/-- The state an aborted conversion leaves (R250 steps 2 to 5): `ERR`, `STATUS`, `OUT_VALID`, the valid
bits and the released contents; everything else as `s` has it (R252). -/
def abortedConv (s : State) (code : BitVec 8) : State :=
  { s with
    err := code, status := 0xFFFFFFFF, outValid := false, bufv := {}
    pcmbuf := s.pcmbuf.discard, adbuf := s.adbuf.discard
    chl := s.chl.discard, chr := s.chr.discard }

/-- The state after the initialisation of a unit command or USAGE (R271). -/
def initialisedUnit (s : State) : State :=
  { s with outValid := false, outLen := 0, pos := 0, flags := {}, cr := {}, lr := {} }

/-- The state after the initialisation of a conversion (R271). -/
def initialisedConv (s : State) : State :=
  { initialisedUnit s with bufv := {}, pcmN := 0, adN := 0, chN := 0 }

/-- The clamp of the signal (R120). -/
def clampSig (v : Int) : Int := max (-32768) (min 32767 v)

/-- The state after a DEC.N that leaves `SIG = sig` and `STEP = step` and emits `sig` (R121). -/
def decNext (s : State) (sig : Int) (step : Nat) : State :=
  { s with
    codec := ⟨BitVec.ofInt 16 sig, BitVec.ofNat 16 step⟩
    result := .samples [BitVec.ofInt 16 sig] }

/-- A worked example of R122 to R137: what the code does from (0, 127) and from (1000, 1000). -/
def DecExample (i : Instr) (sig0 : Int) (step0 : Nat) (sig1 : Int) (step1 : Nat) : Prop :=
  ∀ s : State,
    (s.codec = ⟨0, 127⟩ → exec i s = .next (decNext s sig0 step0)) ∧
    (s.codec = ⟨1000, 1000⟩ → exec i s = .next (decNext s sig1 step1))

/-- Instructions one after another. -/
def execAll : List Instr → State → Host.Outcome State Fault Refusal
  | [], s => .next s
  | i :: is, s =>
    match exec i s with
    | .next t => execAll is t
    | .fault f => .fault f
    | .refused r => .refused r

/-- The fold of ENC.B over consecutive pairs of samples: the last state and the bytes returned, in
order (R104). -/
def encBytes : State → List Sample → Option (State × List Byte)
  | s, x0 :: x1 :: xs =>
    match exec (.encB x0 x1) s with
    | .next t =>
      match t.result with
      | .byte b => (encBytes t xs).map fun p => (p.1, b :: p.2)
      | _ => none
    | _ => none
  | s, _ => some (s, [])

/-- The fold of DEC.B over bytes: the last state and the samples returned, in order (R139). -/
def decSamples : State → List Byte → Option (State × List Sample)
  | s, [] => some (s, [])
  | s, b :: bs =>
    match exec (.decB (highCode b) (lowCode b)) s with
    | .next t =>
      match t.result with
      | .samples ys => (decSamples t bs).map fun p => (p.1, ys ++ p.2)
      | _ => none
    | _ => none

/-- The values of `SIG` right after the ENC.S of each sample (R140). -/
def encSignals : State → List Sample → Option (List Sample)
  | _, [] => some []
  | s, x :: xs =>
    match exec (.encS x) s with
    | .next t => (encSignals t xs).map fun ys => t.codec.sig :: ys
    | _ => none

/-- The start of a stream (R272). -/
def streamStart (s : State) : State := { s with codec := ⟨0, 127⟩ }

/-- Left and right samples interleaved L, R, L, R (R84). -/
def frames : List Sample → List Sample → List Sample
  | l :: ls, r :: rs => l :: r :: frames ls rs
  | _, _ => []

/-- A 44-byte header of the fixed form (R79). -/
def fixedHeader (total : U32) (format channels : U16) (rate byteRate : U32) (align bits : U16)
    (dataSize : U32) : List Byte :=
  [0x52, 0x49, 0x46, 0x46] ++ u32bytes total ++ [0x57, 0x41, 0x56, 0x45] ++
    [0x66, 0x6D, 0x74, 0x20] ++ [0x10, 0x00, 0x00, 0x00] ++ u16bytes format ++ u16bytes channels ++
    u32bytes rate ++ u32bytes byteRate ++ u16bytes align ++ u16bytes bits ++
    [0x64, 0x61, 0x74, 0x61] ++ u32bytes dataSize

/-- A loop chunk as the block writes one (R81, R202). -/
def loopChunk (type start stop : U32) : List Byte :=
  [0x73, 0x6D, 0x70, 0x6C, 0x3C, 0x00, 0x00, 0x00] ++ List.replicate 40 0 ++ u32bytes type ++
    u32bytes start ++ u32bytes stop ++ List.replicate 8 0

/-- Samples as payload bytes, each least significant byte first (R53). -/
def payload (xs : List Sample) : List Byte := xs.flatMap u16bytes

/-- `t` is `s` with the bytes `bs` written to `OUT` from `OUT_LEN` upward, and nothing else. -/
def Emitted (s t : State) (bs : List Byte) : Prop :=
  t = { s with output := t.output, outLen := t.outLen } ∧
  t.outLen.toNat = s.outLen.toNat + bs.length ∧
  ∀ a, t.output.get? a =
    if s.outLen.toNat ≤ a ∧ a < s.outLen.toNat + bs.length then bs[a - s.outLen.toNat]?
    else s.output.get? a

/-- For each writer step: the state after its register writes, and the bytes it emits (R200 to R205).
WR.HDR.P has a meaning only where its output fits a u32 size field. -/
def writes : Instr → State → Option (State × List Byte)
  | .wrHdrA, s =>
    some ({ s with cr := { s.cr with
        fmtSize := 16, format := 20, bits := 4, dataSize := s.adN, totalSize := s.adN + 36 } },
      fixedHeader (s.adN + 36) 20 s.cr.channels s.cr.rate s.cr.byteRate s.cr.blockAlign 4 s.adN)
  | .wrDataA, s => some (s, s.adSlice s.adN.toNat)
  | .wrSmpl, s => some (s, loopChunk s.lr.type s.lr.start s.lr.stop)
  | .wrHdrP, s =>
    let align : U16 := 2 * s.cr.channels
    let byteRate : U32 := BitVec.ofNat 32 (s.cr.rate.toNat * align.toNat)
    let size : U32 := 4 * s.cr.dataSize
    if 4 * s.cr.dataSize.toNat + 44 < 2 ^ 32 then
      some ({ s with cr := { s.cr with
          fmtSize := 16, format := 1, bits := 16, blockAlign := align, byteRate := byteRate
          dataSize := size, totalSize := size + 36 } },
        fixedHeader (size + 36) 1 s.cr.channels s.cr.rate byteRate align 16 size)
    else none
  | .wrDataP, s => some (s, payload (s.pcmSlice s.pcmN.toNat))
  | _, _ => none

/-- The instructions of the codec. -/
def isCodecOp : Instr → Bool
  | .decN0 | .decN1 | .decN2 | .decN3 | .decN4 | .decN5 | .decN6 | .decN7 => true
  | .decN8 | .decN9 | .decNA | .decNB | .decNC | .decND | .decNE | .decNF => true
  | .decB _ _ | .encS _ | .encB _ _ => true
  | _ => false

/-- The steps of the writer. -/
def isWriterOp : Instr → Bool
  | .wrHdrA | .wrDataA | .wrSmpl | .wrHdrP | .wrDataP => true
  | _ => false

/-- The reader of CONV.T, run from an initialised state: RD.RIFF, then WALK (R221). -/
def pcmReader (s : State) : Flow := (readRiff s).andThen walk

/-- A conversion gets as far as the codec: the input is there and its reader accepts it (R221, R222). -/
def ReachesCodec : Instr → State → Prop
  | .convT, s => s.inPresent = true ∧ ∃ r, pcmReader (initialisedConv s) = .go r
  | .convF, s => s.inPresent = true ∧
      ∃ r, (readHeader Config.checkDataTag (initialisedConv s)).andThen readPayload = .go r
  | _, _ => False

/-- What a conversion reports to the host (R232). -/
structure SameReport (t t' : State) : Prop where
  status : t.status = t'.status
  err : t.err = t'.err
  outValid : t.outValid = t'.outValid
  outLen : t.outLen = t'.outLen
  pos : t.pos = t'.pos
  flags : t.flags = t'.flags
  cr : t.cr = t'.cr
  lr : t.lr = t'.lr
  output : ∀ a, a < t.outLen.toNat → t.output.get? a = t'.output.get? a

end Sys2Proof.Claims

open Sys2Proof Sys2Proof.Machine Sys2Proof.Claims

/-! ## Encodings -/

/-- Decoding an encoded well-formed instruction, at the place it is read at, gives it back (R70, R71,
R74 to R77, R82, R103). -/
def Obligations.DecodeOfEncode : Prop :=
  ∀ i : Instr, i.wellFormed = true → decode (placeOf i) (encode i) = .ok i

/-- What the decoder accepts is well-formed, read at its own place, and the bytes are its encoding: no
two byte strings at a place mean the same instruction. -/
def Obligations.EncodeOfDecode : Prop :=
  ∀ (p : Place) (bs : List Byte) (i : Instr), decode p bs = .ok i →
    i.wellFormed = true ∧ placeOf i = p ∧ encode i = bs

/-- A few words written out from the spec's encodings: the command table of R82, nibbles of R71, the
packed byte 0x20 of R138, samples of R75, chunk headers of R76 to R78. -/
def Obligations.SpecWordsDecode : Prop :=
  decode .command [0x74] = .ok .convT ∧ decode .command [0x66] = .ok .convF ∧
  decode .command [0x01] = .ok .encode ∧ decode .command [0x02] = .ok .decode ∧
  decode .command [0x03] = .ok .deint ∧ decode .command [0x04] = .ok .intl ∧
  decode .command [0x78] = .ok (.usage 0x78) ∧
  decode .code [0x0E] = .ok .decNE ∧ decode .packed [0x20] = .ok (.decB 2 0) ∧
  decode .sample [0x9C, 0xFF] = .ok (.encS (BitVec.ofInt 16 (-100))) ∧
  decode .chunk [0x66, 0x6D, 0x74, 0x20, 0x10, 0, 0, 0] = .ok (.ckFmt 16) ∧
  decode .chunk [0x64, 0x61, 0x74, 0x61, 0x10, 0, 0, 0] = .ok (.ckData 16) ∧
  decode .chunk [0x73, 0x6D, 0x70, 0x6C, 0x3C, 0, 0, 0] = .ok (.ckSmpl 60) ∧
  decode .chunk [0x4C, 0x49, 0x53, 0x54, 4, 0, 0, 0] = .ok (.ckSkip 0x5453494C 4)

/-- No code, byte, sample, chunk header or command byte is illegal (R86, R257): bytes as many as the
format of the place has decode, and any other number is rejected by name. -/
def Obligations.FullLengthWordsDecode : Prop :=
  ∀ (p : Place) (bs : List Byte),
    (bs.length = p.byteCount → (p = .code → ∀ b ∈ bs, b.toNat < 16) → ∃ i, decode p bs = .ok i) ∧
    (bs.length ≠ p.byteCount → decode p bs = .error (.wrongLength p))

/-! ## The step, the host and reset -/

/-- When what has been presented decodes, the step is that instruction's `exec`, on the state from which
the presentation has been taken. -/
def Obligations.StepRunsDecoded : Prop :=
  ∀ (s : State) (p : Place) (bs : List Byte) (i : Instr),
    s.fetched = some (p, bs) → decode p bs = .ok i → step s = exec i { s with issue := .idle }

/-- "A write of the byte `c` to `CMD` while the block is idle starts the command `c` selects" (R220,
R82): the step after the write runs it, on the state the host left with `c` in `CMD`. -/
def Obligations.CommandWriteRunsCommand : Prop :=
  ∀ (s : State) (c : Byte), s.issue = .idle →
    ∃ t, hostWrite (.cmd c) s = .next t ∧
      step t = exec
        (if c = 0x74 then .convT else if c = 0x66 then .convF else if c = 0x01 then .encode
          else if c = 0x02 then .decode else if c = 0x03 then .deint else if c = 0x04 then .intl
          else .usage c)
        { s with cmd := c }

/-- The model's choice of log entry 1: the idle block waits, its step changes nothing; and (U10) the host
has no write while the block is not idle. -/
def Obligations.IdleWaitsBusyBars : Prop :=
  (∀ s : State, s.issue = .idle → step s = .next s) ∧
  (∀ (w : HostWrite) (s : State), s.issue ≠ .idle → hostWrite w s = .fault .hostWhileBusy)

/-- After reset every readable register is 0 but `STEP` = 127 and `OUT_CAP`, its parameter, and the block
is idle (R270). (`CMD` is 0 too; its read value is unspecified, R29.) -/
def Obligations.ResetRegisters : Prop :=
  (∀ r : Reg, r ≠ .cmd → r ≠ .step → r ≠ .outCap → State.reset.regValue r = 0) ∧
  State.reset.regValue .step = 127 ∧ State.reset.regValue .outCap = Config.outCap.toNat ∧
  State.reset.cmd = 0 ∧ State.reset.issue = .idle

/-- The packed registers (R20 #11 and #27, R36, R38): the bits of `FLAGS` and of `BUFV`, and a host write
of `BUFV` reads back. -/
def Obligations.PackedRegisterBits : Prop :=
  (∀ s : State,
    s.regValue .flags = s.flags.fmtSeen.toNat + 2 * s.flags.dataSeen.toNat + 4 * s.flags.smplSeen.toNat +
      8 * s.flags.loopEnabled.toNat + 16 * s.flags.loopEndNz.toNat ∧
    s.regValue .bufv = s.bufv.pcm.toNat + 2 * s.bufv.ad.toNat + 4 * s.bufv.ch.toNat) ∧
  (∀ (s : State) (v : BitVec 3), s.issue = .idle →
    ∃ t, hostWrite (.bufv v) s = .next t ∧ t.regValue .bufv = v.toNat)

/-- What the host loads is what the block reads (R32, R37, R273): a byte written to `IN` is read back at
its address, every other byte and register stays. And what a valid buffer or `OUT` holds is what the idle
block lets the host read, below the length register (R36, R63, R273 step 4); a host read of them changes
nothing (R58). -/
def Obligations.HostLoadsInput : Prop :=
  (∀ (s : State) (a : U32) (b : Byte), s.issue = .idle →
    ∃ t, hostWrite (.inByte a b) s = .next t ∧ t = { s with input := t.input } ∧
      t.inByte a.toNat = b ∧ ∀ c, c ≠ a.toNat → t.inByte c = s.inByte c) ∧
  (∀ (s : State) (xs : List Sample) (i : U32), s.issue = .idle → s.bufv.pcm = true → s.HoldsPcm xs →
    ∀ h : i.toNat < xs.length, hostRead (.pcm i) s = some ((xs[i.toNat]).toNat, s)) ∧
  (∀ (s : State) (bs : List Byte) (i : U32), s.issue = .idle → s.bufv.ad = true → s.HoldsAd bs →
    ∀ h : i.toNat < bs.length, hostRead (.ad i) s = some ((bs[i.toNat]).toNat, s)) ∧
  (∀ (s : State) (ls rs : List Sample) (i : U32), s.issue = .idle → s.bufv.ch = true →
    s.HoldsChannels ls rs →
    (∀ h : i.toNat < ls.length, hostRead (.chl i) s = some ((ls[i.toNat]).toNat, s)) ∧
    (∀ h : i.toNat < rs.length, hostRead (.chr i) s = some ((rs[i.toNat]).toNat, s))) ∧
  (∀ (s : State) (bs : List Byte) (i : U32), s.issue = .idle → s.HoldsOutput bs →
    s.outLen.toNat ≤ s.outCap.toNat →
    ∀ h : i.toNat < bs.length, hostRead (.out i) s = some ((bs[i.toNat]).toNat, s))

/-- The invariant holds after reset. -/
def Obligations.ResetMeetsInv : Prop := State.reset.Inv

/-- Every step keeps the invariant: canonical memories, `STEP` in 127..24576 (R41, R142), `POS` below
2^33 + 8 (R25), `ERR` and `STATUS` in agreement (R30, R31), `OUT` written up to `OUT_LEN` (R33), one or
two channels in a committed output (R41). -/
def Obligations.StepKeepsInv : Prop :=
  ∀ s t : State, s.Inv → step s = .next t → t.Inv

/-- Every host write keeps the invariant. -/
def Obligations.HostWriteKeepsInv : Prop :=
  ∀ (w : HostWrite) (s t : State), s.Inv → hostWrite w s = .next t → t.Inv

/-- No step lets `OUT_LEN` pass `OUT_CAP` (R206). -/
def Obligations.StepKeepsOutLenWithinCap : Prop :=
  ∀ s t : State, s.outLen.toNat ≤ s.outCap.toNat → step s = .next t →
    t.outLen.toNat ≤ t.outCap.toNat

/-! ## The codec -/

/-- R122 to R125: the codes 0x0 to 0x3, with their worked examples. -/
def Obligations.DecodeCodes0To3 : Prop :=
  (∀ s : State, s.codec.InRange →
    let g := s.codec.sig.toInt
    let st := s.codec.step.toNat
    exec .decN0 s = .next (decNext s (clampSig (g + (st / 8 : Nat))) (max 127 (st * 230 / 256))) ∧
    exec .decN1 s = .next (decNext s (clampSig (g + (3 * st / 8 : Nat))) (max 127 (st * 230 / 256))) ∧
    exec .decN2 s = .next (decNext s (clampSig (g + (5 * st / 8 : Nat))) (max 127 (st * 230 / 256))) ∧
    exec .decN3 s = .next (decNext s (clampSig (g + (7 * st / 8 : Nat))) (max 127 (st * 230 / 256)))) ∧
  DecExample .decN0 15 127 1125 898 ∧ DecExample .decN1 47 127 1375 898 ∧
  DecExample .decN2 79 127 1625 898 ∧ DecExample .decN3 111 127 1875 898

/-- R126 to R129: the codes 0x4 to 0x7, with their worked examples. -/
def Obligations.DecodeCodes4To7 : Prop :=
  (∀ s : State, s.codec.InRange →
    let g := s.codec.sig.toInt
    let st := s.codec.step.toNat
    exec .decN4 s = .next (decNext s (clampSig (g + (9 * st / 8 : Nat))) (min 24576 (st * 307 / 256))) ∧
    exec .decN5 s = .next (decNext s (clampSig (g + (11 * st / 8 : Nat))) (min 24576 (st * 409 / 256))) ∧
    exec .decN6 s = .next (decNext s (clampSig (g + (13 * st / 8 : Nat))) (min 24576 (2 * st))) ∧
    exec .decN7 s = .next (decNext s (clampSig (g + (15 * st / 8 : Nat))) (min 24576 (st * 614 / 256)))) ∧
  DecExample .decN4 142 152 2125 1199 ∧ DecExample .decN5 174 202 2375 1597 ∧
  DecExample .decN6 206 254 2625 2000 ∧ DecExample .decN7 238 304 2875 2398

/-- R130 to R133: the codes 0x8 to 0xB, with their worked examples. -/
def Obligations.DecodeCodes8ToB : Prop :=
  (∀ s : State, s.codec.InRange →
    let g := s.codec.sig.toInt
    let st := s.codec.step.toNat
    exec .decN8 s = .next (decNext s (clampSig (g - (st / 8 : Nat))) (max 127 (st * 230 / 256))) ∧
    exec .decN9 s = .next (decNext s (clampSig (g - (3 * st / 8 : Nat))) (max 127 (st * 230 / 256))) ∧
    exec .decNA s = .next (decNext s (clampSig (g - (5 * st / 8 : Nat))) (max 127 (st * 230 / 256))) ∧
    exec .decNB s = .next (decNext s (clampSig (g - (7 * st / 8 : Nat))) (max 127 (st * 230 / 256)))) ∧
  DecExample .decN8 (-15) 127 875 898 ∧ DecExample .decN9 (-47) 127 625 898 ∧
  DecExample .decNA (-79) 127 375 898 ∧ DecExample .decNB (-111) 127 125 898

/-- R134 to R137: the codes 0xC to 0xF, with their worked examples. -/
def Obligations.DecodeCodesCToF : Prop :=
  (∀ s : State, s.codec.InRange →
    let g := s.codec.sig.toInt
    let st := s.codec.step.toNat
    exec .decNC s = .next (decNext s (clampSig (g - (9 * st / 8 : Nat))) (min 24576 (st * 307 / 256))) ∧
    exec .decND s = .next (decNext s (clampSig (g - (11 * st / 8 : Nat))) (min 24576 (st * 409 / 256))) ∧
    exec .decNE s = .next (decNext s (clampSig (g - (13 * st / 8 : Nat))) (min 24576 (2 * st))) ∧
    exec .decNF s = .next (decNext s (clampSig (g - (15 * st / 8 : Nat))) (min 24576 (st * 614 / 256)))) ∧
  DecExample .decNC (-142) 152 (-125) 1199 ∧ DecExample .decND (-174) 202 (-375) 1597 ∧
  DecExample .decNE (-206) 254 (-625) 2000 ∧ DecExample .decNF (-238) 304 (-875) 2398

/-- DEC.B is DEC.N of the low code, then DEC.N of the high code in the state that left; it returns both
emitted samples in time order (R138, with its example). -/
def Obligations.DecodeByteRunsTwoCodes : Prop :=
  (∀ (s : State) (hi lo : Code), ∃ t u,
    exec (decodeCode lo) s = .next t ∧ exec (decodeCode hi) t = .next u ∧
    exec (.decB hi lo) s =
      .next { s with codec := u.codec, result := .samples [t.codec.sig, u.codec.sig] }) ∧
  (∀ s : State, s.codec = ⟨0, 127⟩ →
    exec (.decB 2 0) s = .next { s with codec := ⟨94, 127⟩, result := .samples [15, 94] })

/-- ENC.S quantises against the current state and updates it with the code just produced, as DEC.N of that
code does; it returns the code (R100, R102, with its example). -/
def Obligations.EncodeSampleQuantisesThenUpdates : Prop :=
  (∀ (s : State) (x : Sample), s.codec.InRange →
    let diff : Int := x.toInt - s.codec.sig.toInt
    let scaled : Int := Int.tdiv (diff * 8) s.codec.step.toNat
    let c : Code := BitVec.ofNat 4 (min (scaled.natAbs / 2) 7 + if scaled < 0 then 8 else 0)
    ∃ t, exec (decodeCode c) s = .next t ∧
      exec (.encS x) s = .next { s with codec := t.codec, result := .code c }) ∧
  (∀ s : State, s.codec = ⟨15, 127⟩ →
    exec (.encS 100) s = .next { s with codec := ⟨94, 127⟩, result := .code 2 })

/-- The decision levels of the quantiser (R101): the magnitude is `min(floor(4a / step), 7)` and the sign
bit is set exactly for a negative difference of at least `step / 8` in size. -/
def Obligations.QuantiserDecisionLevels : Prop :=
  ∀ (s : State) (x : Sample), s.codec.InRange →
    ∃ t c, exec (.encS x) s = .next t ∧ t.result = .code c ∧
      let a := (x.toInt - s.codec.sig.toInt).natAbs
      let st := s.codec.step.toNat
      c.toNat % 8 = min (4 * a / st) 7 ∧
      (8 ≤ c.toNat ↔ x.toInt < s.codec.sig.toInt ∧ st ≤ 8 * a)

/-- ENC.B is ENC.S of the earlier sample, then ENC.S of the later one in the state that left; the byte
has the earlier code in its low nibble (R103, with its example). -/
def Obligations.EncodePairPacksTwoSamples : Prop :=
  (∀ (s : State) (x0 x1 : Sample), ∃ t u c0 c1 b,
    exec (.encS x0) s = .next t ∧ t.result = .code c0 ∧
    exec (.encS x1) t = .next u ∧ u.result = .code c1 ∧
    b.toNat = c0.toNat + 16 * c1.toNat ∧
    exec (.encB x0 x1) s = .next { s with codec := u.codec, result := .byte b }) ∧
  (∀ s : State, s.codec = ⟨0, 127⟩ →
    exec (.encB 0 100) s = .next { s with codec := ⟨94, 127⟩, result := .byte 0x20 })

/-- The encoder tracks the decoder (R108): after ENC.S returned a code, `SIG` and `STEP` are what DEC.N of
that code leaves from the same state, and the decoder emits the encoder's `SIG`. -/
def Obligations.EncoderTracksDecoder : Prop :=
  ∀ (s : State) (x : Sample), ∃ t c u,
    exec (.encS x) s = .next t ∧ t.result = .code c ∧ exec (decodeCode c) s = .next u ∧
    u.codec = t.codec ∧ u.result = .samples [t.codec.sig]

/-- The clamping invariant and the fixed points (R142): a codec operation leaves `STEP` in range from any
state; magnitudes 0 to 3 keep 127, magnitudes 4 to 7 keep 24576; seven times magnitude 7 lead from 127 to
24576 and forty-nine times magnitude 0 lead from 24576 to 127. -/
def Obligations.CodecRangeAndRamps : Prop :=
  (∀ (i : Instr) (s : State), isCodecOp i = true → ∃ t, exec i s = .next t ∧ t.codec.InRange) ∧
  (∀ (c : Code) (s : State), c.toNat % 8 < 4 → s.codec.step = 127 →
    ∃ t, exec (decodeCode c) s = .next t ∧ t.codec.step = 127) ∧
  (∀ (c : Code) (s : State), 4 ≤ c.toNat % 8 → s.codec.step = 24576 →
    ∃ t, exec (decodeCode c) s = .next t ∧ t.codec.step = 24576) ∧
  (∀ s : State, s.codec.step = 127 →
    ∃ t, execAll (List.replicate 7 .decN7) s = .next t ∧ t.codec.step = 24576) ∧
  (∀ s : State, s.codec.step = 24576 →
    ∃ t, execAll (List.replicate 49 .decN0) s = .next t ∧ t.codec.step = 127)

/-- The reconstruction error of one sample (R141, the spec's own derivation): when the magnitude does not
saturate and the clamp of the signal does not act on this sample's own sum (`SIG` plus or minus
`floor(step * (2m + 1) / 8)` lies in -32768..32767), it is less than `step / 8 + 1`, except for a negative
difference smaller than `step / 8`, where it is less than `step / 4`. The clamp of `STEP` does not enter
the error and may act. -/
def Obligations.ReconstructionErrorBound : Prop :=
  ∀ (s : State) (x : Sample), s.codec.InRange →
    let a := (x.toInt - s.codec.sig.toInt).natAbs
    let st := s.codec.step.toNat
    let size : Int := (st * (2 * (4 * a / st) + 1) / 8 : Nat)
    let sum : Int :=
      if x.toInt < s.codec.sig.toInt ∧ st ≤ 8 * a then s.codec.sig.toInt - size
      else s.codec.sig.toInt + size
    4 * a < 7 * st → -32768 ≤ sum → sum ≤ 32767 →
    ∃ t, exec (.encS x) s = .next t ∧
      let e := (x.toInt - t.codec.sig.toInt).natAbs
      if x.toInt < s.codec.sig.toInt ∧ 8 * a < st then 4 * e < st else 8 * e < st + 8

/-! ## The unit commands -/

/-- ENCODE (R224, R104): the bytes in `ADBUF` are what ENC.B returns for the consecutive pairs of
`PCMBUF`, run in order from the state (0, 127). -/
def Obligations.EncodeCommandFoldsEncB : Prop :=
  ∀ (s : State) (xs : List Sample), s.bufv.pcm = true → s.HoldsPcm xs → xs ≠ [] → xs.length % 2 = 0 →
    ∃ u bs b, encBytes (streamStart s) xs = some (u, bs) ∧ bs.length = xs.length / 2 ∧
      b.cells.Holds 0 bs ∧
      exec .encode s = .next { initialisedUnit s with
        codec := u.codec, adbuf := b, adN := BitVec.ofNat 32 (xs.length / 2)
        bufv := { s.bufv with ad := true }, err := 0, status := 0 }

/-- DECODE (R225, R139): the samples in `PCMBUF` are what DEC.B returns for the bytes of `ADBUF`, run in
order from the state (0, 127). -/
def Obligations.DecodeCommandFoldsDecB : Prop :=
  ∀ (s : State) (bs : List Byte), s.bufv.ad = true → s.HoldsAd bs → bs ≠ [] → bs.length < 2 ^ 31 →
    ∃ u ys b, decSamples (streamStart s) bs = some (u, ys) ∧ ys.length = 2 * bs.length ∧
      b.cells.Holds 0 ys ∧
      exec .decode s = .next { initialisedUnit s with
        codec := u.codec, pcmbuf := b, pcmN := BitVec.ofNat 32 (2 * bs.length)
        bufv := { s.bufv with pcm := true }, err := 0, status := 0 }

/-- DEINT (R226, R160): even indices of `PCMBUF` go to `CHL`, odd ones to `CHR`. -/
def Obligations.DeintCommandSplits : Prop :=
  ∀ (s : State) (ls rs : List Sample), s.bufv.pcm = true → ls.length = rs.length →
    s.HoldsPcm (frames ls rs) →
    ∃ b c, b.cells.Holds 0 ls ∧ c.cells.Holds 0 rs ∧
      exec .deint s = .next { initialisedUnit s with
        chl := b, chr := c, chN := BitVec.ofNat 32 ls.length
        bufv := { s.bufv with ch := true }, err := 0, status := 0 }

/-- INTL (R227, R161): `PCMBUF` becomes the samples of `CHL` and `CHR`, left first. -/
def Obligations.IntlCommandJoins : Prop :=
  ∀ (s : State) (ls rs : List Sample), s.bufv.ch = true → s.HoldsChannels ls rs → ls.length < 2 ^ 31 →
    ∃ b, b.cells.Holds 0 (frames ls rs) ∧
      exec .intl s = .next { initialisedUnit s with
        pcmbuf := b, pcmN := BitVec.ofNat 32 (2 * ls.length)
        bufv := { s.bufv with pcm := true }, err := 0, status := 0 }

/-- Where the unit commands refuse (R224 to R227, U1, U2, U3, U8, U9). -/
def Obligations.UnitCommandRefusals : Prop :=
  ∀ s : State,
    (s.bufv.pcm = false →
      exec .encode s = .refused .bufferInvalid ∧ exec .deint s = .refused .bufferInvalid) ∧
    (s.bufv.ad = false → exec .decode s = .refused .bufferInvalid) ∧
    (s.bufv.ch = false → exec .intl s = .refused .bufferInvalid) ∧
    (s.bufv.pcm = true → s.pcmN = 0 → exec .encode s = .refused .emptyStream) ∧
    (s.bufv.pcm = true → s.pcmN.toNat % 2 = 1 →
      exec .encode s = .refused .oddSampleCount ∧ exec .deint s = .refused .oddInterleaved) ∧
    (s.bufv.ad = true → s.adN = 0 → exec .decode s = .refused .emptyStream) ∧
    (s.bufv.ad = true → 2 ^ 31 ≤ s.adN.toNat → exec .decode s = .refused .lengthTooLarge) ∧
    (s.bufv.ch = true → 2 ^ 31 ≤ s.chN.toNat → exec .intl s = .refused .lengthTooLarge)

/-- The inverse laws (R162), through the commands: DEINT then INTL gives `PCMBUF` back, INTL then DEINT
gives `CHL` and `CHR` back. -/
def Obligations.StereoTransformInverse : Prop :=
  (∀ (s : State) (xs : List Sample), s.bufv.pcm = true → s.HoldsPcm xs → xs.length % 2 = 0 →
    ∃ t u, exec .deint s = .next t ∧ exec .intl t = .next u ∧ u.HoldsPcm xs) ∧
  (∀ (s : State) (ls rs : List Sample), s.bufv.ch = true → s.HoldsChannels ls rs →
    ls.length < 2 ^ 31 →
    ∃ t u, exec .intl s = .next t ∧ exec .deint t = .next u ∧ u.HoldsChannels ls rs)

/-- Duality (R140): DECODE after ENCODE gives, for each sample, the value of `SIG` right after its ENC.S,
and both end in the same `SIG` and `STEP`. -/
def Obligations.DecodeEncodeDuality : Prop :=
  ∀ (s : State) (xs : List Sample), s.bufv.pcm = true → s.HoldsPcm xs → xs ≠ [] → xs.length % 2 = 0 →
    ∃ t u ys, exec .encode s = .next t ∧ exec .decode t = .next u ∧
      encSignals (streamStart s) xs = some ys ∧ u.HoldsPcm ys ∧ u.codec = t.codec

/-- USAGE (R223, R246, with its example): every byte of `CMD` that is none of the six of R82 selects it,
and it does the initialisation and the abort, nothing else; the buffers and their valid bits are not
touched. -/
def Obligations.UsageAborts : Prop :=
  (∀ c : Byte, c ≠ 0x74 → c ≠ 0x66 → c ≠ 0x01 → c ≠ 0x02 → c ≠ 0x03 → c ≠ 0x04 →
    decode .command [c] = .ok (.usage c)) ∧
  ∀ (s : State) (c : Byte),
    exec (.usage c) s = .next { initialisedUnit s with err := 6, status := 0xFFFFFFFF }

/-! ## The reader -/

/-- A conversion without an input file raises FileNotFound before anything is read (R241). -/
def Obligations.ConversionsNeedInput : Prop :=
  ∀ s : State, s.inPresent = false →
    exec .convT s = .next (abortedConv (initialisedConv s) 1) ∧
    exec .convF s = .next (abortedConv (initialisedConv s) 1)

/-- RD.RIFF (R173): the three checks in order, then totalSize captured and the cursor on offset 12. An
abort of the step presented on its own is that of a conversion (R240, R250): the model's choice, log
entry 3. -/
def Obligations.RdRiffChecksPreamble : Prop :=
  ∀ s : State,
    (s.inLen.toNat < 12 → exec .rdRiff s = .next (abortedConv s 4)) ∧
    (12 ≤ s.inLen.toNat →
      (s.memRead 0 4 ≠ [0x52, 0x49, 0x46, 0x46] ∨ s.memRead 8 4 ≠ [0x57, 0x41, 0x56, 0x45] →
        exec .rdRiff s = .next (abortedConv s 2)) ∧
      (s.memRead 0 4 = [0x52, 0x49, 0x46, 0x46] → s.memRead 8 4 = [0x57, 0x41, 0x56, 0x45] →
        exec .rdRiff s = .next { s with cr := { s.cr with totalSize := s.rd32 4 }, pos := 12 }))

/-- RD.HDR accepts a header that passes every check, whatever `CHECK_DATA_TAG` is, and captures its nine
fields (R170). That the step can be presented on its own is the model's choice, log entry 3. -/
def Obligations.RdHdrAccepts : Prop :=
  ∀ s : State, 44 ≤ s.inLen.toNat →
    s.memRead 0 4 = [0x52, 0x49, 0x46, 0x46] → s.memRead 8 4 = [0x57, 0x41, 0x56, 0x45] →
    s.memRead 12 4 = [0x66, 0x6D, 0x74, 0x20] → s.rd32 16 = 16 → s.rd16 20 = 20 →
    s.rd16 22 = 1 ∨ s.rd16 22 = 2 → s.rd16 34 = 4 →
    s.memRead 36 4 = [0x64, 0x61, 0x74, 0x61] →
    exec .rdHdr s = .next { s with cr :=
      { totalSize := s.rd32 4, fmtSize := 16, format := 20, channels := s.rd16 22, rate := s.rd32 24
        byteRate := s.rd32 28, blockAlign := s.rd16 32, bits := 4, dataSize := s.rd32 40 } }

/-- RD.HDR makes its checks in the order of R171, and an abort keeps what was captured before it (R249,
R252); the `"data"` tag counts only when the open parameter `CHECK_DATA_TAG` says so (D19). That an
abort of the step presented on its own is that of a conversion (R240, R250) is the model's choice, log
entry 3. -/
def Obligations.RdHdrRejectsInOrder : Prop :=
  ∀ s : State,
    let c2 : ContainerRec := { s.cr with totalSize := s.rd32 4, fmtSize := s.rd32 16 }
    let c3 : ContainerRec := { c2 with format := s.rd16 20 }
    let c4 : ContainerRec := { c3 with channels := s.rd16 22 }
    let c5 : ContainerRec := { c4 with
      rate := s.rd32 24, byteRate := s.rd32 28, blockAlign := s.rd16 32, bits := s.rd16 34 }
    (s.inLen.toNat < 44 → exec .rdHdr s = .next (abortedConv s 4)) ∧
    (44 ≤ s.inLen.toNat →
      (s.memRead 0 4 ≠ [0x52, 0x49, 0x46, 0x46] ∨ s.memRead 8 4 ≠ [0x57, 0x41, 0x56, 0x45] →
        exec .rdHdr s = .next (abortedConv s 2)) ∧
      (s.memRead 0 4 = [0x52, 0x49, 0x46, 0x46] → s.memRead 8 4 = [0x57, 0x41, 0x56, 0x45] →
        (s.memRead 12 4 ≠ [0x66, 0x6D, 0x74, 0x20] → exec .rdHdr s = .next (abortedConv s 3)) ∧
        (s.memRead 12 4 = [0x66, 0x6D, 0x74, 0x20] →
          (s.rd32 16 ≠ 16 → exec .rdHdr s = .next (abortedConv { s with cr := c2 } 3)) ∧
          (s.rd32 16 = 16 → s.rd16 20 ≠ 20 →
            exec .rdHdr s = .next (abortedConv { s with cr := c3 } 3)) ∧
          (s.rd32 16 = 16 → s.rd16 20 = 20 → s.rd16 22 ≠ 1 → s.rd16 22 ≠ 2 →
            exec .rdHdr s = .next (abortedConv { s with cr := c4 } 3)) ∧
          (s.rd32 16 = 16 → s.rd16 20 = 20 → s.rd16 22 = 1 ∨ s.rd16 22 = 2 →
            (s.rd16 34 ≠ 4 → exec .rdHdr s = .next (abortedConv { s with cr := c5 } 3)) ∧
            (s.rd16 34 = 4 → s.memRead 36 4 ≠ [0x64, 0x61, 0x74, 0x61] →
              exec .rdHdr s = if Config.checkDataTag then .next (abortedConv { s with cr := c5 } 3)
                else .next { s with cr := { c5 with dataSize := s.rd32 40 } })))))

/-- RD.PAYLOAD (R172): the declared bytes at 44 into `ADBUF`, or IoFailure when the file is shorter. That
an abort of the step presented on its own is that of a conversion (R250) is the model's choice, log
entry 3. -/
def Obligations.RdPayloadLoadsAdbuf : Prop :=
  ∀ s : State,
    (s.inLen.toNat < 44 + s.cr.dataSize.toNat → exec .rdPayload s = .next (abortedConv s 5)) ∧
    (44 + s.cr.dataSize.toNat ≤ s.inLen.toNat → ∃ b,
      b.cells.Holds 0 (s.memRead 44 s.cr.dataSize.toNat) ∧
      exec .rdPayload s = .next { s with adbuf := b, adN := s.cr.dataSize })

/-- CK.FMT (R175): the checks in order; the six fields and the length are captured before the format tag
and the channel count are tested; `FMT_SEEN` is set on acceptance only. That an abort of the step presented on its own is that
of a conversion (R250) is the model's choice, log entry 3. -/
def Obligations.CkFmtCapturesFormat : Prop :=
  ∀ (s : State) (len : U32),
    let p := s.pos + 8
    let c : ContainerRec := { s.cr with
      fmtSize := len, format := s.rd16 p, channels := s.rd16 (p + 2), rate := s.rd32 (p + 4)
      byteRate := s.rd32 (p + 8), blockAlign := s.rd16 (p + 12), bits := s.rd16 (p + 14) }
    (s.flags.fmtSeen = true ∨ len.toNat < 16 → exec (.ckFmt len) s = .next (abortedConv s 3)) ∧
    (s.flags.fmtSeen = false → 16 ≤ len.toNat →
      (s.inLen.toNat < s.pos + 24 → exec (.ckFmt len) s = .next (abortedConv s 4)) ∧
      (s.pos + 24 ≤ s.inLen.toNat →
        (s.rd16 p ≠ 1 ∨ (s.rd16 (p + 2) ≠ 1 ∧ s.rd16 (p + 2) ≠ 2) →
          exec (.ckFmt len) s = .next (abortedConv { s with cr := c } 3)) ∧
        (s.rd16 p = 1 → s.rd16 (p + 2) = 1 ∨ s.rd16 (p + 2) = 2 →
          exec (.ckFmt len) s =
            .next { s with cr := c, flags := { s.flags with fmtSeen := true } })))

/-- CK.DATA (R176, R53): the checks in order; then `len div 2` little-endian samples from `POS + 8` into
`PCMBUF`. That an abort of the step presented on its own is that of a conversion (R250) is the model's
choice, log entry 3. -/
def Obligations.CkDataLoadsSamples : Prop :=
  ∀ (s : State) (len : U32),
    (s.flags.fmtSeen = false ∨ s.flags.dataSeen = true ∨ s.cr.blockAlign ≠ 2 →
      exec (.ckData len) s = .next (abortedConv s 3)) ∧
    (s.flags.fmtSeen = true → s.flags.dataSeen = false → s.cr.blockAlign = 2 →
      (s.inLen.toNat < s.pos + 8 + len.toNat → exec (.ckData len) s = .next (abortedConv s 5)) ∧
      (s.pos + 8 + len.toNat ≤ s.inLen.toNat → ∃ b,
        (∀ i, i < len.toNat / 2 → b.cells.get? i = some (s.rd16 (s.pos + 8 + 2 * i))) ∧
        exec (.ckData len) s = .next { s with
          cr := { s.cr with dataSize := len }, pcmN := BitVec.ofNat 32 (len.toNat / 2), pcmbuf := b
          flags := { s.flags with dataSeen := true } }))

/-- CK.SMPL (R177, R179, R181): the loop record from payload offsets 40, 44 and 48, whatever `len` says;
each bound clamped on its own, unsigned and strict, against `L = CR.DATASIZE div 2`. That an abort of the
step presented on its own is that of a conversion (R250) is the model's choice, log entry 3. -/
def Obligations.CkSmplCapturesLoop : Prop :=
  ∀ (s : State) (len : U32),
    (s.inLen.toNat < s.pos + 68 → exec (.ckSmpl len) s = .next (abortedConv s 4)) ∧
    (s.pos + 68 ≤ s.inLen.toNat →
      let type := s.rd32 (s.pos + 48)
      let start := s.rd32 (s.pos + 52)
      let stop := s.rd32 (s.pos + 56)
      let l := s.cr.dataSize.toNat / 2
      exec (.ckSmpl len) s = .next { s with
        lr := ⟨type, if l < start.toNat then 0 else start,
          if l < stop.toNat then BitVec.ofNat 32 l else stop⟩
        flags := { s.flags with
          smplSeen := true
          loopEnabled := decide (type = 0 ∧ 0 < stop.toNat)
          loopEndNz := decide (stop ≠ 0) } })

/-- CK.SKIP does nothing, for every id and length (R178). That the step can be presented on its own is the
model's choice, log entry 3. -/
def Obligations.CkSkipDoesNothing : Prop :=
  ∀ (s : State) (id len : U32), exec (.ckSkip id len) s = .next s

/-- WALK.END (R180): no payload raises TruncatedHeader; an accepted loop is kept; otherwise the bounds
default to the full sample range with looping disabled. That an abort of the step presented on its own is
that of a conversion (R250) is the model's choice, log entry 3. -/
def Obligations.WalkEndSetsLoopDefaults : Prop :=
  ∀ s : State,
    (s.flags.dataSeen = false → exec .walkEnd s = .next (abortedConv s 4)) ∧
    (s.flags.dataSeen = true → s.flags.smplSeen = true ∧ s.flags.loopEndNz = true →
      exec .walkEnd s = .next s) ∧
    (s.flags.dataSeen = true → s.flags.smplSeen = false ∨ s.flags.loopEndNz = false →
      exec .walkEnd s = .next { s with
        flags := { s.flags with loopEnabled := false }
        lr := { s.lr with start := 0, stop := BitVec.ofNat 32 (s.cr.dataSize.toNat / 2) } })

/-- One turn of WALK (R174), from any state: the normal end, the cut chunk header, and for each chunk
kind the seek by `8 + len`, the early end at `smpl`, and the abort of the chunk's own operation. The normal
end at or beyond the end of the file, the cut header and the seek without a pad byte are the spec's own
choices D9 and D10 (log entry 14); that WALK can be presented on its own, and then aborts as a conversion,
is the model's choice, log entry 3. -/
def Obligations.WalkTurns : Prop :=
  ∀ s : State,
    let id := s.rd32 s.pos
    let len := s.rd32 (s.pos + 4)
    (s.inLen.toNat ≤ s.pos → exec .walk s = exec .walkEnd s) ∧
    (s.pos < s.inLen.toNat → s.inLen.toNat < s.pos + 8 → exec .walk s = .next (abortedConv s 4)) ∧
    (s.pos + 8 ≤ s.inLen.toNat →
      (id ≠ 0x20746D66 → id ≠ 0x61746164 → id ≠ 0x6C706D73 →
        exec .walk s = exec .walk { s with pos := s.pos + 8 + len.toNat }) ∧
      (id = 0x20746D66 →
        (∀ t, chunkFmt len s = .go t →
          exec .walk s = exec .walk { t with pos := s.pos + 8 + len.toNat }) ∧
        (∀ k t, chunkFmt len s = .raise k t → exec .walk s = exec (.ckFmt len) s)) ∧
      (id = 0x61746164 →
        (∀ t, chunkData len s = .go t →
          exec .walk s = exec .walk { t with pos := s.pos + 8 + len.toNat }) ∧
        (∀ k t, chunkData len s = .raise k t → exec .walk s = exec (.ckData len) s)) ∧
      (id = 0x6C706D73 →
        (∀ t, chunkSmpl len s = .go t → exec .walk s = exec .walkEnd t) ∧
        (∀ k t, chunkSmpl len s = .raise k t → exec .walk s = exec (.ckSmpl len) s)))

/-- WALK completes on a last `data` chunk that fills the file, with the format seen and no loop chunk
(R174, R176, R180). That WALK can be presented on its own is the model's choice, log entry 3. -/
def Obligations.WalkCompletesOnLastData : Prop :=
  ∀ s : State, s.flags.fmtSeen = true → s.flags.dataSeen = false → s.flags.smplSeen = false →
    s.cr.blockAlign = 2 → s.rd32 s.pos = 0x61746164 →
    s.pos + 8 + (s.rd32 (s.pos + 4)).toNat = s.inLen.toNat →
    let len := s.rd32 (s.pos + 4)
    ∃ b, (∀ i, i < len.toNat / 2 → b.cells.get? i = some (s.rd16 (s.pos + 8 + 2 * i))) ∧
      exec .walk s = .next { s with
        cr := { s.cr with dataSize := len }, pcmN := BitVec.ofNat 32 (len.toNat / 2), pcmbuf := b
        flags := { s.flags with dataSeen := true, loopEnabled := false }
        lr := { s.lr with start := 0, stop := BitVec.ofNat 32 (len.toNat / 2) }
        pos := s.inLen.toNat }

/-! ## The writer -/

/-- Each writer step emits its bytes at `OUT_LEN`, when they fit below `OUT_CAP`, and writes no other byte
of `OUT` (R200, R201, R202, R204, R205). That a step can be presented on its own is the model's choice,
log entry 3; the block alignment of WR.HDR.P for a channel count that is neither 1 nor 2 is log
entry 16. -/
def Obligations.WriterEmitsItsBytes : Prop :=
  ∀ (i : Instr) (s s' : State) (bs : List Byte), writes i s = some (s', bs) →
    s.outLen.toNat + bs.length ≤ s.outCap.toNat →
    ∃ t, exec i s = .next t ∧ Emitted s' t bs

/-- Capacity (R206): when the bytes do not fit, those below `OUT_CAP` are written, `OUT_LEN` becomes
`OUT_CAP`, and the step raises IoFailure. That an abort of the step presented on its own is that of a
conversion (R250) is the model's choice, log entry 3. -/
def Obligations.WriterStopsAtCapacity : Prop :=
  ∀ (i : Instr) (s s' : State) (bs : List Byte), writes i s = some (s', bs) →
    s.outLen.toNat ≤ s.outCap.toNat → s.outCap.toNat < s.outLen.toNat + bs.length →
    ∃ m : Memory Byte,
      exec i s = .next (abortedConv { s' with output := m, outLen := s.outCap } 5) ∧
      ∀ a, m.get? a =
        if s.outLen.toNat ≤ a ∧ a < s.outCap.toNat then bs[a - s.outLen.toNat]?
        else s.output.get? a

/-! ## The conversions -/

/-- CONV.T of a mono file of the fixed form (R221, R231): the output is the ADPCM header and the bytes of
`encode`. `BASE` of 95_test_vectors.md section 4 is such a file. -/
def Obligations.ConvTMonoFile : Prop :=
  ∀ (s : State) (xs : List Sample) (total rate byteRate : U32) (bits : U16),
    xs ≠ [] → xs.length % 2 = 0 →
    s.HoldsInput (fixedHeader total 1 1 rate byteRate 2 bits (BitVec.ofNat 32 (2 * xs.length)) ++
      payload xs) →
    44 + xs.length / 2 ≤ s.outCap.toNat →
    ∃ t u bs, exec .convT s = .next t ∧ encBytes (streamStart s) xs = some (u, bs) ∧
      t.HoldsOutput (fixedHeader (BitVec.ofNat 32 (xs.length / 2 + 36)) 20 1 rate byteRate 2 4
        (BitVec.ofNat 32 (xs.length / 2)) ++ bs) ∧
      t.outValid = true ∧ t.err = 0 ∧ t.status = 0 ∧ t.bufv = {} ∧ t.codec = u.codec ∧
      t.pos = 44 + 2 * xs.length ∧ t.flags = { fmtSeen := true, dataSeen := true } ∧
      t.lr = ⟨0, 0, BitVec.ofNat 32 xs.length⟩

/-- CONV.T of a two-channel file of the fixed form with block alignment 2 (R221, R231, R85): left stream,
then right stream, each coded from (0, 127). -/
def Obligations.ConvTStereoFile : Prop :=
  ∀ (s : State) (ls rs : List Sample) (total rate byteRate : U32) (bits : U16),
    ls ≠ [] → ls.length % 2 = 0 → rs.length = ls.length →
    s.HoldsInput (fixedHeader total 1 2 rate byteRate 2 bits (BitVec.ofNat 32 (4 * ls.length)) ++
      payload (frames ls rs)) →
    44 + ls.length ≤ s.outCap.toNat →
    ∃ t u v left right, exec .convT s = .next t ∧
      encBytes (streamStart s) ls = some (u, left) ∧ encBytes (streamStart s) rs = some (v, right) ∧
      t.HoldsOutput (fixedHeader (BitVec.ofNat 32 (ls.length + 36)) 20 2 rate byteRate 2 4
        (BitVec.ofNat 32 ls.length) ++ left ++ right) ∧
      t.outValid = true ∧ t.err = 0 ∧ t.status = 0 ∧ t.bufv = {} ∧ t.codec = v.codec

/-- CONV.T of a mono file with a loop chunk after the payload (R177, R179, R203): the loop chunk is written
after the encoded bytes, with the clamped bounds and the type as read, exactly when its end was not 0. -/
def Obligations.ConvTLoopChunk : Prop :=
  ∀ (s : State) (xs : List Sample) (total rate byteRate type start stop : U32) (bits : U16),
    xs ≠ [] → xs.length % 2 = 0 →
    s.HoldsInput (fixedHeader total 1 1 rate byteRate 2 bits (BitVec.ofNat 32 (2 * xs.length)) ++
      payload xs ++ loopChunk type start stop) →
    44 + xs.length / 2 + 68 ≤ s.outCap.toNat →
    ∃ t u bs, exec .convT s = .next t ∧ encBytes (streamStart s) xs = some (u, bs) ∧
      t.HoldsOutput (fixedHeader (BitVec.ofNat 32 (xs.length / 2 + 36)) 20 1 rate byteRate 2 4
          (BitVec.ofNat 32 (xs.length / 2)) ++ bs ++
        (if stop = 0 then [] else
          loopChunk type (if xs.length < start.toNat then 0 else start)
            (if xs.length < stop.toNat then BitVec.ofNat 32 xs.length else stop))) ∧
      t.outValid = true ∧ t.err = 0 ∧
      t.flags = { fmtSeen := true, dataSeen := true, smplSeen := true
                  loopEnabled := decide (type = 0 ∧ stop ≠ 0), loopEndNz := decide (stop ≠ 0) }

/-- CONV.F of a mono ADPCM file, with any bytes after the payload (R222, R231): the output is the PCM header
and the samples of `decode`. -/
def Obligations.ConvFMonoFile : Prop :=
  ∀ (s : State) (es extra : List Byte) (total rate byteRate : U32) (align : U16),
    es ≠ [] → 4 * es.length + 44 < 2 ^ 32 →
    s.HoldsInput (fixedHeader total 20 1 rate byteRate align 4 (BitVec.ofNat 32 es.length) ++ es ++
      extra) →
    44 + 4 * es.length ≤ s.outCap.toNat →
    ∃ t u ys, exec .convF s = .next t ∧ decSamples (streamStart s) es = some (u, ys) ∧
      t.HoldsOutput (fixedHeader (BitVec.ofNat 32 (4 * es.length + 36)) 1 1 rate
        (BitVec.ofNat 32 (rate.toNat * 2)) 2 16 (BitVec.ofNat 32 (4 * es.length)) ++ payload ys) ∧
      t.outValid = true ∧ t.err = 0 ∧ t.status = 0 ∧ t.bufv = {} ∧ t.codec = u.codec ∧
      t.pos = 0 ∧ t.flags = {} ∧ t.lr = {}

/-- CONV.F of a two-channel ADPCM file (R222, R231): each half decoded from (0, 127), then interleaved. -/
def Obligations.ConvFStereoFile : Prop :=
  ∀ (s : State) (left right extra : List Byte) (total rate byteRate : U32) (align : U16),
    left ≠ [] → right.length = left.length → 8 * left.length + 44 < 2 ^ 32 →
    s.HoldsInput (fixedHeader total 20 2 rate byteRate align 4 (BitVec.ofNat 32 (2 * left.length)) ++
      left ++ right ++ extra) →
    44 + 8 * left.length ≤ s.outCap.toNat →
    ∃ t u v ls rs, exec .convF s = .next t ∧ decSamples (streamStart s) left = some (u, ls) ∧
      decSamples (streamStart s) right = some (v, rs) ∧
      t.HoldsOutput (fixedHeader (BitVec.ofNat 32 (8 * left.length + 36)) 1 2 rate
        (BitVec.ofNat 32 (rate.toNat * 4)) 4 16 (BitVec.ofNat 32 (8 * left.length)) ++
          payload (frames ls rs)) ∧
      t.outValid = true ∧ t.err = 0 ∧ t.status = 0 ∧ t.bufv = {} ∧ t.codec = v.codec

/-- The round trip of a mono file (R231): CONV.F of the file CONV.T wrote gives `decode(encode(xs))`. -/
def Obligations.ConvRoundTripMono : Prop :=
  ∀ (s t v : State) (xs : List Sample) (file : List Byte) (total rate byteRate : U32) (bits : U16),
    xs ≠ [] → xs.length % 2 = 0 → 44 + 2 * xs.length < 2 ^ 32 →
    s.HoldsInput (fixedHeader total 1 1 rate byteRate 2 bits (BitVec.ofNat 32 (2 * xs.length)) ++
      payload xs) →
    44 + xs.length / 2 ≤ s.outCap.toNat →
    exec .convT s = .next t → t.HoldsOutput file → v.HoldsInput file →
    44 + 2 * xs.length ≤ v.outCap.toNat →
    ∃ w u bs u' ys, exec .convF v = .next w ∧ encBytes (streamStart s) xs = some (u, bs) ∧
      decSamples (streamStart v) bs = some (u', ys) ∧ w.outValid = true ∧
      w.outLen.toNat = 44 + 2 * xs.length ∧ w.output.Holds 44 (payload ys)

/-- The codec and writer part of CONV.T behind any accepted container (R221, R230, R231, R203): for the
samples the reader left in `PCMBUF`, the payload of the output is `encode` of them, mono, or of the left and
then the right samples, stereo. -/
def Obligations.ConvTPayloadIsEncoded : Prop :=
  ∀ (s r : State), s.inPresent = true → pcmReader (initialisedConv s) = .go r →
    44 + r.cr.dataSize.toNat / 4 + 68 ≤ s.outCap.toNat → r.cr.dataSize ≠ 0 →
    (∀ xs, r.cr.channels = 1 → r.cr.dataSize.toNat % 4 = 0 → r.HoldsPcm xs →
      ∃ t u bs, exec .convT s = .next t ∧ encBytes (streamStart s) xs = some (u, bs) ∧
        t.outValid = true ∧ t.err = 0 ∧ t.output.Holds 44 bs ∧
        bs.length = r.cr.dataSize.toNat / 4 ∧ t.codec = u.codec ∧
        t.outLen.toNat = 44 + bs.length + (if r.flags.smplSeen ∧ r.flags.loopEndNz then 68 else 0)) ∧
    (∀ ls rs, r.cr.channels ≠ 1 → r.cr.dataSize.toNat % 8 = 0 → ls.length = rs.length →
      r.HoldsPcm (frames ls rs) →
      ∃ t u v left right, exec .convT s = .next t ∧ encBytes (streamStart s) ls = some (u, left) ∧
        encBytes (streamStart s) rs = some (v, right) ∧
        t.outValid = true ∧ t.err = 0 ∧ t.output.Holds 44 (left ++ right) ∧
        (left ++ right).length = r.cr.dataSize.toNat / 4 ∧ t.codec = v.codec ∧
        t.outLen.toNat = 44 + (left ++ right).length +
          (if r.flags.smplSeen ∧ r.flags.loopEndNz then 68 else 0))

/-- Where the conversions refuse, after the reader and before the writer (R230, U4 to U7). -/
def Obligations.ConversionRefusals : Prop :=
  (∀ s r : State, s.inPresent = true → pcmReader (initialisedConv s) = .go r →
    (r.cr.dataSize = 0 → exec .convT s = .refused .emptyPayload) ∧
    (r.cr.channels = 1 → r.cr.dataSize.toNat % 4 ≠ 0 → exec .convT s = .refused .payloadNotMultiple) ∧
    (r.cr.channels ≠ 1 → r.cr.dataSize.toNat % 8 ≠ 0 →
      exec .convT s = .refused .payloadNotMultiple)) ∧
  (∀ s r : State, s.inPresent = true →
    (readHeader Config.checkDataTag (initialisedConv s)).andThen readPayload = .go r →
    (2 ^ 32 ≤ 4 * r.adN.toNat + 44 → exec .convF s = .refused .outputTooLarge) ∧
    (r.adN = 0 → exec .convF s = .refused .emptyPayload) ∧
    (r.cr.channels ≠ 1 → 4 * r.adN.toNat + 44 < 2 ^ 32 → r.adN.toNat % 2 = 1 →
      exec .convF s = .refused .oddStereoPayload))

/-! ## Rules about the whole machine -/

/-- Conversions do not depend on what came before (R232): two states with the same `IN`, `IN_LEN`,
`IN_PRESENT` and `OUT_CAP` refuse alike or end with the same report and the same output bytes, and, where
the conversion got as far as the codec, with the same `SIG` and `STEP`, whether or not the writer then had
room. -/
def Obligations.ConversionsForgetThePast : Prop :=
  ∀ (i : Instr) (s s' : State), i = .convT ∨ i = .convF →
    s.input = s'.input → s.inLen = s'.inLen → s.inPresent = s'.inPresent → s.outCap = s'.outCap →
    (∃ r, exec i s = .refused r ∧ exec i s' = .refused r) ∨
    (∃ t t', exec i s = .next t ∧ exec i s' = .next t' ∧ SameReport t t' ∧
      (ReachesCodec i s → t.codec = t'.codec))

/-- The result of a unit command depends on its input buffer, its length and its valid bit only (R232). -/
def Obligations.UnitCommandsReadTheirInputOnly : Prop :=
  ∀ s s' : State,
    (s.bufv.pcm = s'.bufv.pcm → s.pcmN = s'.pcmN → s.pcmbuf = s'.pcmbuf →
      ((∃ r, exec .encode s = .refused r ∧ exec .encode s' = .refused r) ∨
        (∃ t t', exec .encode s = .next t ∧ exec .encode s' = .next t' ∧ t.codec = t'.codec ∧
          t.adN = t'.adN ∧ t.adbuf.cells = t'.adbuf.cells)) ∧
      ((∃ r, exec .deint s = .refused r ∧ exec .deint s' = .refused r) ∨
        (∃ t t', exec .deint s = .next t ∧ exec .deint s' = .next t' ∧ t.chN = t'.chN ∧
          t.chl.cells = t'.chl.cells ∧ t.chr.cells = t'.chr.cells))) ∧
    (s.bufv.ad = s'.bufv.ad → s.adN = s'.adN → s.adbuf = s'.adbuf →
      (∃ r, exec .decode s = .refused r ∧ exec .decode s' = .refused r) ∨
      (∃ t t', exec .decode s = .next t ∧ exec .decode s' = .next t' ∧ t.codec = t'.codec ∧
        t.pcmN = t'.pcmN ∧ t.pcmbuf.cells = t'.pcmbuf.cells)) ∧
    (s.bufv.ch = s'.bufv.ch → s.chN = s'.chN → s.chl = s'.chl → s.chr = s'.chr →
      (∃ r, exec .intl s = .refused r ∧ exec .intl s' = .refused r) ∨
      (∃ t t', exec .intl s = .next t ∧ exec .intl s' = .next t' ∧ t.pcmN = t'.pcmN ∧
        t.pcmbuf.cells = t'.pcmbuf.cells))

/-- No step writes what only the host writes: `CMD`, `IN_PRESENT`, `IN_LEN`, `OUT_CAP` and the bytes of
`IN` (R20 table "never", R32, R37, R58). -/
def Obligations.StepNeverWritesHostState : Prop :=
  ∀ s t : State, step s = .next t →
    t.cmd = s.cmd ∧ t.inPresent = s.inPresent ∧ t.inLen = s.inLen ∧ t.outCap = s.outCap ∧
    t.input = s.input

/-- "`OUT` is written only by conversion commands" (R37), here by them and by the writer steps they run;
only the codec operations and the commands that run a stream write `SIG` and `STEP` (R21, R252). The
model's own fields: only a codec operation sets `result` (log entry 2), and no instruction presents
another one or reads `CMD` (log entries 1 and 8). -/
def Obligations.OnlyWritersTouchOutAndCodec : Prop :=
  ∀ (i : Instr) (s t : State), exec i s = .next t →
    (i ≠ .convT → i ≠ .convF → isWriterOp i = false → t.output = s.output) ∧
    (i ≠ .convT → i ≠ .convF → i ≠ .encode → i ≠ .decode → isCodecOp i = false →
      t.codec = s.codec) ∧
    (isCodecOp i = false → t.result = s.result) ∧
    t.issue = s.issue ∧ t.cmdReads = s.cmdReads

/-- How a conversion ends (R228, R250, R207, R253, R41): success commits the output and invalidates the
buffers, with one or two channels and, for CONV.T, loop bounds within the sample length, which is twice
the encoded size; an abort reports the error, offers no output and, unless it is IoFailure, leaves `OUT`
as it was; either way the bytes of `OUT` at and above `OUT_LEN` keep what they held. That last clause is
the model's choice between R207, which says so, and U15, which calls those bytes any value: log
entry 7. -/
def Obligations.ConversionOutcomes : Prop :=
  ∀ (i : Instr) (s t : State), i = .convT ∨ i = .convF → exec i s = .next t →
    ((t.err = 0 ∧ t.status = 0 ∧ t.outValid = true ∧ t.bufv = {} ∧
        (t.cr.channels = 1 ∨ t.cr.channels = 2) ∧
        (i = .convT → t.lr.start.toNat ≤ 2 * t.cr.dataSize.toNat ∧
          t.lr.stop.toNat ≤ 2 * t.cr.dataSize.toNat)) ∨
      (t.Aborted ∧ (t.err ≠ 5 → t.output = s.output ∧ t.outLen = 0))) ∧
    (∀ a, t.outLen.toNat ≤ a → t.output.get? a = s.output.get? a)
end

