-- ==== Sys2Proof/Laws/Bytes.lean ====
section
/-!
SUPPORT. Byte order: what the assembled fields are as numbers (R9), and that splitting and assembling
are inverse.
-/

namespace Sys2Proof

@[simp] theorem le16_toNat (b0 b1 : Byte) : (le16 b0 b1).toNat = b0.toNat + 256 * b1.toNat := by
  simp only [le16, BitVec.toNat_append]
  rw [← Nat.shiftLeft_add_eq_or_of_lt (by omega), Nat.shiftLeft_eq]; omega

@[simp] theorem le32_toNat (b0 b1 b2 b3 : Byte) : (le32 b0 b1 b2 b3).toNat =
    b0.toNat + 2 ^ 8 * b1.toNat + 2 ^ 16 * b2.toNat + 2 ^ 24 * b3.toNat := by
  simp only [le32, BitVec.toNat_append]
  rw [← Nat.shiftLeft_add_eq_or_of_lt (by omega), ← Nat.shiftLeft_add_eq_or_of_lt (by omega),
    ← Nat.shiftLeft_add_eq_or_of_lt (by omega)]
  simp only [Nat.shiftLeft_eq]; omega

theorem le16_split (v : U16) : le16 (v.extractLsb' 0 8) (v.extractLsb' 8 8) = v := by
  apply BitVec.eq_of_toNat_eq
  rw [le16_toNat]
  simp only [BitVec.extractLsb'_toNat, Nat.shiftRight_eq_div_pow]
  omega

theorem le32_split (v : U32) :
    le32 (v.extractLsb' 0 8) (v.extractLsb' 8 8) (v.extractLsb' 16 8) (v.extractLsb' 24 8) = v := by
  apply BitVec.eq_of_toNat_eq
  rw [le32_toNat]
  simp only [BitVec.extractLsb'_toNat, Nat.shiftRight_eq_div_pow]
  omega

theorem split_le16 (b0 b1 : Byte) : u16bytes (le16 b0 b1) = [b0, b1] := by
  simp only [u16bytes, List.cons.injEq, and_true]
  constructor <;> apply BitVec.eq_of_toNat_eq <;>
    simp only [BitVec.extractLsb'_toNat, le16_toNat, Nat.shiftRight_eq_div_pow] <;> omega

theorem split_le32 (b0 b1 b2 b3 : Byte) : u32bytes (le32 b0 b1 b2 b3) = [b0, b1, b2, b3] := by
  simp only [u32bytes, List.cons.injEq, and_true]
  refine ⟨?_, ?_, ?_, ?_⟩ <;> apply BitVec.eq_of_toNat_eq <;>
    simp only [BitVec.extractLsb'_toNat, le32_toNat, Nat.shiftRight_eq_div_pow] <;> omega

@[simp] theorem u16bytes_length (v : U16) : (u16bytes v).length = 2 := rfl
@[simp] theorem u32bytes_length (v : U32) : (u32bytes v).length = 4 := rfl

@[simp] theorem packCodes_toNat (lo hi : Code) :
    (packCodes lo hi).toNat = lo.toNat + 16 * hi.toNat := by
  simp only [packCodes, BitVec.toNat_append]
  rw [← Nat.shiftLeft_add_eq_or_of_lt (by omega), Nat.shiftLeft_eq]; omega

@[simp] theorem lowCode_toNat (b : Byte) : (lowCode b).toNat = b.toNat % 16 := by
  simp [lowCode, BitVec.extractLsb'_toNat]

@[simp] theorem highCode_toNat (b : Byte) : (highCode b).toNat = b.toNat / 16 := by
  simp only [highCode, BitVec.extractLsb'_toNat, Nat.shiftRight_eq_div_pow]; omega

@[simp] theorem lowCode_pack (lo hi : Code) : lowCode (packCodes lo hi) = lo := by
  apply BitVec.eq_of_toNat_eq; rw [lowCode_toNat, packCodes_toNat]; omega

@[simp] theorem highCode_pack (lo hi : Code) : highCode (packCodes lo hi) = hi := by
  apply BitVec.eq_of_toNat_eq; rw [highCode_toNat, packCodes_toNat]; omega

@[simp] theorem pack_low_high (b : Byte) : packCodes (lowCode b) (highCode b) = b := by
  apply BitVec.eq_of_toNat_eq; rw [packCodes_toNat, lowCode_toNat, highCode_toNat]; omega

end Sys2Proof
end

