-- ==== Sys2Proof/Laws/Memory.lean ====
section
/-!
SUPPORT. Memories: a read after a write, that every memory operation keeps the canonical form, and the
same for runs and work buffers.
-/

namespace Sys2Proof.Machine

variable {α : Type}

@[simp] theorem Memory.get?_nil (a : Nat) : Memory.get? ([] : Memory α) a = none := rfl

/-- A read after a write. -/
theorem Memory.get?_put (m : Memory α) (a b : Nat) (v : α) :
    (m.put a v).get? b = if b = a then some v else m.get? b := by
  induction m with
  | nil => rfl
  | cons x m ih =>
    obtain ⟨k, w⟩ := x
    simp only [Memory.put]
    by_cases h1 : a < k
    · rw [if_pos h1]; rfl
    · by_cases h2 : a = k
      · subst h2
        rw [if_neg h1, if_pos rfl]
        simp only [Memory.get?]
        split_ifs <;> simp_all
      · rw [if_neg h1, if_neg h2]
        simp only [Memory.get?, ih]
        split_ifs <;> simp_all

@[simp] theorem Memory.get?_put_same (m : Memory α) (a : Nat) (v : α) : (m.put a v).get? a = some v := by
  simp [Memory.get?_put]

theorem Memory.get?_put_other (m : Memory α) {a b : Nat} (v : α) (h : b ≠ a) :
    (m.put a v).get? b = m.get? b := by
  simp [Memory.get?_put, h]

theorem Memory.mem_put {m : Memory α} {a : Nat} {v : α} {x : Nat × α} (h : x ∈ m.put a v) :
    x.1 = a ∨ x ∈ m := by
  induction m with
  | nil => simp [Memory.put] at h; simp [h]
  | cons y m ih =>
    obtain ⟨k, w⟩ := y
    simp only [Memory.put] at h
    split_ifs at h with h1 h2
    · rcases List.mem_cons.1 h with rfl | h
      · exact .inl rfl
      · exact .inr h
    · rcases List.mem_cons.1 h with rfl | h
      · exact .inl rfl
      · exact .inr (List.mem_cons_of_mem _ h)
    · rcases List.mem_cons.1 h with rfl | h
      · exact .inr List.mem_cons_self
      · exact (ih h).imp id (List.mem_cons_of_mem _)

/-- A write keeps the canonical form. -/
theorem Memory.put_wf {m : Memory α} (a : Nat) (v : α) (h : m.wf) : (m.put a v).wf := by
  induction m with
  | nil => exact List.pairwise_singleton _ _
  | cons y m ih =>
    obtain ⟨k, w⟩ := y
    obtain ⟨hy, hm⟩ := List.pairwise_cons.1 h
    simp only [Memory.put]
    split_ifs with h1 h2
    · refine List.pairwise_cons.2 ⟨fun x hx => ?_, h⟩
      rcases List.mem_cons.1 hx with rfl | hx
      · exact h1
      · exact Nat.lt_trans h1 (hy x hx)
    · subst h2
      exact List.pairwise_cons.2 ⟨fun x hx => hy x hx, hm⟩
    · refine List.pairwise_cons.2 ⟨fun x hx => ?_, ih hm⟩
      rcases Memory.mem_put hx with h3 | h3
      · simp only [h3]; omega
      · exact hy x h3

theorem Memory.putRun_wf {m : Memory α} (a : Nat) (vs : List α) (h : m.wf) : (m.putRun a vs).wf := by
  induction vs generalizing m a with
  | nil => exact h
  | cons v vs ih => exact ih _ (Memory.put_wf a v h)

/-- A read after a run of writes. -/
theorem Memory.get?_putRun (m : Memory α) (a b : Nat) (vs : List α) :
    (m.putRun a vs).get? b = if a ≤ b ∧ b < a + vs.length then vs[b - a]? else m.get? b := by
  induction vs generalizing m a with
  | nil =>
    simp [Memory.putRun]
  | cons v vs ih =>
    rw [Memory.putRun, ih, Memory.get?_put]
    simp only [List.length_cons]
    by_cases h1 : b = a
    · subst h1
      rw [if_neg (by omega), if_pos rfl, if_pos (by omega)]; simp
    · by_cases h2 : a ≤ b ∧ b < a + (vs.length + 1)
      · rw [if_pos (by omega), if_pos h2]
        obtain ⟨n, hn⟩ : ∃ n, b - a = n + 1 := ⟨b - a - 1, by omega⟩
        rw [hn, List.getElem?_cons_succ]
        congr 1; omega
      · rw [if_neg (by omega), if_neg h1, if_neg h2]

theorem Memory.ofRun_ge {a : Nat} {vs : List α} {x : Nat × α} (h : x ∈ Memory.ofRun a vs) : a ≤ x.1 := by
  induction vs generalizing a with
  | nil => simp [Memory.ofRun] at h
  | cons v vs ih =>
    rcases List.mem_cons.1 h with rfl | h
    · exact Nat.le_refl _
    · exact Nat.le_trans (Nat.le_succ a) (ih h)

theorem Memory.ofRun_wf (a : Nat) (vs : List α) : (Memory.ofRun a vs).wf := by
  induction vs generalizing a with
  | nil => exact List.Pairwise.nil
  | cons v vs ih =>
    exact List.pairwise_cons.2 ⟨fun x hx => Memory.ofRun_ge hx, ih _⟩

theorem Memory.get?_ofRun (a b : Nat) (vs : List α) :
    (Memory.ofRun a vs).get? b = if a ≤ b then vs[b - a]? else none := by
  induction vs generalizing a with
  | nil => simp [Memory.ofRun]
  | cons v vs ih =>
    simp only [Memory.ofRun, Memory.get?, ih]
    by_cases h1 : b = a
    · subst h1; simp
    · rw [if_neg h1]
      by_cases h2 : a ≤ b
      · rw [if_pos h2, if_pos (by omega)]
        obtain ⟨n, hn⟩ : ∃ n, b - a = n + 1 := ⟨b - a - 1, by omega⟩
        rw [hn, List.getElem?_cons_succ]
        congr 1; omega
      · rw [if_neg h2, if_neg (by omega)]

theorem Memory.ofRun_holds (a : Nat) (vs : List α) : (Memory.ofRun a vs).Holds a vs := by
  intro i h
  rw [Memory.get?_ofRun, if_pos (by omega)]
  simp [h]

/-! ## Work buffers -/

@[simp] theorem Buf.load_cells (b : Buf α) (xs : List α) : (b.load xs).cells = Memory.ofRun 0 xs := rfl
@[simp] theorem Buf.discard_cells (b : Buf α) : b.discard.cells = [] := rfl
@[simp] theorem Buf.put_cells (b : Buf α) (i : Nat) (x : α) : (b.put i x).cells = b.cells.put i x := rfl

theorem Buf.load_wf (b : Buf α) (xs : List α) : (b.load xs).cells.wf := Memory.ofRun_wf 0 xs
theorem Buf.discard_wf (b : Buf α) : b.discard.cells.wf := List.Pairwise.nil
theorem Buf.put_wf {b : Buf α} (i : Nat) (x : α) (h : b.cells.wf) : (b.put i x).cells.wf :=
  Memory.put_wf i x h

@[simp] theorem Buf.slice_length (free : Nat → Nat → α) (b : Buf α) (n : Nat) :
    (b.slice free n).length = n := by simp [Buf.slice]

/-- A buffer that holds `xs` reads as `xs`, whatever the free values are. -/
theorem Buf.slice_of_holds {free : Nat → Nat → α} {b : Buf α} {xs : List α} (h : b.cells.Holds 0 xs) :
    b.slice free xs.length = xs := by
  apply List.ext_getElem (by simp)
  intro i h1 h2
  have := h i h2
  simp only [Nat.zero_add] at this
  simp [Buf.slice, Buf.read, this]

theorem Buf.slice_load (free : Nat → Nat → α) (b : Buf α) (xs : List α) :
    (b.load xs).slice free xs.length = xs := Buf.slice_of_holds (Memory.ofRun_holds 0 xs)

end Sys2Proof.Machine
end

