-- ==== Sys2Proof/Laws/State.lean ====
section
/-!
SUPPORT. One lemma for each field of the state after each named update, so that no later proof unfolds
a record update.
-/

namespace Sys2Proof.Machine

variable (s : State) (conv : Bool) (k : ErrKind) (len : U32)

/-! ## `initialise` -/

@[simp] theorem State.initialise_cmd : (s.initialise conv).cmd = s.cmd := by cases conv <;> rfl
@[simp] theorem State.initialise_status : (s.initialise conv).status = s.status := by cases conv <;> rfl
@[simp] theorem State.initialise_err : (s.initialise conv).err = s.err := by cases conv <;> rfl
@[simp] theorem State.initialise_inPresent : (s.initialise conv).inPresent = s.inPresent := by cases conv <;> rfl
@[simp] theorem State.initialise_inLen : (s.initialise conv).inLen = s.inLen := by cases conv <;> rfl
@[simp] theorem State.initialise_outLen : (s.initialise conv).outLen = 0 := by cases conv <;> rfl
@[simp] theorem State.initialise_outCap : (s.initialise conv).outCap = s.outCap := by cases conv <;> rfl
@[simp] theorem State.initialise_outValid : (s.initialise conv).outValid = false := by cases conv <;> rfl
@[simp] theorem State.initialise_codec : (s.initialise conv).codec = s.codec := by cases conv <;> rfl
@[simp] theorem State.initialise_pos : (s.initialise conv).pos = 0 := by cases conv <;> rfl
@[simp] theorem State.initialise_flags : (s.initialise conv).flags = {} := by cases conv <;> rfl
@[simp] theorem State.initialise_cr : (s.initialise conv).cr = {} := by cases conv <;> rfl
@[simp] theorem State.initialise_lr : (s.initialise conv).lr = {} := by cases conv <;> rfl
@[simp] theorem State.initialise_pcmN : (s.initialise conv).pcmN = if conv then 0 else s.pcmN := by cases conv <;> rfl
@[simp] theorem State.initialise_adN : (s.initialise conv).adN = if conv then 0 else s.adN := by cases conv <;> rfl
@[simp] theorem State.initialise_chN : (s.initialise conv).chN = if conv then 0 else s.chN := by cases conv <;> rfl
@[simp] theorem State.initialise_bufv : (s.initialise conv).bufv = if conv then {} else s.bufv := by cases conv <;> rfl
@[simp] theorem State.initialise_pcmbuf : (s.initialise conv).pcmbuf = s.pcmbuf := by cases conv <;> rfl
@[simp] theorem State.initialise_adbuf : (s.initialise conv).adbuf = s.adbuf := by cases conv <;> rfl
@[simp] theorem State.initialise_chl : (s.initialise conv).chl = s.chl := by cases conv <;> rfl
@[simp] theorem State.initialise_chr : (s.initialise conv).chr = s.chr := by cases conv <;> rfl
@[simp] theorem State.initialise_input : (s.initialise conv).input = s.input := by cases conv <;> rfl
@[simp] theorem State.initialise_output : (s.initialise conv).output = s.output := by cases conv <;> rfl
@[simp] theorem State.initialise_issue : (s.initialise conv).issue = s.issue := by cases conv <;> rfl
@[simp] theorem State.initialise_result : (s.initialise conv).result = s.result := by cases conv <;> rfl
@[simp] theorem State.initialise_cmdReads : (s.initialise conv).cmdReads = s.cmdReads := by cases conv <;> rfl

/-! ## `releaseBuffers` -/

@[simp] theorem State.releaseBuffers_cmd : (s.releaseBuffers).cmd = s.cmd := rfl
@[simp] theorem State.releaseBuffers_status : (s.releaseBuffers).status = s.status := rfl
@[simp] theorem State.releaseBuffers_err : (s.releaseBuffers).err = s.err := rfl
@[simp] theorem State.releaseBuffers_inPresent : (s.releaseBuffers).inPresent = s.inPresent := rfl
@[simp] theorem State.releaseBuffers_inLen : (s.releaseBuffers).inLen = s.inLen := rfl
@[simp] theorem State.releaseBuffers_outLen : (s.releaseBuffers).outLen = s.outLen := rfl
@[simp] theorem State.releaseBuffers_outCap : (s.releaseBuffers).outCap = s.outCap := rfl
@[simp] theorem State.releaseBuffers_outValid : (s.releaseBuffers).outValid = s.outValid := rfl
@[simp] theorem State.releaseBuffers_codec : (s.releaseBuffers).codec = s.codec := rfl
@[simp] theorem State.releaseBuffers_pos : (s.releaseBuffers).pos = s.pos := rfl
@[simp] theorem State.releaseBuffers_flags : (s.releaseBuffers).flags = s.flags := rfl
@[simp] theorem State.releaseBuffers_cr : (s.releaseBuffers).cr = s.cr := rfl
@[simp] theorem State.releaseBuffers_lr : (s.releaseBuffers).lr = s.lr := rfl
@[simp] theorem State.releaseBuffers_pcmN : (s.releaseBuffers).pcmN = s.pcmN := rfl
@[simp] theorem State.releaseBuffers_adN : (s.releaseBuffers).adN = s.adN := rfl
@[simp] theorem State.releaseBuffers_chN : (s.releaseBuffers).chN = s.chN := rfl
@[simp] theorem State.releaseBuffers_bufv : (s.releaseBuffers).bufv = {} := rfl
@[simp] theorem State.releaseBuffers_pcmbuf : (s.releaseBuffers).pcmbuf = s.pcmbuf.discard := rfl
@[simp] theorem State.releaseBuffers_adbuf : (s.releaseBuffers).adbuf = s.adbuf.discard := rfl
@[simp] theorem State.releaseBuffers_chl : (s.releaseBuffers).chl = s.chl.discard := rfl
@[simp] theorem State.releaseBuffers_chr : (s.releaseBuffers).chr = s.chr.discard := rfl
@[simp] theorem State.releaseBuffers_input : (s.releaseBuffers).input = s.input := rfl
@[simp] theorem State.releaseBuffers_output : (s.releaseBuffers).output = s.output := rfl
@[simp] theorem State.releaseBuffers_issue : (s.releaseBuffers).issue = s.issue := rfl
@[simp] theorem State.releaseBuffers_result : (s.releaseBuffers).result = s.result := rfl
@[simp] theorem State.releaseBuffers_cmdReads : (s.releaseBuffers).cmdReads = s.cmdReads := rfl

/-! ## `succeed` -/

@[simp] theorem State.succeed_cmd : (s.succeed conv).cmd = s.cmd := by cases conv <;> rfl
@[simp] theorem State.succeed_status : (s.succeed conv).status = 0 := by cases conv <;> rfl
@[simp] theorem State.succeed_err : (s.succeed conv).err = 0 := by cases conv <;> rfl
@[simp] theorem State.succeed_inPresent : (s.succeed conv).inPresent = s.inPresent := by cases conv <;> rfl
@[simp] theorem State.succeed_inLen : (s.succeed conv).inLen = s.inLen := by cases conv <;> rfl
@[simp] theorem State.succeed_outLen : (s.succeed conv).outLen = s.outLen := by cases conv <;> rfl
@[simp] theorem State.succeed_outCap : (s.succeed conv).outCap = s.outCap := by cases conv <;> rfl
@[simp] theorem State.succeed_outValid : (s.succeed conv).outValid = (conv || s.outValid) := by cases conv <;> rfl
@[simp] theorem State.succeed_codec : (s.succeed conv).codec = s.codec := by cases conv <;> rfl
@[simp] theorem State.succeed_pos : (s.succeed conv).pos = s.pos := by cases conv <;> rfl
@[simp] theorem State.succeed_flags : (s.succeed conv).flags = s.flags := by cases conv <;> rfl
@[simp] theorem State.succeed_cr : (s.succeed conv).cr = s.cr := by cases conv <;> rfl
@[simp] theorem State.succeed_lr : (s.succeed conv).lr = s.lr := by cases conv <;> rfl
@[simp] theorem State.succeed_pcmN : (s.succeed conv).pcmN = s.pcmN := by cases conv <;> rfl
@[simp] theorem State.succeed_adN : (s.succeed conv).adN = s.adN := by cases conv <;> rfl
@[simp] theorem State.succeed_chN : (s.succeed conv).chN = s.chN := by cases conv <;> rfl
@[simp] theorem State.succeed_bufv : (s.succeed conv).bufv = if conv then {} else s.bufv := by cases conv <;> rfl
@[simp] theorem State.succeed_pcmbuf : (s.succeed conv).pcmbuf = if conv then s.pcmbuf.discard else s.pcmbuf := by cases conv <;> rfl
@[simp] theorem State.succeed_adbuf : (s.succeed conv).adbuf = if conv then s.adbuf.discard else s.adbuf := by cases conv <;> rfl
@[simp] theorem State.succeed_chl : (s.succeed conv).chl = if conv then s.chl.discard else s.chl := by cases conv <;> rfl
@[simp] theorem State.succeed_chr : (s.succeed conv).chr = if conv then s.chr.discard else s.chr := by cases conv <;> rfl
@[simp] theorem State.succeed_input : (s.succeed conv).input = s.input := by cases conv <;> rfl
@[simp] theorem State.succeed_output : (s.succeed conv).output = s.output := by cases conv <;> rfl
@[simp] theorem State.succeed_issue : (s.succeed conv).issue = s.issue := by cases conv <;> rfl
@[simp] theorem State.succeed_result : (s.succeed conv).result = s.result := by cases conv <;> rfl
@[simp] theorem State.succeed_cmdReads : (s.succeed conv).cmdReads = s.cmdReads := by cases conv <;> rfl

/-! ## `abort` -/

@[simp] theorem State.abort_cmd : (s.abort conv k).cmd = s.cmd := by cases conv <;> rfl
@[simp] theorem State.abort_status : (s.abort conv k).status = 0xFFFFFFFF := by cases conv <;> rfl
@[simp] theorem State.abort_err : (s.abort conv k).err = errCode k := by cases conv <;> rfl
@[simp] theorem State.abort_inPresent : (s.abort conv k).inPresent = s.inPresent := by cases conv <;> rfl
@[simp] theorem State.abort_inLen : (s.abort conv k).inLen = s.inLen := by cases conv <;> rfl
@[simp] theorem State.abort_outLen : (s.abort conv k).outLen = s.outLen := by cases conv <;> rfl
@[simp] theorem State.abort_outCap : (s.abort conv k).outCap = s.outCap := by cases conv <;> rfl
@[simp] theorem State.abort_outValid : (s.abort conv k).outValid = false := by cases conv <;> rfl
@[simp] theorem State.abort_codec : (s.abort conv k).codec = s.codec := by cases conv <;> rfl
@[simp] theorem State.abort_pos : (s.abort conv k).pos = s.pos := by cases conv <;> rfl
@[simp] theorem State.abort_flags : (s.abort conv k).flags = s.flags := by cases conv <;> rfl
@[simp] theorem State.abort_cr : (s.abort conv k).cr = s.cr := by cases conv <;> rfl
@[simp] theorem State.abort_lr : (s.abort conv k).lr = s.lr := by cases conv <;> rfl
@[simp] theorem State.abort_pcmN : (s.abort conv k).pcmN = s.pcmN := by cases conv <;> rfl
@[simp] theorem State.abort_adN : (s.abort conv k).adN = s.adN := by cases conv <;> rfl
@[simp] theorem State.abort_chN : (s.abort conv k).chN = s.chN := by cases conv <;> rfl
@[simp] theorem State.abort_bufv : (s.abort conv k).bufv = if conv then {} else s.bufv := by cases conv <;> rfl
@[simp] theorem State.abort_pcmbuf : (s.abort conv k).pcmbuf = if conv then s.pcmbuf.discard else s.pcmbuf := by cases conv <;> rfl
@[simp] theorem State.abort_adbuf : (s.abort conv k).adbuf = if conv then s.adbuf.discard else s.adbuf := by cases conv <;> rfl
@[simp] theorem State.abort_chl : (s.abort conv k).chl = if conv then s.chl.discard else s.chl := by cases conv <;> rfl
@[simp] theorem State.abort_chr : (s.abort conv k).chr = if conv then s.chr.discard else s.chr := by cases conv <;> rfl
@[simp] theorem State.abort_input : (s.abort conv k).input = s.input := by cases conv <;> rfl
@[simp] theorem State.abort_output : (s.abort conv k).output = s.output := by cases conv <;> rfl
@[simp] theorem State.abort_issue : (s.abort conv k).issue = s.issue := by cases conv <;> rfl
@[simp] theorem State.abort_result : (s.abort conv k).result = s.result := by cases conv <;> rfl
@[simp] theorem State.abort_cmdReads : (s.abort conv k).cmdReads = s.cmdReads := by cases conv <;> rfl

/-! ## `seek` -/

@[simp] theorem State.seek_cmd : (s.seek len).cmd = s.cmd := rfl
@[simp] theorem State.seek_status : (s.seek len).status = s.status := rfl
@[simp] theorem State.seek_err : (s.seek len).err = s.err := rfl
@[simp] theorem State.seek_inPresent : (s.seek len).inPresent = s.inPresent := rfl
@[simp] theorem State.seek_inLen : (s.seek len).inLen = s.inLen := rfl
@[simp] theorem State.seek_outLen : (s.seek len).outLen = s.outLen := rfl
@[simp] theorem State.seek_outCap : (s.seek len).outCap = s.outCap := rfl
@[simp] theorem State.seek_outValid : (s.seek len).outValid = s.outValid := rfl
@[simp] theorem State.seek_codec : (s.seek len).codec = s.codec := rfl
@[simp] theorem State.seek_pos : (s.seek len).pos = s.pos + 8 + len.toNat := rfl
@[simp] theorem State.seek_flags : (s.seek len).flags = s.flags := rfl
@[simp] theorem State.seek_cr : (s.seek len).cr = s.cr := rfl
@[simp] theorem State.seek_lr : (s.seek len).lr = s.lr := rfl
@[simp] theorem State.seek_pcmN : (s.seek len).pcmN = s.pcmN := rfl
@[simp] theorem State.seek_adN : (s.seek len).adN = s.adN := rfl
@[simp] theorem State.seek_chN : (s.seek len).chN = s.chN := rfl
@[simp] theorem State.seek_bufv : (s.seek len).bufv = s.bufv := rfl
@[simp] theorem State.seek_pcmbuf : (s.seek len).pcmbuf = s.pcmbuf := rfl
@[simp] theorem State.seek_adbuf : (s.seek len).adbuf = s.adbuf := rfl
@[simp] theorem State.seek_chl : (s.seek len).chl = s.chl := rfl
@[simp] theorem State.seek_chr : (s.seek len).chr = s.chr := rfl
@[simp] theorem State.seek_input : (s.seek len).input = s.input := rfl
@[simp] theorem State.seek_output : (s.seek len).output = s.output := rfl
@[simp] theorem State.seek_issue : (s.seek len).issue = s.issue := rfl
@[simp] theorem State.seek_result : (s.seek len).result = s.result := rfl
@[simp] theorem State.seek_cmdReads : (s.seek len).cmdReads = s.cmdReads := rfl

/-! ## `taken` -/

@[simp] theorem State.taken_cmd : (s.taken).cmd = s.cmd := rfl
@[simp] theorem State.taken_status : (s.taken).status = s.status := rfl
@[simp] theorem State.taken_err : (s.taken).err = s.err := rfl
@[simp] theorem State.taken_inPresent : (s.taken).inPresent = s.inPresent := rfl
@[simp] theorem State.taken_inLen : (s.taken).inLen = s.inLen := rfl
@[simp] theorem State.taken_outLen : (s.taken).outLen = s.outLen := rfl
@[simp] theorem State.taken_outCap : (s.taken).outCap = s.outCap := rfl
@[simp] theorem State.taken_outValid : (s.taken).outValid = s.outValid := rfl
@[simp] theorem State.taken_codec : (s.taken).codec = s.codec := rfl
@[simp] theorem State.taken_pos : (s.taken).pos = s.pos := rfl
@[simp] theorem State.taken_flags : (s.taken).flags = s.flags := rfl
@[simp] theorem State.taken_cr : (s.taken).cr = s.cr := rfl
@[simp] theorem State.taken_lr : (s.taken).lr = s.lr := rfl
@[simp] theorem State.taken_pcmN : (s.taken).pcmN = s.pcmN := rfl
@[simp] theorem State.taken_adN : (s.taken).adN = s.adN := rfl
@[simp] theorem State.taken_chN : (s.taken).chN = s.chN := rfl
@[simp] theorem State.taken_bufv : (s.taken).bufv = s.bufv := rfl
@[simp] theorem State.taken_pcmbuf : (s.taken).pcmbuf = s.pcmbuf := rfl
@[simp] theorem State.taken_adbuf : (s.taken).adbuf = s.adbuf := rfl
@[simp] theorem State.taken_chl : (s.taken).chl = s.chl := rfl
@[simp] theorem State.taken_chr : (s.taken).chr = s.chr := rfl
@[simp] theorem State.taken_input : (s.taken).input = s.input := rfl
@[simp] theorem State.taken_output : (s.taken).output = s.output := rfl
@[simp] theorem State.taken_issue : (s.taken).issue = .idle := rfl
@[simp] theorem State.taken_result : (s.taken).result = s.result := rfl
@[simp] theorem State.taken_cmdReads : (s.taken).cmdReads = s.cmdReads := rfl

/-! ## `captureFormat` -/

@[simp] theorem State.captureFormat_cmd : (captureFormat len s).cmd = s.cmd := rfl
@[simp] theorem State.captureFormat_status : (captureFormat len s).status = s.status := rfl
@[simp] theorem State.captureFormat_err : (captureFormat len s).err = s.err := rfl
@[simp] theorem State.captureFormat_inPresent : (captureFormat len s).inPresent = s.inPresent := rfl
@[simp] theorem State.captureFormat_inLen : (captureFormat len s).inLen = s.inLen := rfl
@[simp] theorem State.captureFormat_outLen : (captureFormat len s).outLen = s.outLen := rfl
@[simp] theorem State.captureFormat_outCap : (captureFormat len s).outCap = s.outCap := rfl
@[simp] theorem State.captureFormat_outValid : (captureFormat len s).outValid = s.outValid := rfl
@[simp] theorem State.captureFormat_codec : (captureFormat len s).codec = s.codec := rfl
@[simp] theorem State.captureFormat_pos : (captureFormat len s).pos = s.pos := rfl
@[simp] theorem State.captureFormat_flags : (captureFormat len s).flags = s.flags := rfl
@[simp] theorem State.captureFormat_lr : (captureFormat len s).lr = s.lr := rfl
@[simp] theorem State.captureFormat_pcmN : (captureFormat len s).pcmN = s.pcmN := rfl
@[simp] theorem State.captureFormat_adN : (captureFormat len s).adN = s.adN := rfl
@[simp] theorem State.captureFormat_chN : (captureFormat len s).chN = s.chN := rfl
@[simp] theorem State.captureFormat_bufv : (captureFormat len s).bufv = s.bufv := rfl
@[simp] theorem State.captureFormat_pcmbuf : (captureFormat len s).pcmbuf = s.pcmbuf := rfl
@[simp] theorem State.captureFormat_adbuf : (captureFormat len s).adbuf = s.adbuf := rfl
@[simp] theorem State.captureFormat_chl : (captureFormat len s).chl = s.chl := rfl
@[simp] theorem State.captureFormat_chr : (captureFormat len s).chr = s.chr := rfl
@[simp] theorem State.captureFormat_input : (captureFormat len s).input = s.input := rfl
@[simp] theorem State.captureFormat_output : (captureFormat len s).output = s.output := rfl
@[simp] theorem State.captureFormat_issue : (captureFormat len s).issue = s.issue := rfl
@[simp] theorem State.captureFormat_result : (captureFormat len s).result = s.result := rfl
@[simp] theorem State.captureFormat_cmdReads : (captureFormat len s).cmdReads = s.cmdReads := rfl

end Sys2Proof.Machine
end

