-- ==== Sys2Proof/Laws/Ops.lean ====
section
/-!
SUPPORT. What each shared operation can do, said once: how flows compose and conclude, what a command
answers, what `emit` does.
-/

namespace Sys2Proof.Machine

/-! ## Flows -/

@[simp] theorem Flow.go_andThen (s : State) (f : State → Flow) : (Flow.go s).andThen f = f s := rfl
@[simp] theorem Flow.raise_andThen (k : ErrKind) (s : State) (f : State → Flow) :
    (Flow.raise k s).andThen f = .raise k s := rfl
@[simp] theorem Flow.refuse_andThen (r : Refusal) (f : State → Flow) :
    (Flow.refuse r).andThen f = .refuse r := rfl
@[simp] theorem Flow.withValue_ok {β : Type} (b : β) (f : β → Flow) :
    Flow.withValue (.ok b) f = f b := rfl
@[simp] theorem Flow.withValue_error {β : Type} (r : Refusal) (f : β → Flow) :
    Flow.withValue (.error r) f = .refuse r := rfl
@[simp] theorem Flow.conclude_go (conv : Bool) (s : State) : (Flow.go s).conclude conv = .next s := rfl
@[simp] theorem Flow.conclude_raise (conv : Bool) (k : ErrKind) (s : State) :
    (Flow.raise k s).conclude conv = .next (s.abort conv k) := rfl
@[simp] theorem Flow.conclude_refuse (conv : Bool) (r : Refusal) :
    (Flow.refuse r).conclude conv = .refused r := rfl

theorem Flow.andThen_assoc (x : Flow) (f g : State → Flow) :
    (x.andThen f).andThen g = x.andThen fun s => (f s).andThen g := by cases x <;> rfl

/-- `andThen` goes on exactly where both parts do. -/
theorem Flow.andThen_eq_go {x : Flow} {f : State → Flow} {t : State} :
    x.andThen f = .go t ↔ ∃ s, x = .go s ∧ f s = .go t := by cases x <;> simp

/-- `andThen` raises in its first part or, after it, in its second. -/
theorem Flow.andThen_eq_raise {x : Flow} {f : State → Flow} {k : ErrKind} {t : State} :
    x.andThen f = .raise k t ↔ x = .raise k t ∨ ∃ s, x = .go s ∧ f s = .raise k t := by
  cases x <;> simp

/-- A property of the state a flow leaves, whether it goes on or raises. -/
def Flow.Leaves (P : State → Prop) : Flow → Prop
  | .go s => P s
  | .raise _ s => P s
  | .refuse _ => True

@[simp] theorem Flow.leaves_go {P : State → Prop} {s : State} : (Flow.go s).Leaves P ↔ P s := Iff.rfl
@[simp] theorem Flow.leaves_raise {P : State → Prop} {k : ErrKind} {s : State} :
    (Flow.raise k s).Leaves P ↔ P s := Iff.rfl
@[simp] theorem Flow.leaves_refuse {P : State → Prop} {r : Refusal} : (Flow.refuse r).Leaves P := trivial

theorem Flow.Leaves.andThen {P Q : State → Prop} {x : Flow} {f : State → Flow} (hx : x.Leaves P)
    (hf : ∀ s, P s → (f s).Leaves Q) (hpq : ∀ s, P s → Q s) : (x.andThen f).Leaves Q := by
  cases x with
  | go s => exact hf s hx
  | raise k s => exact hpq s hx
  | refuse r => trivial

/-- The one-property form of `Flow.Leaves.andThen`. -/
theorem Flow.Leaves.andThen' {P : State → Prop} {x : Flow} {f : State → Flow} (hx : x.Leaves P)
    (hf : ∀ s, P s → (f s).Leaves P) : (x.andThen f).Leaves P :=
  hx.andThen hf fun _ h => h

theorem Flow.Leaves.withValue {β : Type} {P : State → Prop} {x : Except Refusal β} {f : β → Flow}
    (h : ∀ b, x = .ok b → (f b).Leaves P) : (Flow.withValue x f).Leaves P := by
  cases x with
  | ok b => exact h b rfl
  | error r => trivial

theorem Flow.Leaves.mono {P Q : State → Prop} {x : Flow} (h : x.Leaves P) (hpq : ∀ s, P s → Q s) :
    x.Leaves Q := by
  cases x with
  | go s => exact hpq s h
  | raise k s => exact hpq s h
  | refuse r => trivial

/-- Every next state of a concluded flow has `Q`, when the flow leaves `P` and the abort turns `P` into
`Q`. -/
theorem Flow.Leaves.conclude {P Q : State → Prop} {conv : Bool} {x : Flow} {t : State}
    (h : x.Leaves P) (hgo : ∀ s, P s → Q s) (habort : ∀ k s, P s → Q (s.abort conv k))
    (ht : x.conclude conv = .next t) : Q t := by
  cases x with
  | go s => simp at ht; exact ht ▸ hgo s h
  | raise k s => simp at ht; exact ht ▸ habort k s h
  | refuse r => simp at ht

/-- What a concluded flow answers, and nothing else. -/
theorem Flow.conclude_cases {conv : Bool} {x : Flow} {t : State} (h : x.conclude conv = .next t) :
    x = .go t ∨ ∃ k s, x = .raise k s ∧ t = s.abort conv k := by
  cases x with
  | go s => simp at h; exact .inl (by rw [h])
  | raise k s => simp at h; exact .inr ⟨k, s, rfl, h.symm⟩
  | refuse r => simp at h

theorem Flow.conclude_not_fault {conv : Bool} {x : Flow} {f : Fault} : x.conclude conv ≠ .fault f := by
  cases x <;> simp [Flow.conclude]

/-- What a command answers: success of its body, an abort, or a refusal. -/
theorem runCommand_cases {conv : Bool} {body : State → Flow} {s t : State}
    (h : runCommand conv body s = .next t) :
    (∃ u, body (s.initialise conv) = .go u ∧ t = u.succeed conv) ∨
      ∃ k u, body (s.initialise conv) = .raise k u ∧ t = u.abort conv k := by
  rcases Flow.conclude_cases h with h1 | ⟨k, u, h1, h2⟩
  · obtain ⟨u, hu, h3⟩ := Flow.andThen_eq_go.1 h1
    exact .inl ⟨u, hu, by simpa using h3.symm⟩
  · rcases Flow.andThen_eq_raise.1 h1 with h3 | ⟨u, _, h3⟩
    · exact .inr ⟨k, u, h3, h2⟩
    · simp at h3

theorem runCommand_of_go {conv : Bool} {body : State → Flow} {s u : State}
    (h : body (s.initialise conv) = .go u) : runCommand conv body s = .next (u.succeed conv) := by
  simp [runCommand, h]

theorem runCommand_of_raise {conv : Bool} {body : State → Flow} {s u : State} {k : ErrKind}
    (h : body (s.initialise conv) = .raise k u) : runCommand conv body s = .next (u.abort conv k) := by
  simp [runCommand, h]

theorem runCommand_of_refuse {conv : Bool} {body : State → Flow} {s : State} {r : Refusal}
    (h : body (s.initialise conv) = .refuse r) : runCommand conv body s = .refused r := by
  simp [runCommand, h]

/-- A command leaves a property that its body leaves, that success and abort keep. -/
theorem runCommand_leaves {conv : Bool} {body : State → Flow} {P Q : State → Prop} {s t : State}
    (hb : (body (s.initialise conv)).Leaves P) (hs : ∀ u, P u → Q (u.succeed conv))
    (ha : ∀ k u, P u → Q (u.abort conv k)) (h : runCommand conv body s = .next t) : Q t := by
  rcases runCommand_cases h with ⟨u, hu, rfl⟩ | ⟨k, u, hu, rfl⟩
  · exact hs u (by simpa [hu] using hb)
  · exact ha k u (by simpa [hu] using hb)

/-! ## Work buffers as sequences (R36) -/

theorem State.pcmSlice_of_holds {s : State} {xs : List Sample} (h : s.HoldsPcm xs) :
    s.pcmSlice s.pcmN.toNat = xs := by rw [h.1]; exact Buf.slice_of_holds h.2

theorem State.adSlice_of_holds {s : State} {bs : List Byte} (h : s.HoldsAd bs) :
    s.adSlice s.adN.toNat = bs := by rw [h.1]; exact Buf.slice_of_holds h.2

theorem State.chlSlice_of_holds {s : State} {ls rs : List Sample} (h : s.HoldsChannels ls rs) :
    s.chlSlice s.chN.toNat = ls := by rw [h.1]; exact Buf.slice_of_holds h.2.2.1

theorem State.chrSlice_of_holds {s : State} {ls rs : List Sample} (h : s.HoldsChannels ls rs) :
    s.chrSlice s.chN.toNat = rs := by rw [h.1, h.2.1]; exact Buf.slice_of_holds h.2.2.2

/-! ## Emission (R206) -/

/-- Enough room: all the bytes are written and `OUT_LEN` counts them. -/
theorem State.emit_of_room {s : State} {bs : List Byte}
    (h : bs.length ≤ s.outCap.toNat - s.outLen.toNat) :
    s.emit bs = .go { s with
      output := s.output.putRun s.outLen.toNat bs
      outLen := s.outLen + BitVec.ofNat 32 bs.length } := by
  simp [State.emit, h, List.take_of_length_le h]

/-- Not enough room: the bytes below `OUT_CAP` are written, then IoFailure. -/
theorem State.emit_of_no_room {s : State} {bs : List Byte}
    (h : s.outCap.toNat - s.outLen.toNat < bs.length) :
    s.emit bs = .raise .ioFailure { s with
      output := s.output.putRun s.outLen.toNat (bs.take (s.outCap.toNat - s.outLen.toNat))
      outLen := s.outLen + BitVec.ofNat 32 (s.outCap.toNat - s.outLen.toNat) } := by
  have : ¬ bs.length ≤ s.outCap.toNat - s.outLen.toNat := by omega
  simp [State.emit, this, List.length_take, Nat.min_eq_left (Nat.le_of_lt h)]

/-- The state `emit` leaves, whichever way it ends: a prefix of the bytes is written at `OUT_LEN`,
inside `OUT_CAP`, and nothing else moves. -/
theorem State.emit_leaves (s : State) (bs : List Byte) :
    (s.emit bs).Leaves fun t => ∃ n, n ≤ bs.length ∧ n ≤ s.outCap.toNat - s.outLen.toNat ∧
      t = { s with
        output := s.output.putRun s.outLen.toNat (bs.take n)
        outLen := s.outLen + BitVec.ofNat 32 n } := by
  by_cases h : bs.length ≤ s.outCap.toNat - s.outLen.toNat
  · rw [State.emit_of_room h]
    exact ⟨bs.length, Nat.le_refl _, h, by simp⟩
  · rw [State.emit_of_no_room (by omega)]
    exact ⟨_, by omega, Nat.le_refl _, rfl⟩

/-- `OUT_LEN` never wraps: what is written ends at or below `OUT_CAP`. -/
theorem State.outLen_add_toNat {s : State} {n : Nat} (h : n ≤ s.outCap.toNat - s.outLen.toNat) :
    (s.outLen + BitVec.ofNat 32 n).toNat = s.outLen.toNat + n := by
  have h1 := s.outCap.isLt
  have h2 := s.outLen.isLt
  rw [BitVec.toNat_add, BitVec.toNat_ofNat]
  omega

end Sys2Proof.Machine
end

