-- ==== Sys2Proof/Laws/Codec.lean ====
section
/-!
SUPPORT. The codec: the clamps keep the ranges, what each operation answers in terms of `update`, and
that the stream functions depend on the codec state and their argument alone.
-/

namespace Sys2Proof.Machine

theorem clampInt_lo {v lo hi : Int} (h : lo ≤ hi) : lo ≤ clampInt v lo hi := by
  unfold clampInt; split_ifs <;> omega

theorem clampInt_hi {v lo hi : Int} (h : lo ≤ hi) : clampInt v lo hi ≤ hi := by
  unfold clampInt; split_ifs <;> omega

theorem clampInt_eq (v lo hi : Int) (h : lo ≤ hi) : clampInt v lo hi = max lo (min hi v) := by
  unfold clampInt; split_ifs <;> omega

/-- A number that fits 16 unsigned bits is read back from them. -/
theorem toNat_ofInt16 {v : Int} (h0 : 0 ≤ v) (h1 : v < 65536) :
    ((BitVec.ofInt 16 v).toNat : Int) = v := by
  rw [BitVec.toNat_ofInt]; omega

/-- A number in the range of an s16 is read back from its bits. -/
theorem toInt_ofInt16 {v : Int} (h0 : -32768 ≤ v) (h1 : v ≤ 32767) : (BitVec.ofInt 16 v).toInt = v := by
  rw [BitVec.toInt_ofInt, Int.bmod_def]; omega

/-- `tdiv(step * m, 8)` for a positive table entry is the floor (R8, R120). -/
theorem tdiv_eighth (step m : Nat) : Int.tdiv (step * (m : Int)) 8 = (m * step / 8 : Nat) := by
  rw [Int.tdiv_eq_ediv_of_nonneg (by positivity), Nat.mul_comm]
  norm_cast

/-- `tdiv(step * -m, 8)` for a negative table entry truncates toward zero (R8, R120). -/
theorem tdiv_eighth_neg (step m : Nat) : Int.tdiv (step * (-(m : Int))) 8 = -(m * step / 8 : Nat) := by
  rw [Int.mul_neg, Int.neg_tdiv, tdiv_eighth]

theorem update_sig_toInt (k : Codec) (c : Code) : (update k c).sig.toInt =
    clampInt (k.sig.toInt + Int.tdiv (k.step.toNat * diffLookup c) 8) (-32768) 32767 :=
  toInt_ofInt16 (clampInt_lo (by omega)) (clampInt_hi (by omega))

theorem update_step_toNat (k : Codec) (c : Code) : ((update k c).step.toNat : Int) =
    clampInt ((k.step.toNat * stepScale c) / 256 : Nat) 127 24576 := by
  have h1 := clampInt_lo (v := ((k.step.toNat * stepScale c) / 256 : Nat)) (lo := 127) (hi := 24576)
    (by omega)
  have h2 := clampInt_hi (v := ((k.step.toNat * stepScale c) / 256 : Nat)) (lo := 127) (hi := 24576)
    (by omega)
  exact toNat_ofInt16 (by omega) (by omega)

/-- Every update leaves the step in range, from any state (R142). -/
theorem update_inRange (k : Codec) (c : Code) : (update k c).InRange := by
  have h := update_step_toNat k c
  have h1 := clampInt_lo (v := ((k.step.toNat * stepScale c) / 256 : Nat)) (lo := 127) (hi := 24576)
    (by omega)
  have h2 := clampInt_hi (v := ((k.step.toNat * stepScale c) / 256 : Nat)) (lo := 127) (hi := 24576)
    (by omega)
  exact ⟨by omega, by omega⟩

theorem initial_inRange : Codec.initial.InRange := ⟨by decide, by decide⟩

/-- A property of the sixteen codes. -/
theorem forall_code {P : Code → Prop} (h : ∀ n : Fin 16, P (BitVec.ofFin n)) (c : Code) : P c :=
  h c.toFin

/-! ## What the operations answer -/

/-- Each of the sixteen decoder instructions is DEC.N of its code (R121). -/
theorem exec_decodeCode (c : Code) (s : State) : exec (decodeCode c) s =
    .next { s with codec := update s.codec c, result := .samples [(update s.codec c).sig] } := by
  revert c
  refine forall_code fun n => ?_
  fin_cases n <;> rfl

theorem exec_decB (s : State) (hi lo : Code) : exec (.decB hi lo) s =
    .next { s with
      codec := update (update s.codec lo) hi
      result := .samples [(update s.codec lo).sig, (update (update s.codec lo) hi).sig] } := rfl

theorem exec_encS (s : State) (x : Sample) : exec (.encS x) s =
    .next { s with
      codec := update s.codec (quant x s.codec)
      result := .code (quant x s.codec) } := rfl

theorem exec_encB (s : State) (x0 x1 : Sample) : exec (.encB x0 x1) s =
    .next { s with
      codec := (encodePair s.codec x0 x1).1
      result := .byte (encodePair s.codec x0 x1).2 } := rfl

/-- The quantiser inside its domain is R100's formula. -/
theorem scaledDiff_of_ne {x : Sample} {k : Codec} (h : k.step ≠ 0) :
    scaledDiff x k = Int.tdiv ((x.toInt - k.sig.toInt) * 8) k.step.toNat := by
  unfold scaledDiff; rw [if_neg h]

theorem Codec.InRange.step_ne {k : Codec} (h : k.InRange) : k.step ≠ 0 := by
  intro h0
  have := h.1
  simp [h0] at this

theorem quant_toNat (x : Sample) (k : Codec) : (quant x k).toNat =
    min ((scaledDiff x k).natAbs / 2) 7 + if scaledDiff x k < 0 then 8 else 0 := by
  simp only [quant, BitVec.toNat_ofNat]
  split_ifs <;> omega

/-! ## Streams -/

theorem encodePair_inRange (k : Codec) (x0 x1 : Sample) : (encodePair k x0 x1).1.InRange :=
  update_inRange _ _

theorem decodeByte_inRange (k : Codec) (hi lo : Code) : (decodeByte k hi lo).1.InRange :=
  update_inRange _ _

/-- One turn of `encode` (R104). -/
theorem encodeStream_cons (k : Codec) (x0 x1 : Sample) (xs : List Sample) :
    encodeStream k (x0 :: x1 :: xs) = ((encodeStream (encodePair k x0 x1).1 xs).1,
      (encodePair k x0 x1).2 :: (encodeStream (encodePair k x0 x1).1 xs).2) := rfl

/-- One turn of `decode` (R139). -/
theorem decodeStream_cons (k : Codec) (b : Byte) (bs : List Byte) :
    decodeStream k (b :: bs) = ((decodeStream (decodeByte k (highCode b) (lowCode b)).1 bs).1,
      (decodeByte k (highCode b) (lowCode b)).2.1 :: (decodeByte k (highCode b) (lowCode b)).2.2 ::
        (decodeStream (decodeByte k (highCode b) (lowCode b)).1 bs).2) := rfl

theorem encodeStream_inRange : ∀ (k : Codec) (xs : List Sample), k.InRange →
    (encodeStream k xs).1.InRange
  | k, x0 :: x1 :: xs, _ => encodeStream_inRange _ xs (encodePair_inRange k x0 x1)
  | _, [], h => h
  | _, [_], h => h

theorem decodeStream_inRange (k : Codec) (bs : List Byte) (h : k.InRange) :
    (decodeStream k bs).1.InRange := by
  induction bs generalizing k with
  | nil => exact h
  | cons b bs ih => exact ih _ (decodeByte_inRange k _ _)

/-- One byte for each pair of samples (R104). -/
theorem encodeStream_length : ∀ (k : Codec) (xs : List Sample),
    (encodeStream k xs).2.length = xs.length / 2
  | k, x0 :: x1 :: xs => by
    rw [encodeStream_cons]
    simp only [List.length_cons, encodeStream_length _ xs]
    omega
  | _, [] => rfl
  | _, [_] => by simp [encodeStream]

/-- Two samples for each byte (R139). -/
theorem decodeStream_length (k : Codec) (bs : List Byte) :
    (decodeStream k bs).2.length = 2 * bs.length := by
  induction bs generalizing k with
  | nil => rfl
  | cons b bs ih => rw [decodeStream_cons]; simp only [List.length_cons, ih]; omega

theorem encodeAll_ok {xs : List Sample} (h0 : xs ≠ []) (h2 : xs.length % 2 = 0) :
    encodeAll xs = .ok (encodeStream Codec.initial xs) := by
  simp [encodeAll, h0, h2]

theorem decodeAll_ok {bs : List Byte} (h0 : bs ≠ []) :
    decodeAll bs = .ok (decodeStream Codec.initial bs) := by
  simp [decodeAll, h0]

theorem encodeAll_cases {xs : List Sample} {p : Codec × List Byte} (h : encodeAll xs = .ok p) :
    xs ≠ [] ∧ xs.length % 2 = 0 ∧ p = encodeStream Codec.initial xs := by
  unfold encodeAll at h
  split_ifs at h with h1 h2
  simp only [Except.ok.injEq] at h
  exact ⟨by rintro rfl; simp at h1, by omega, h.symm⟩

theorem decodeAll_cases {bs : List Byte} {p : Codec × List Sample} (h : decodeAll bs = .ok p) :
    bs ≠ [] ∧ p = decodeStream Codec.initial bs := by
  unfold decodeAll at h
  split_ifs at h with h1
  simp only [Except.ok.injEq] at h
  exact ⟨by rintro rfl; simp at h1, h.symm⟩

/-- The decoder tracks the encoder over a whole stream (R140). -/
theorem decodeStream_encodeStream : ∀ (k : Codec) (xs : List Sample), xs.length % 2 = 0 →
    (decodeStream k (encodeStream k xs).2).1 = (encodeStream k xs).1
  | k, x0 :: x1 :: xs, h2 => by
    simp only [List.length_cons] at h2
    rw [encodeStream_cons, decodeStream_cons]
    have : (decodeByte k (highCode (encodePair k x0 x1).2) (lowCode (encodePair k x0 x1).2)).1 =
        (encodePair k x0 x1).1 := by
      simp [decodeByte, encodePair, encodeSample, decodeCodeValue]
    simp only [this]
    exact decodeStream_encodeStream _ xs (by omega)
  | _, [], _ => rfl
  | _, [_], h => by simp at h

end Sys2Proof.Machine
end

