-- ==== Sys2Proof/Laws/Operands.lean ====
section
/-!
SUPPORT. What the operand forms read from a file the host has loaded (R10, R53).
-/

namespace Sys2Proof.Machine

theorem State.inByte_of_holds {s : State} {bs : List Byte} (h : s.input.Holds 0 bs) {a : Nat}
    (ha : a < bs.length) : s.inByte a = bs[a] := by
  have := h a ha
  rw [Nat.zero_add] at this
  simp [State.inByte, this]

theorem State.memRead_of_holds {s : State} {bs : List Byte} (h : s.input.Holds 0 bs) {a n : Nat}
    (ha : a + n ≤ bs.length) : s.memRead a n = (bs.drop a).take n := by
  apply List.ext_getElem
  · simp [State.memRead]; omega
  · intro i h1 h2
    simp only [State.memRead, List.length_map, List.length_range] at h1
    simp only [State.memRead, List.getElem_map, List.getElem_range, List.getElem_take, List.getElem_drop]
    exact State.inByte_of_holds h (by omega)

theorem State.rd16_of_holds {s : State} {bs : List Byte} (h : s.input.Holds 0 bs) {a : Nat}
    (ha : a + 2 ≤ bs.length) : s.rd16 a = le16 bs[a] bs[a + 1] := by
  unfold State.rd16
  rw [State.inByte_of_holds h (by omega), State.inByte_of_holds h (by omega)]

theorem State.rd32_of_holds {s : State} {bs : List Byte} (h : s.input.Holds 0 bs) {a : Nat}
    (ha : a + 4 ≤ bs.length) : s.rd32 a = le32 bs[a] bs[a + 1] bs[a + 2] bs[a + 3] := by
  unfold State.rd32
  rw [State.inByte_of_holds h (by omega), State.inByte_of_holds h (by omega),
    State.inByte_of_holds h (by omega), State.inByte_of_holds h (by omega)]

/-- Equal images read equal. -/
theorem State.inByte_congr {s t : State} (h : s.input = t.input) (a : Nat) : s.inByte a = t.inByte a := by
  unfold State.inByte; rw [h]

theorem State.memRead_congr {s t : State} (h : s.input = t.input) (a n : Nat) :
    s.memRead a n = t.memRead a n := by
  unfold State.memRead; simp only [State.inByte_congr h]

theorem State.rd16_congr {s t : State} (h : s.input = t.input) (a : Nat) : s.rd16 a = t.rd16 a := by
  unfold State.rd16; simp only [State.inByte_congr h]

theorem State.rd32_congr {s t : State} (h : s.input = t.input) (a : Nat) : s.rd32 a = t.rd32 a := by
  unfold State.rd32; simp only [State.inByte_congr h]

theorem State.rdSamples_congr {s t : State} (h : s.input = t.input) (a n : Nat) :
    s.rdSamples a n = t.rdSamples a n := by
  unfold State.rdSamples; simp only [State.rd16_congr h]

/-- The two bytes of sample `i` in a payload, behind any bytes (R53). -/
theorem samplesToBytes_get (xs : List Sample) (i : Nat) (hi : i < xs.length) :
    (samplesToBytes xs)[2 * i]? = some (xs[i].extractLsb' 0 8) ∧
      (samplesToBytes xs)[2 * i + 1]? = some (xs[i].extractLsb' 8 8) := by
  induction xs generalizing i with
  | nil => simp at hi
  | cons x xs ih =>
    cases i with
    | zero => exact ⟨rfl, rfl⟩
    | succ i => exact ih i (by simpa using hi)

/-- The samples of a payload are read back from its bytes (R53). -/
theorem State.rdSamples_of_holds {s : State} {pre post : List Byte} {xs : List Sample}
    (h : s.input.Holds 0 (pre ++ samplesToBytes xs ++ post)) :
    s.rdSamples pre.length xs.length = xs := by
  have hl : (samplesToBytes xs).length = 2 * xs.length := by
    simp [samplesToBytes, List.length_flatMap, Nat.mul_comm]
  have hb : ∀ j, j < 2 * xs.length → s.input.get? (pre.length + j) = (samplesToBytes xs)[j]? := by
    intro j hj
    have := h (pre.length + j) (by simp only [List.length_append]; omega)
    rw [Nat.zero_add] at this
    rw [this, ← List.getElem?_eq_getElem, List.append_assoc, List.getElem?_append_right (by omega),
      Nat.add_sub_cancel_left, List.getElem?_append_left (by omega)]
  apply List.ext_getElem
  · simp [State.rdSamples]
  · intro i _ hi
    obtain ⟨g0, g1⟩ := samplesToBytes_get xs i hi
    simp only [State.rdSamples, List.getElem_map, List.getElem_range, State.rd16, State.inByte]
    rw [hb _ (by omega), Nat.add_assoc, hb _ (by omega), g0, g1]
    exact le16_split _

end Sys2Proof.Machine
end

