-- ==== Sys2Proof/Laws/Reader.lean ====
section
/-!
SUPPORT. The reader: what its steps may write (`ReaderFrame`), that memories stay canonical and `POS`
within its width, what each check means in the file's bytes, and that the bound of the walk is never
used up.
-/

namespace Sys2Proof.Machine

/-! ## What a reader step may write -/

/-- A reader step writes the container and loop records, `POS`, `FLAGS` and the buffers `PCMBUF` and
`ADBUF` with their lengths, and nothing else. -/
def ReaderFrame (s t : State) : Prop :=
  t = { s with
    cr := t.cr, lr := t.lr, pos := t.pos, flags := t.flags, pcmN := t.pcmN, adN := t.adN
    pcmbuf := t.pcmbuf, adbuf := t.adbuf }

theorem ReaderFrame.refl (s : State) : ReaderFrame s s := rfl

theorem ReaderFrame.trans {s t u : State} (h1 : ReaderFrame s t) (h2 : ReaderFrame t u) :
    ReaderFrame s u := by
  unfold ReaderFrame at *
  rw [h1] at h2
  exact h2

theorem ReaderFrame.inLen {s t : State} (h : ReaderFrame s t) : t.inLen = s.inLen := by rw [h]
theorem ReaderFrame.input {s t : State} (h : ReaderFrame s t) : t.input = s.input := by rw [h]
theorem ReaderFrame.inPresent {s t : State} (h : ReaderFrame s t) : t.inPresent = s.inPresent := by rw [h]
theorem ReaderFrame.outLen {s t : State} (h : ReaderFrame s t) : t.outLen = s.outLen := by rw [h]
theorem ReaderFrame.outCap {s t : State} (h : ReaderFrame s t) : t.outCap = s.outCap := by rw [h]
theorem ReaderFrame.outValid {s t : State} (h : ReaderFrame s t) : t.outValid = s.outValid := by rw [h]
theorem ReaderFrame.output {s t : State} (h : ReaderFrame s t) : t.output = s.output := by rw [h]
theorem ReaderFrame.codec {s t : State} (h : ReaderFrame s t) : t.codec = s.codec := by rw [h]
theorem ReaderFrame.status {s t : State} (h : ReaderFrame s t) : t.status = s.status := by rw [h]
theorem ReaderFrame.err {s t : State} (h : ReaderFrame s t) : t.err = s.err := by rw [h]
theorem ReaderFrame.bufv {s t : State} (h : ReaderFrame s t) : t.bufv = s.bufv := by rw [h]
theorem ReaderFrame.chN {s t : State} (h : ReaderFrame s t) : t.chN = s.chN := by rw [h]
theorem ReaderFrame.chl {s t : State} (h : ReaderFrame s t) : t.chl = s.chl := by rw [h]
theorem ReaderFrame.chr {s t : State} (h : ReaderFrame s t) : t.chr = s.chr := by rw [h]
theorem ReaderFrame.issue {s t : State} (h : ReaderFrame s t) : t.issue = s.issue := by rw [h]
theorem ReaderFrame.result {s t : State} (h : ReaderFrame s t) : t.result = s.result := by rw [h]
theorem ReaderFrame.cmd {s t : State} (h : ReaderFrame s t) : t.cmd = s.cmd := by rw [h]
theorem ReaderFrame.cmdReads {s t : State} (h : ReaderFrame s t) : t.cmdReads = s.cmdReads := by rw [h]

theorem readRiff_frame (s : State) : (readRiff s).Leaves (ReaderFrame s) := by
  unfold readRiff; split_ifs <;> rfl

/-- RD.HDR writes the container record only. -/
theorem readHeaderTail_cr (c : Bool) (s : State) :
    (readHeaderTail c s).Leaves fun t => t = { s with cr := t.cr } := by
  unfold readHeaderTail; dsimp only; split_ifs <;> rfl

theorem readHeader_cr (c : Bool) (s : State) :
    (readHeader c s).Leaves fun t => t = { s with cr := t.cr } := by
  unfold readHeader; dsimp only
  split_ifs
  · rfl
  · rfl
  · rfl
  · rfl
  · rfl
  · rfl
  · exact (readHeaderTail_cr c _).mono fun t ht => ht.trans rfl

theorem readHeader_frame (c : Bool) (s : State) : (readHeader c s).Leaves (ReaderFrame s) :=
  (readHeader_cr c s).mono fun t ht => by rw [ht]; rfl

theorem readPayload_frame (s : State) : (readPayload s).Leaves (ReaderFrame s) := by
  simp only [readPayload]; split_ifs <;> rfl

theorem chunkFmt_frame (len : U32) (s : State) : (chunkFmt len s).Leaves (ReaderFrame s) := by
  simp only [chunkFmt]; split_ifs <;> rfl

theorem chunkData_frame (len : U32) (s : State) : (chunkData len s).Leaves (ReaderFrame s) := by
  simp only [chunkData]; split_ifs <;> rfl

theorem chunkSmpl_frame (len : U32) (s : State) : (chunkSmpl len s).Leaves (ReaderFrame s) := by
  simp only [chunkSmpl]; split_ifs <;> rfl

theorem walkEnd_frame (s : State) : (walkEnd s).Leaves (ReaderFrame s) := by
  simp only [walkEnd]; split_ifs <;> rfl

theorem seek_frame (len : U32) (s : State) : ReaderFrame s (s.seek len) := rfl

/-- A property of the state that every reader step keeps holds after the loop of the walk: enough that
it survives the three chunk operations and the seek from below `IN_LEN`. -/
theorem walkLoop_leaves {P : State → Prop}
    (hf : ∀ len s, P s → (chunkFmt len s).Leaves fun t => P t ∧ t.pos = s.pos ∧ t.inLen = s.inLen)
    (hd : ∀ len s, P s → (chunkData len s).Leaves fun t => P t ∧ t.pos = s.pos ∧ t.inLen = s.inLen)
    (hl : ∀ len s, P s → (chunkSmpl len s).Leaves P)
    (hk : ∀ len s, P s → s.pos + 8 ≤ s.inLen.toNat → P (s.seek len)) :
    ∀ n s, P s → (walkLoop n s).Leaves P := by
  intro n
  induction n with
  | zero => exact fun s h => h
  | succ n ih =>
    intro s h
    simp only [walkLoop]
    split_ifs with h1 h2
    · exact h
    · exact h
    · have hseek : ∀ t, P t ∧ t.pos = s.pos ∧ t.inLen = s.inLen →
          (walkLoop n (t.seek (s.rd32 (s.pos + 4)))).Leaves P := fun t ⟨h3, h4, h5⟩ =>
        ih _ (hk _ t h3 (by rw [h4, h5]; omega))
      split
      · exact (hf _ s h).andThen hseek fun _ h => h.1
      · exact (hd _ s h).andThen hseek fun _ h => h.1
      · exact hl _ s h
      · exact ih _ (hk _ s h (by omega))

theorem chunkFmt_pos (len : U32) (s : State) : (chunkFmt len s).Leaves fun t => t.pos = s.pos := by
  simp only [chunkFmt]; split_ifs <;> rfl

theorem chunkData_pos (len : U32) (s : State) : (chunkData len s).Leaves fun t => t.pos = s.pos := by
  simp only [chunkData]; split_ifs <;> rfl

/-- Two properties of what a flow leaves, together. -/
theorem Flow.Leaves.and {P Q : State → Prop} {x : Flow} (h1 : x.Leaves P) (h2 : x.Leaves Q) :
    x.Leaves fun t => P t ∧ Q t := by
  cases x with
  | go s => exact ⟨h1, h2⟩
  | raise k s => exact ⟨h1, h2⟩
  | refuse r => trivial

theorem walkLoop_frame (n : Nat) (s : State) : (walkLoop n s).Leaves (ReaderFrame s) := by
  refine walkLoop_leaves (P := ReaderFrame s) ?_ ?_ ?_ ?_ n s (.refl s)
  · exact fun len t h => ((chunkFmt_frame len t).and (chunkFmt_pos len t)).mono
      fun u hu => ⟨h.trans hu.1, hu.2, hu.1.inLen⟩
  · exact fun len t h => ((chunkData_frame len t).and (chunkData_pos len t)).mono
      fun u hu => ⟨h.trans hu.1, hu.2, hu.1.inLen⟩
  · exact fun len t h => (chunkSmpl_frame len t).mono fun u hu => h.trans hu
  · exact fun len t h _ => h.trans (seek_frame len t)

theorem walk_frame (s : State) : (walk s).Leaves (ReaderFrame s) :=
  (walkLoop_frame _ s).andThen (fun t h => (walkEnd_frame t).mono fun _ hu => h.trans hu) fun _ h => h

/-! ## The sample length and the loop flags -/

theorem State.sampleLength_toNat (s : State) : s.sampleLength.toNat = s.cr.dataSize.toNat / 2 := by
  unfold State.sampleLength; rw [BitVec.toNat_udiv]; rfl

theorem State.sampleLength_eq (s : State) :
    s.sampleLength = BitVec.ofNat 32 (s.cr.dataSize.toNat / 2) := by
  rw [← s.sampleLength_toNat]; simp

theorem loopEnabledOf_eq (type stop : U32) :
    loopEnabledOf type stop = decide (type = 0 ∧ 0 < stop.toNat) := by
  rw [Bool.eq_iff_iff]
  simp [loopEnabledOf, Nat.pos_iff_ne_zero, BitVec.toNat_eq]

theorem loopEndNzOf_eq (stop : U32) : loopEndNzOf stop = decide (stop ≠ 0) := by
  rw [Bool.eq_iff_iff]; simp [loopEndNzOf]

/-! ## Canonical buffers and the width of `POS` -/

/-- The two buffers the reader loads are canonical and `POS` is within its width. -/
structure ReaderOk (s : State) : Prop where
  pcm : s.pcmbuf.cells.wf
  ad : s.adbuf.cells.wf
  pos : s.pos < 2 ^ 33 + 8

theorem readRiff_ok {s : State} (h : ReaderOk s) : (readRiff s).Leaves ReaderOk := by
  unfold readRiff
  split_ifs <;> first | exact h | exact ⟨h.pcm, h.ad, by simp⟩

theorem readHeader_ok {s : State} (c : Bool) (h : ReaderOk s) : (readHeader c s).Leaves ReaderOk :=
  (readHeader_cr c s).mono fun t ht => by rw [ht]; exact ⟨h.pcm, h.ad, h.pos⟩

theorem readPayload_ok {s : State} (h : ReaderOk s) : (readPayload s).Leaves ReaderOk := by
  simp only [readPayload]
  split_ifs <;> first | exact h | exact ⟨h.pcm, Memory.ofRun_wf _ _, h.pos⟩

theorem chunkFmt_ok {s : State} (len : U32) (h : ReaderOk s) : (chunkFmt len s).Leaves ReaderOk := by
  simp only [chunkFmt]
  split_ifs <;> exact ⟨h.pcm, h.ad, h.pos⟩

theorem chunkData_ok {s : State} (len : U32) (h : ReaderOk s) : (chunkData len s).Leaves ReaderOk := by
  simp only [chunkData]
  split_ifs <;> first | exact h | exact ⟨Memory.ofRun_wf _ _, h.ad, h.pos⟩

theorem chunkSmpl_ok {s : State} (len : U32) (h : ReaderOk s) : (chunkSmpl len s).Leaves ReaderOk := by
  simp only [chunkSmpl]
  split_ifs <;> exact ⟨h.pcm, h.ad, h.pos⟩

theorem walkEnd_ok {s : State} (h : ReaderOk s) : (walkEnd s).Leaves ReaderOk := by
  simp only [walkEnd]
  split_ifs <;> exact ⟨h.pcm, h.ad, h.pos⟩

theorem walkLoop_ok (n : Nat) {s : State} (h : ReaderOk s) : (walkLoop n s).Leaves ReaderOk := by
  refine walkLoop_leaves ?_ ?_ ?_ ?_ n s h
  · exact fun len t h => ((chunkFmt_ok len h).and ((chunkFmt_frame len t).and (chunkFmt_pos len t))).mono
      fun u hu => ⟨hu.1, hu.2.2, hu.2.1.inLen⟩
  · exact fun len t h => ((chunkData_ok len h).and ((chunkData_frame len t).and (chunkData_pos len t))).mono
      fun u hu => ⟨hu.1, hu.2.2, hu.2.1.inLen⟩
  · exact fun len t h => chunkSmpl_ok len h
  · intro len t h hp
    refine ⟨h.pcm, h.ad, ?_⟩
    have h1 := t.inLen.isLt
    have h2 := len.isLt
    simp only [State.seek]
    omega

theorem walk_ok {s : State} (h : ReaderOk s) : (walk s).Leaves ReaderOk :=
  (walkLoop_ok _ h).andThen' fun _ h => walkEnd_ok h

/-! ## What an accepted step has found and written -/

theorem readRiff_go {s t : State} (h : readRiff s = .go t) :
    12 ≤ s.inLen.toNat ∧ s.memRead 0 4 = tagRiff ∧ s.memRead 8 4 = tagWave ∧
    t = { s with cr := { s.cr with totalSize := s.rd32 4 }, pos := 12 } := by
  unfold readRiff at h
  split_ifs at h with h1 h2 h3
  exact ⟨by omega, not_not.1 h2, not_not.1 h3, (Flow.go.inj h).symm⟩

theorem chunkFmt_go {len : U32} {s t : State} (h : chunkFmt len s = .go t) :
    s.flags.fmtSeen = false ∧ 16 ≤ len.toNat ∧ s.pos + 24 ≤ s.inLen.toNat ∧ t.cr.format = 1 ∧
    channelsOk t.cr.channels = true ∧
    t = { captureFormat len s with flags := { s.flags with fmtSeen := true } } := by
  unfold chunkFmt at h
  dsimp only at h
  split_ifs at h with h1 h2 h3 h4 h5
  obtain rfl := Flow.go.inj h
  exact ⟨by simpa using h1, by omega, by omega, not_not.1 h4, h5, rfl⟩

theorem chunkData_go {len : U32} {s t : State} (h : chunkData len s = .go t) :
    s.flags.fmtSeen = true ∧ s.flags.dataSeen = false ∧ s.cr.blockAlign = 2 ∧
    s.pos + 8 + len.toNat ≤ s.inLen.toNat ∧
    t = { s with
      cr := { s.cr with dataSize := len }, pcmN := len / 2
      pcmbuf := s.pcmbuf.load (s.rdSamples (s.pos + 8) (len.toNat / 2))
      flags := { s.flags with dataSeen := true } } := by
  unfold chunkData at h
  split_ifs at h with h1 h2 h3 h4
  exact ⟨h1, by simpa using h2, not_not.1 h3, by omega, (Flow.go.inj h).symm⟩

theorem chunkSmpl_go {len : U32} {s t : State} (h : chunkSmpl len s = .go t) :
    s.pos + 68 ≤ s.inLen.toNat ∧
    t = { s with
      lr := ⟨s.rd32 (s.pos + 48), clampLoopStart s.sampleLength (s.rd32 (s.pos + 52)),
        clampLoopEnd s.sampleLength (s.rd32 (s.pos + 56))⟩
      flags := { s.flags with
        smplSeen := true
        loopEnabled := loopEnabledOf (s.rd32 (s.pos + 48)) (s.rd32 (s.pos + 56))
        loopEndNz := loopEndNzOf (s.rd32 (s.pos + 56)) } } := by
  unfold chunkSmpl at h
  split_ifs at h with h1
  exact ⟨by omega, (Flow.go.inj h).symm⟩

theorem walkEnd_go {s t : State} (h : walkEnd s = .go t) : s.flags.dataSeen = true ∧
    t = if s.flags.loopCaptured then s else { s with
      flags := { s.flags with loopEnabled := false }
      lr := { s.lr with start := 0, stop := s.sampleLength } } := by
  unfold walkEnd at h
  split_ifs at h with h1 h2
  · exact ⟨h1, by rw [if_pos h2]; exact (Flow.go.inj h).symm⟩
  · exact ⟨h1, by rw [if_neg h2]; exact (Flow.go.inj h).symm⟩

theorem readPayload_go {s t : State} (h : readPayload s = .go t) :
    44 + s.cr.dataSize.toNat ≤ s.inLen.toNat ∧
    t = { s with adbuf := s.adbuf.load (s.memRead 44 s.cr.dataSize.toNat), adN := s.cr.dataSize } := by
  unfold readPayload at h
  dsimp only at h
  split_ifs at h with h1
  exact ⟨by omega, (Flow.go.inj h).symm⟩

theorem readHeader_go {c : Bool} {s t : State} (h : readHeader c s = .go t) :
    44 ≤ s.inLen.toNat ∧ channelsOk t.cr.channels = true ∧
    t = captureDataSize (captureRates (captureChannels (captureTag (captureSizes s)))) := by
  unfold readHeader at h
  dsimp only at h
  split_ifs at h with h1
  unfold readHeaderTail at h
  dsimp only at h
  split_ifs at h with h2
  obtain rfl := Flow.go.inj h
  exact ⟨by omega, h2, rfl⟩

/-- A property of states that the accepted chunk operations and the seek keep, kept by the loop. -/
theorem walkLoop_go {P : State → Prop}
    (hf : ∀ len s t, P s → chunkFmt len s = .go t → P t)
    (hd : ∀ len s t, P s → chunkData len s = .go t → P t)
    (hl : ∀ len s t, P s → chunkSmpl len s = .go t → P t)
    (hk : ∀ len s, P s → P (s.seek len)) : ∀ n s t, P s → walkLoop n s = .go t → P t := by
  intro n
  induction n with
  | zero => intro s t h ht; exact Flow.go.inj ht ▸ h
  | succ n ih =>
    intro s t h ht
    unfold walkLoop at ht
    dsimp only at ht
    split_ifs at ht
    · exact Flow.go.inj ht ▸ h
    · split at ht
      · obtain ⟨u, h1, h2⟩ := Flow.andThen_eq_go.1 ht
        exact ih _ _ (hk _ _ (hf _ _ _ h h1)) h2
      · obtain ⟨u, h1, h2⟩ := Flow.andThen_eq_go.1 ht
        exact ih _ _ (hk _ _ (hd _ _ _ h h1)) h2
      · exact hl _ _ _ h ht
      · exact ih _ _ (hk _ _ h) ht

/-! ## The bound of the walk -/

/-- With at least `IN_LEN - POS` turns allowed, the loop does not depend on how many. -/
theorem walkLoop_fuel : ∀ (m n : Nat) (s : State), s.inLen.toNat - s.pos ≤ m → s.inLen.toNat - s.pos ≤ n →
    walkLoop m s = walkLoop n s
  | 0, 0, _, _, _ => rfl
  | 0, n + 1, s, h, _ => by simp only [walkLoop]; rw [if_pos (by omega)]
  | m + 1, 0, s, _, h => by simp only [walkLoop]; rw [if_pos (by omega)]
  | m + 1, n + 1, s, hm, hn => by
    simp only [walkLoop]
    split_ifs with h1 h2
    · rfl
    · rfl
    · have hrec : ∀ (x : Flow) (len : U32),
          (x.Leaves fun t => t.pos = s.pos ∧ t.inLen = s.inLen) →
          (x.andThen fun t => walkLoop m (t.seek len)) = x.andThen fun t => walkLoop n (t.seek len) := by
        intro x len hx
        cases x with
        | go t =>
          simp only [Flow.go_andThen]
          obtain ⟨h3, h4⟩ := hx
          apply walkLoop_fuel m n <;> simp only [State.seek_inLen, State.seek_pos, h3, h4] <;> omega
        | raise k t => rfl
        | refuse r => rfl
      split
      · exact hrec _ _ (((chunkFmt_pos _ s).and (chunkFmt_frame _ s)).mono fun _ h => ⟨h.1, h.2.inLen⟩)
      · exact hrec _ _ (((chunkData_pos _ s).and (chunkData_frame _ s)).mono fun _ h => ⟨h.1, h.2.inLen⟩)
      · rfl
      · exact hrec _ _ ⟨rfl, rfl⟩

/-- The end of the walk: at or past `IN_LEN`. -/
theorem walk_of_end {s : State} (h : s.inLen.toNat ≤ s.pos) : walk s = walkEnd s := by
  unfold walk
  rw [show s.inLen.toNat - s.pos = 0 by omega]
  rfl

/-- The walk ends in a cut chunk header. -/
theorem walk_of_cut {s : State} (h1 : s.pos < s.inLen.toNat) (h2 : s.inLen.toNat < s.pos + 8) :
    walk s = .raise .truncatedHeader s := by
  unfold walk
  obtain ⟨n, hn⟩ : ∃ n, s.inLen.toNat - s.pos = n + 1 := ⟨s.inLen.toNat - s.pos - 1, by omega⟩
  rw [hn, walkLoop, if_neg (by omega), if_pos (by omega)]
  rfl

/-- One turn of the walk (R174). -/
theorem walk_turn {s : State} (h : s.pos + 8 ≤ s.inLen.toNat) : walk s =
    match chunkKind (s.rd32 s.pos) with
    | .fmt => (chunkFmt (s.rd32 (s.pos + 4)) s).andThen fun t => walk (t.seek (s.rd32 (s.pos + 4)))
    | .data => (chunkData (s.rd32 (s.pos + 4)) s).andThen fun t => walk (t.seek (s.rd32 (s.pos + 4)))
    | .smpl => (chunkSmpl (s.rd32 (s.pos + 4)) s).andThen walkEnd
    | .skip => walk (s.seek (s.rd32 (s.pos + 4))) := by
  unfold walk
  obtain ⟨n, hn⟩ : ∃ n, s.inLen.toNat - s.pos = n + 1 := ⟨s.inLen.toNat - s.pos - 1, by omega⟩
  have hrec : ∀ (x : Flow) (len : U32),
      (x.Leaves fun t => t.pos = s.pos ∧ t.inLen = s.inLen) →
      ((x.andThen fun t => walkLoop n (t.seek len)).andThen walkEnd) =
        x.andThen fun t =>
          (walkLoop ((t.seek len).inLen.toNat - (t.seek len).pos) (t.seek len)).andThen walkEnd := by
    intro x len hx
    cases x with
    | go t =>
      obtain ⟨h3, h4⟩ := hx
      simp only [Flow.go_andThen]
      congr 1
      apply walkLoop_fuel <;> simp only [State.seek_inLen, State.seek_pos, h3, h4] <;> omega
    | raise k t => rfl
    | refuse r => rfl
  rw [hn, walkLoop, if_neg (by omega), if_neg (by omega)]
  dsimp only
  cases chunkKind (s.rd32 s.pos)
  · exact hrec _ _ (((chunkFmt_pos _ s).and (chunkFmt_frame _ s)).mono fun _ h => ⟨h.1, h.2.inLen⟩)
  · exact hrec _ _ (((chunkData_pos _ s).and (chunkData_frame _ s)).mono fun _ h => ⟨h.1, h.2.inLen⟩)
  · rfl
  · exact hrec (.go s) _ ⟨rfl, rfl⟩

end Sys2Proof.Machine
end

