-- ==== Sys2Proof/Laws/Stereo.lean ====
section
/-!
SUPPORT. The stereo transform: lengths and the inverse laws (R162).
-/

namespace Sys2Proof.Machine

/-- One frame (R160). -/
theorem splitFrames_cons (l r : Sample) (xs : List Sample) : splitFrames (l :: r :: xs) =
    (l :: (splitFrames xs).1, r :: (splitFrames xs).2) := rfl

theorem splitFrames_length : ∀ xs : List Sample,
    (splitFrames xs).1.length = xs.length / 2 ∧ (splitFrames xs).2.length = xs.length / 2
  | l :: r :: xs => by
    have := splitFrames_length xs
    rw [splitFrames_cons]
    simp only [List.length_cons]
    omega
  | [] => ⟨rfl, rfl⟩
  | [_] => by simp [splitFrames]

theorem joinFrames_length {ls rs : List Sample} (h : ls.length = rs.length) :
    (joinFrames ls rs).length = 2 * ls.length := by
  induction ls generalizing rs with
  | nil => cases rs <;> simp_all [joinFrames]
  | cons l ls ih =>
    cases rs with
    | nil => simp at h
    | cons r rs => simp only [joinFrames, List.length_cons, ih (by simpa using h)]; omega

theorem joinFrames_splitFrames : ∀ xs : List Sample, xs.length % 2 = 0 →
    joinFrames (splitFrames xs).1 (splitFrames xs).2 = xs
  | l :: r :: xs, h => by
    simp only [List.length_cons] at h
    rw [splitFrames_cons]
    simp only [joinFrames, joinFrames_splitFrames xs (by omega)]
  | [], _ => rfl
  | [_], h => by simp at h

theorem splitFrames_joinFrames {ls rs : List Sample} (h : ls.length = rs.length) :
    splitFrames (joinFrames ls rs) = (ls, rs) := by
  induction ls generalizing rs with
  | nil => cases rs <;> simp_all [joinFrames, splitFrames]
  | cons l ls ih =>
    cases rs with
    | nil => simp at h
    | cons r rs => simp only [joinFrames, splitFrames, ih (by simpa using h)]

theorem deinterleave_ok {xs : List Sample} (h : xs.length % 2 = 0) :
    deinterleave xs = .ok (splitFrames xs) := by
  simp [deinterleave, h]

theorem interleave_ok {ls rs : List Sample} (h : ls.length = rs.length) :
    interleave ls rs = .ok (joinFrames ls rs) := by
  simp [interleave, h]

theorem deinterleave_cases {xs : List Sample} {p : List Sample × List Sample}
    (h : deinterleave xs = .ok p) : xs.length % 2 = 0 ∧ p = splitFrames xs := by
  unfold deinterleave at h
  split_ifs at h with h1
  simp only [Except.ok.injEq] at h
  exact ⟨by omega, h.symm⟩

theorem interleave_cases {ls rs xs : List Sample} (h : interleave ls rs = .ok xs) :
    ls.length = rs.length ∧ xs = joinFrames ls rs := by
  unfold interleave at h
  split_ifs at h with h1
  simp only [Except.ok.injEq] at h
  exact ⟨by omega, h.symm⟩

end Sys2Proof.Machine
end

