-- ==== Sys2Proof/Laws/Writer.lean ====
section
/-!
SUPPORT. The writer: what its steps may write (`WriterFrame`), what they keep of `OUT`, and each step as
one `emit` after its register writes.
-/

namespace Sys2Proof.Machine

/-- A writer step writes the container record, `OUT` and `OUT_LEN`, and nothing else. -/
def WriterFrame (s t : State) : Prop := t = { s with cr := t.cr, output := t.output, outLen := t.outLen }

theorem WriterFrame.refl (s : State) : WriterFrame s s := rfl

theorem WriterFrame.trans {s t u : State} (h1 : WriterFrame s t) (h2 : WriterFrame t u) :
    WriterFrame s u := by
  unfold WriterFrame at *
  rw [h1] at h2
  exact h2

theorem WriterFrame.inLen {s t : State} (h : WriterFrame s t) : t.inLen = s.inLen := by rw [h]
theorem WriterFrame.input {s t : State} (h : WriterFrame s t) : t.input = s.input := by rw [h]
theorem WriterFrame.inPresent {s t : State} (h : WriterFrame s t) : t.inPresent = s.inPresent := by rw [h]
theorem WriterFrame.outCap {s t : State} (h : WriterFrame s t) : t.outCap = s.outCap := by rw [h]
theorem WriterFrame.outValid {s t : State} (h : WriterFrame s t) : t.outValid = s.outValid := by rw [h]
theorem WriterFrame.codec {s t : State} (h : WriterFrame s t) : t.codec = s.codec := by rw [h]
theorem WriterFrame.status {s t : State} (h : WriterFrame s t) : t.status = s.status := by rw [h]
theorem WriterFrame.err {s t : State} (h : WriterFrame s t) : t.err = s.err := by rw [h]
theorem WriterFrame.pos {s t : State} (h : WriterFrame s t) : t.pos = s.pos := by rw [h]
theorem WriterFrame.flags {s t : State} (h : WriterFrame s t) : t.flags = s.flags := by rw [h]
theorem WriterFrame.lr {s t : State} (h : WriterFrame s t) : t.lr = s.lr := by rw [h]
theorem WriterFrame.pcmN {s t : State} (h : WriterFrame s t) : t.pcmN = s.pcmN := by rw [h]
theorem WriterFrame.adN {s t : State} (h : WriterFrame s t) : t.adN = s.adN := by rw [h]
theorem WriterFrame.chN {s t : State} (h : WriterFrame s t) : t.chN = s.chN := by rw [h]
theorem WriterFrame.bufv {s t : State} (h : WriterFrame s t) : t.bufv = s.bufv := by rw [h]
theorem WriterFrame.pcmbuf {s t : State} (h : WriterFrame s t) : t.pcmbuf = s.pcmbuf := by rw [h]
theorem WriterFrame.adbuf {s t : State} (h : WriterFrame s t) : t.adbuf = s.adbuf := by rw [h]
theorem WriterFrame.chl {s t : State} (h : WriterFrame s t) : t.chl = s.chl := by rw [h]
theorem WriterFrame.chr {s t : State} (h : WriterFrame s t) : t.chr = s.chr := by rw [h]
theorem WriterFrame.issue {s t : State} (h : WriterFrame s t) : t.issue = s.issue := by rw [h]
theorem WriterFrame.result {s t : State} (h : WriterFrame s t) : t.result = s.result := by rw [h]
theorem WriterFrame.cmd {s t : State} (h : WriterFrame s t) : t.cmd = s.cmd := by rw [h]
theorem WriterFrame.cmdReads {s t : State} (h : WriterFrame s t) : t.cmdReads = s.cmdReads := by rw [h]

/-! ## `emit` -/

theorem State.emit_frame (s : State) (bs : List Byte) :
    (s.emit bs).Leaves fun t => t = { s with output := t.output, outLen := t.outLen } := by
  unfold State.emit; dsimp only; split_ifs <;> rfl

/-- What every emission keeps of `OUT`: it stays canonical, written up to `OUT_LEN`, and within
`OUT_CAP`, and what lies at and above `OUT_LEN` keeps what it held (R206, R207). -/
structure WriterOk (s : State) : Prop where
  wf : s.output.wf
  written : s.OutputWritten

theorem State.emit_ok {s : State} (bs : List Byte) (h : WriterOk s) : (s.emit bs).Leaves WriterOk := by
  refine (State.emit_leaves s bs).mono fun t ⟨n, hn, hr, ht⟩ => ?_
  subst ht
  refine ⟨Memory.putRun_wf _ _ h.wf, fun a ha => ?_⟩
  rw [State.outLen_add_toNat hr] at ha
  rw [Memory.get?_putRun, List.length_take, Nat.min_eq_left hn]
  split_ifs with h1
  · rw [List.getElem?_eq_getElem (by rw [List.length_take]; omega)]; rfl
  · exact h.written a (by omega)

theorem State.emit_cap (s : State) (bs : List Byte) (h : s.outLen.toNat ≤ s.outCap.toNat) :
    (s.emit bs).Leaves fun t => t.outLen.toNat ≤ t.outCap.toNat := by
  refine (State.emit_leaves s bs).mono fun t ⟨n, _, hr, ht⟩ => ?_
  subst ht
  rw [State.outLen_add_toNat hr]
  dsimp only
  omega

/-- The bytes of `OUT` at and above `OUT_LEN` are as they were, and `OUT_LEN` does not fall. -/
def KeepsAbove (s t : State) : Prop :=
  s.outLen.toNat ≤ t.outLen.toNat ∧ ∀ a, t.outLen.toNat ≤ a → t.output.get? a = s.output.get? a

theorem KeepsAbove.refl (s : State) : KeepsAbove s s := ⟨Nat.le_refl _, fun _ _ => rfl⟩

theorem KeepsAbove.trans {s t u : State} (h1 : KeepsAbove s t) (h2 : KeepsAbove t u) : KeepsAbove s u :=
  ⟨Nat.le_trans h1.1 h2.1, fun a ha => (h2.2 a ha).trans (h1.2 a (Nat.le_trans h2.1 ha))⟩

theorem State.emit_keepsAbove (s : State) (bs : List Byte) : (s.emit bs).Leaves (KeepsAbove s) := by
  refine (State.emit_leaves s bs).mono fun t ⟨n, hn, hr, ht⟩ => ?_
  subst ht
  have h1 := State.outLen_add_toNat hr
  refine ⟨by dsimp only; omega, fun a ha => ?_⟩
  dsimp only at ha ⊢
  rw [Memory.get?_putRun, if_neg]
  rw [List.length_take]
  omega

/-- An emission that had enough room: what `OUT` holds after it. -/
theorem State.emit_go {s : State} {bs : List Byte} (h : s.outLen.toNat + bs.length ≤ s.outCap.toNat) :
    ∃ t, s.emit bs = .go t ∧ t = { s with output := t.output, outLen := t.outLen } ∧
      t.outLen.toNat = s.outLen.toNat + bs.length ∧
      ∀ a, t.output.get? a =
        if s.outLen.toNat ≤ a ∧ a < s.outLen.toNat + bs.length then bs[a - s.outLen.toNat]?
        else s.output.get? a :=
  ⟨_, State.emit_of_room (by omega), rfl, State.outLen_add_toNat (by omega),
    fun a => Memory.get?_putRun _ _ _ _⟩

/-- Emission after emission: the bytes one after another. -/
theorem State.emit_go_holds {s t : State} {bs cs : List Byte} (ht : s.emit bs = .go t)
    (hl : s.outLen.toNat = cs.length) (h : s.output.Holds 0 cs)
    (hr : s.outLen.toNat + bs.length ≤ s.outCap.toNat) : t.HoldsOutput (cs ++ bs) := by
  obtain ⟨u, hu, _, h1, h2⟩ := State.emit_go hr
  obtain rfl : u = t := by rw [hu] at ht; exact Flow.go.inj ht
  refine ⟨by rw [h1, hl, List.length_append], fun i hi => ?_⟩
  rw [List.length_append] at hi
  rw [h2, hl, Nat.zero_add]
  split_ifs with h3
  · rw [List.getElem_append_right (by omega)]
    exact List.getElem?_eq_getElem _
  · have h4 : i < cs.length := by omega
    rw [List.getElem_append_left h4]
    simpa using h i h4

/-- An emission raises IoFailure only. -/
theorem State.emit_raise {s t : State} {bs : List Byte} {k : ErrKind} (h : s.emit bs = .raise k t) :
    k = .ioFailure := by
  unfold State.emit at h
  dsimp only at h
  split_ifs at h
  exact (Flow.raise.inj h).1.symm

/-! ## The steps -/

theorem writeHeaderA_eq (s : State) :
    writeHeaderA s = ({ s with cr := adpcmRecord s.adN s.cr } : State).emit
      (headerBytes (adpcmRecord s.adN s.cr)) := rfl

theorem writeHeaderP_of_small {s : State} (h : 4 * s.cr.dataSize.toNat + 44 < 2 ^ 32) :
    writeHeaderP s = ({ s with cr := pcmRecord s.cr } : State).emit (headerBytes (pcmRecord s.cr)) := by
  unfold writeHeaderP
  rw [if_neg (by simp only [pcmTooLarge, decide_eq_true_eq]; omega)]

theorem writeHeaderP_of_large {s : State} (h : 2 ^ 32 ≤ 4 * s.cr.dataSize.toNat + 44) :
    writeHeaderP s = .refuse .outputTooLarge := by
  unfold writeHeaderP
  rw [if_pos (by simp only [pcmTooLarge, decide_eq_true_eq]; omega)]

/-- A property of what a writer step leaves, from one of what `emit` leaves that does not depend on the
container record. -/
theorem writer_leaves {P : State → State → Prop} (hcr : ∀ s c, P s { s with cr := c })
    (htr : ∀ s t u, P s t → P t u → P s u) (he : ∀ s bs, (State.emit bs s).Leaves (P s)) (s : State) :
    (writeHeaderA s).Leaves (P s) ∧ (writeDataA s).Leaves (P s) ∧ (writeSmpl s).Leaves (P s) ∧
      (writeHeaderP s).Leaves (P s) ∧ (writeDataP s).Leaves (P s) := by
  refine ⟨(he _ _).mono fun t ht => htr _ _ _ (hcr s _) ht, he _ _, he _ _, ?_, he _ _⟩
  unfold writeHeaderP
  split_ifs
  · trivial
  · exact (he _ _).mono fun t ht => htr _ _ _ (hcr s _) ht

theorem writer_frame (s : State) :
    (writeHeaderA s).Leaves (WriterFrame s) ∧ (writeDataA s).Leaves (WriterFrame s) ∧
      (writeSmpl s).Leaves (WriterFrame s) ∧ (writeHeaderP s).Leaves (WriterFrame s) ∧
      (writeDataP s).Leaves (WriterFrame s) :=
  writer_leaves (P := WriterFrame) (fun _ _ => rfl) (fun _ _ _ => WriterFrame.trans)
    (fun s bs => (State.emit_frame s bs).mono fun t ht => by unfold WriterFrame; rw [ht]) s

/-- Every writer step keeps `OUT` canonical and written up to `OUT_LEN`. -/
theorem writer_ok {s : State} (h : WriterOk s) :
    (writeHeaderA s).Leaves WriterOk ∧ (writeDataA s).Leaves WriterOk ∧ (writeSmpl s).Leaves WriterOk ∧
      (writeHeaderP s).Leaves WriterOk ∧ (writeDataP s).Leaves WriterOk := by
  have := writer_leaves (P := fun s t => WriterOk s → WriterOk t)
    (fun s c h => ⟨h.wf, h.written⟩) (fun _ _ _ f g h => g (f h))
    (fun s bs => by
      have h1 := fun h => State.emit_ok (s := s) bs h
      cases h2 : s.emit bs with
      | go t => exact fun h => by simpa [h2] using h1 h
      | raise k t => exact fun h => by simpa [h2] using h1 h
      | refuse r => trivial) s
  exact ⟨this.1.mono fun _ g => g h, this.2.1.mono fun _ g => g h, this.2.2.1.mono fun _ g => g h,
    this.2.2.2.1.mono fun _ g => g h, this.2.2.2.2.mono fun _ g => g h⟩

theorem writer_keepsAbove (s : State) :
    (writeHeaderA s).Leaves (KeepsAbove s) ∧ (writeDataA s).Leaves (KeepsAbove s) ∧
      (writeSmpl s).Leaves (KeepsAbove s) ∧ (writeHeaderP s).Leaves (KeepsAbove s) ∧
      (writeDataP s).Leaves (KeepsAbove s) :=
  writer_leaves (P := KeepsAbove) (fun _ _ => ⟨Nat.le_refl _, fun _ _ => rfl⟩) (fun _ _ _ => KeepsAbove.trans)
    State.emit_keepsAbove s

/-- `OUT_LEN` within `OUT_CAP` is kept (R206). -/
def CapKept (s t : State) : Prop :=
  s.outLen.toNat ≤ s.outCap.toNat → t.outLen.toNat ≤ t.outCap.toNat

theorem writer_cap (s : State) :
    (writeHeaderA s).Leaves (CapKept s) ∧ (writeDataA s).Leaves (CapKept s) ∧
      (writeSmpl s).Leaves (CapKept s) ∧ (writeHeaderP s).Leaves (CapKept s) ∧
      (writeDataP s).Leaves (CapKept s) :=
  writer_leaves (P := CapKept) (fun _ _ h => h) (fun _ _ _ f g h => g (f h))
    (fun s bs => by
      have h1 := State.emit_cap s bs
      cases h2 : s.emit bs with
      | go t => exact fun h => by simpa [h2] using h1 h
      | raise k t => exact fun h => by simpa [h2] using h1 h
      | refuse r => trivial) s

@[simp] theorem headerBytes_length (cr : ContainerRec) : (headerBytes cr).length = 44 := rfl
@[simp] theorem loopChunkBytes_length (lr : LoopRec) : (loopChunkBytes lr).length = 68 := rfl

@[simp] theorem samplesToBytes_length (xs : List Sample) : (samplesToBytes xs).length = 2 * xs.length := by
  simp [samplesToBytes, List.length_flatMap, Nat.mul_comm]

end Sys2Proof.Machine
end

