-- ==== Sys2Proof/Laws/Commands.lean ====
section
/-!
SUPPORT. The bodies of the commands: what each may write (`BodyFrame`), and that each keeps the memories
canonical, `STEP` in range, `POS` within its width and `OUT` written up to `OUT_LEN` (`BodyOk`).
-/

namespace Sys2Proof.Machine

/-! ## What a body may write -/

/-- A command's body writes neither the host's registers, nor `IN`, nor the report registers
`STATUS`, `ERR`, `OUT_VALID`, nor the model's own fields. -/
def BodyFrame (s t : State) : Prop :=
  t = { s with
    codec := t.codec, cr := t.cr, lr := t.lr, pos := t.pos, flags := t.flags
    pcmN := t.pcmN, adN := t.adN, chN := t.chN, bufv := t.bufv
    pcmbuf := t.pcmbuf, adbuf := t.adbuf, chl := t.chl, chr := t.chr
    output := t.output, outLen := t.outLen }

theorem BodyFrame.refl (s : State) : BodyFrame s s := rfl

theorem BodyFrame.trans {s t u : State} (h1 : BodyFrame s t) (h2 : BodyFrame t u) : BodyFrame s u := by
  unfold BodyFrame at *
  rw [h1] at h2
  exact h2

theorem ReaderFrame.body {s t : State} (h : ReaderFrame s t) : BodyFrame s t := by
  unfold BodyFrame; rw [h]

theorem WriterFrame.body {s t : State} (h : WriterFrame s t) : BodyFrame s t := by
  unfold BodyFrame; rw [h]

theorem BodyFrame.inLen {s t : State} (h : BodyFrame s t) : t.inLen = s.inLen := by rw [h]
theorem BodyFrame.input {s t : State} (h : BodyFrame s t) : t.input = s.input := by rw [h]
theorem BodyFrame.inPresent {s t : State} (h : BodyFrame s t) : t.inPresent = s.inPresent := by rw [h]
theorem BodyFrame.outCap {s t : State} (h : BodyFrame s t) : t.outCap = s.outCap := by rw [h]
theorem BodyFrame.outValid {s t : State} (h : BodyFrame s t) : t.outValid = s.outValid := by rw [h]
theorem BodyFrame.status {s t : State} (h : BodyFrame s t) : t.status = s.status := by rw [h]
theorem BodyFrame.err {s t : State} (h : BodyFrame s t) : t.err = s.err := by rw [h]
theorem BodyFrame.issue {s t : State} (h : BodyFrame s t) : t.issue = s.issue := by rw [h]
theorem BodyFrame.result {s t : State} (h : BodyFrame s t) : t.result = s.result := by rw [h]
theorem BodyFrame.cmd {s t : State} (h : BodyFrame s t) : t.cmd = s.cmd := by rw [h]
theorem BodyFrame.cmdReads {s t : State} (h : BodyFrame s t) : t.cmdReads = s.cmdReads := by rw [h]

/-- The codec part of a conversion writes the codec registers and the work buffers with their lengths. -/
def CodecFrame (s t : State) : Prop :=
  t = { s with
    codec := t.codec, pcmN := t.pcmN, adN := t.adN, chN := t.chN
    pcmbuf := t.pcmbuf, adbuf := t.adbuf, chl := t.chl, chr := t.chr }

theorem CodecFrame.body {s t : State} (h : CodecFrame s t) : BodyFrame s t := by
  unfold BodyFrame; rw [h]

/-! ## The codec part of the conversions -/

/-- What the codec part of CONV.T leaves (R221, R230). -/
theorem encodePayload_go {s t : State} (h : encodePayload s = .go t) :
    s.cr.dataSize ≠ 0 ∧
    ((s.cr.channels = 1 ∧ s.cr.dataSize.toNat % 4 = 0 ∧ ∃ k bs,
        encodeAll (s.pcmSlice s.pcmN.toNat) = .ok (k, bs) ∧
        t = { s with
          codec := k, adbuf := s.adbuf.load bs, adN := BitVec.ofNat 32 (s.cr.dataSize.toNat / 4) }) ∨
      (s.cr.channels ≠ 1 ∧ s.cr.dataSize.toNat % 8 = 0 ∧ ∃ ls rs k0 left k right,
        deinterleave (s.pcmSlice s.pcmN.toNat) = .ok (ls, rs) ∧
        encodeAll ls = .ok (k0, left) ∧ encodeAll rs = .ok (k, right) ∧
        t = { s with
          codec := k, chl := s.chl.load ls, chr := s.chr.load rs, chN := s.pcmN / 2
          adbuf := s.adbuf.load (left ++ right)
          adN := BitVec.ofNat 32 (s.cr.dataSize.toNat / 4) })) := by
  unfold encodePayload at h
  dsimp only at h
  split_ifs at h with h1 h2 h3 h2 h3
  · cases he : encodeAll (s.pcmSlice s.pcmN.toNat) with
    | error r => simp [he] at h
    | ok p =>
      obtain ⟨k, bs⟩ := p
      simp only [he, Flow.withValue_ok, Flow.go.injEq] at h
      exact ⟨by rintro h0; simp [h0] at h2, .inl ⟨h1, by omega, k, bs, rfl, h.symm⟩⟩
  · cases hd : deinterleave (s.pcmSlice s.pcmN.toNat) with
    | error r => simp [hd] at h
    | ok p =>
      obtain ⟨ls, rs⟩ := p
      simp only [hd, Flow.withValue_ok] at h
      cases hl : encodeAll ls with
      | error r => simp [hl] at h
      | ok p =>
        obtain ⟨k0, left⟩ := p
        simp only [hl, Flow.withValue_ok] at h
        cases hr : encodeAll rs with
        | error r => simp [hr] at h
        | ok p =>
          obtain ⟨k, right⟩ := p
          simp only [hr, Flow.withValue_ok, Flow.go.injEq] at h
          exact ⟨by rintro h0; simp [h0] at h2,
            .inr ⟨h1, by omega, ls, rs, k0, left, k, right, rfl, hl, hr, h.symm⟩⟩

theorem encodePayload_not_raise (s t : State) (k : ErrKind) : encodePayload s ≠ .raise k t := by
  unfold encodePayload
  dsimp only
  split_ifs
  · simp
  · simp
  · cases encodeAll (s.pcmSlice s.pcmN.toNat) <;> simp
  · simp
  · simp
  · cases deinterleave (s.pcmSlice s.pcmN.toNat) with
    | error r => simp
    | ok p =>
      simp only [Flow.withValue_ok]
      cases encodeAll p.1 with
      | error r => simp
      | ok q =>
        simp only [Flow.withValue_ok]
        cases encodeAll p.2 <;> simp

/-- What the codec part of CONV.F leaves (R222, R230). -/
theorem decodePayload_go {s t : State} (h : decodePayload s = .go t) :
    4 * s.adN.toNat + 44 < 2 ^ 32 ∧ s.adN ≠ 0 ∧
    ((s.cr.channels = 1 ∧ ∃ k xs, decodeAll (s.adSlice s.adN.toNat) = .ok (k, xs) ∧
        t = { s with codec := k, pcmbuf := s.pcmbuf.load xs, pcmN := 2 * s.adN }) ∨
      (s.cr.channels ≠ 1 ∧ s.adN.toNat % 2 = 0 ∧ ∃ ls rs k0 k xs,
        decodeAll ((s.adSlice s.adN.toNat).take (s.adN.toNat / 2)) = .ok (k0, ls) ∧
        decodeAll ((s.adSlice s.adN.toNat).drop (s.adN.toNat / 2)) = .ok (k, rs) ∧
        interleave ls rs = .ok xs ∧
        t = { s with
          codec := k, chl := s.chl.load ls, chr := s.chr.load rs, chN := s.adN
          pcmbuf := s.pcmbuf.load xs, pcmN := 2 * s.adN })) := by
  unfold decodePayload at h
  dsimp only at h
  split_ifs at h with h0 h1 h2 h2 h3
  · simp only [pcmTooLarge, decide_eq_true_eq] at h0
    cases he : decodeAll (s.adSlice s.adN.toNat) with
    | error r => simp [he] at h
    | ok p =>
      obtain ⟨k, xs⟩ := p
      simp only [he, Flow.withValue_ok, Flow.go.injEq] at h
      exact ⟨by omega, by rintro h0; simp [h0] at h2, .inl ⟨h1, k, xs, rfl, h.symm⟩⟩
  · simp only [pcmTooLarge, decide_eq_true_eq] at h0
    cases hl : decodeAll ((s.adSlice s.adN.toNat).take (s.adN.toNat / 2)) with
    | error r => simp [hl] at h
    | ok p =>
      obtain ⟨k0, ls⟩ := p
      simp only [hl, Flow.withValue_ok] at h
      cases hr : decodeAll ((s.adSlice s.adN.toNat).drop (s.adN.toNat / 2)) with
      | error r => simp [hr] at h
      | ok p =>
        obtain ⟨k, rs⟩ := p
        simp only [hr, Flow.withValue_ok] at h
        cases hi : interleave ls rs with
        | error r => simp [hi] at h
        | ok xs =>
          simp only [hi, Flow.withValue_ok, Flow.go.injEq] at h
          exact ⟨by omega, by rintro h0; simp [h0] at h2,
            .inr ⟨h1, by omega, ls, rs, k0, k, xs, rfl, rfl, hi, h.symm⟩⟩

theorem decodePayload_not_raise (s t : State) (k : ErrKind) : decodePayload s ≠ .raise k t := by
  unfold decodePayload
  dsimp only
  split_ifs
  · simp
  · simp
  · cases decodeAll (s.adSlice s.adN.toNat) <;> simp
  · simp
  · simp
  · cases decodeAll ((s.adSlice s.adN.toNat).take (s.adN.toNat / 2)) with
    | error r => simp
    | ok p =>
      simp only [Flow.withValue_ok]
      cases decodeAll ((s.adSlice s.adN.toNat).drop (s.adN.toNat / 2)) with
      | error r => simp
      | ok q =>
        simp only [Flow.withValue_ok]
        cases interleave p.2 q.2 <;> simp

/-- A property of every state a flow that never raises leaves. -/
theorem Flow.leaves_of_go {P : State → Prop} {x : Flow} (hg : ∀ t, x = .go t → P t)
    (hr : ∀ k t, x ≠ .raise k t) : x.Leaves P := by
  cases x with
  | go t => exact hg t rfl
  | raise k t => exact absurd rfl (hr k t)
  | refuse r => trivial

theorem encodePayload_frame (s : State) : (encodePayload s).Leaves (CodecFrame s) := by
  refine Flow.leaves_of_go (fun t ht => ?_) (fun k t => encodePayload_not_raise s t k)
  obtain ⟨_, ⟨_, _, k, bs, _, rfl⟩ | ⟨_, _, _, _, _, _, _, _, _, _, _, rfl⟩⟩ := encodePayload_go ht <;> rfl

theorem decodePayload_frame (s : State) : (decodePayload s).Leaves (CodecFrame s) := by
  refine Flow.leaves_of_go (fun t ht => ?_) (fun k t => decodePayload_not_raise s t k)
  obtain ⟨_, _, ⟨_, k, xs, _, rfl⟩ | ⟨_, _, _, _, _, _, _, _, _, _, rfl⟩⟩ := decodePayload_go ht <;> rfl

/-! ## The unit commands -/

theorem encodeBody_go {s t : State} (h : encodeBody s = .go t) : s.bufv.pcm = true ∧ ∃ k bs,
    encodeAll (s.pcmSlice s.pcmN.toNat) = .ok (k, bs) ∧
    t = { s with
      codec := k, adbuf := s.adbuf.load bs, adN := s.pcmN / 2, bufv := { s.bufv with ad := true } } := by
  unfold encodeBody at h
  split_ifs at h with h1
  cases he : encodeAll (s.pcmSlice s.pcmN.toNat) with
  | error r => simp [he] at h
  | ok p =>
    obtain ⟨k, bs⟩ := p
    simp only [he, Flow.withValue_ok, Flow.go.injEq] at h
    exact ⟨by simpa using h1, k, bs, rfl, h.symm⟩

theorem decodeBody_go {s t : State} (h : decodeBody s = .go t) :
    s.bufv.ad = true ∧ s.adN.toNat < 2 ^ 31 ∧ ∃ k xs,
    decodeAll (s.adSlice s.adN.toNat) = .ok (k, xs) ∧
    t = { s with
      codec := k, pcmbuf := s.pcmbuf.load xs, pcmN := 2 * s.adN
      bufv := { s.bufv with pcm := true } } := by
  unfold decodeBody at h
  split_ifs at h with h1 h2
  cases he : decodeAll (s.adSlice s.adN.toNat) with
  | error r => simp [he] at h
  | ok p =>
    obtain ⟨k, xs⟩ := p
    simp only [he, Flow.withValue_ok, Flow.go.injEq] at h
    exact ⟨by simpa using h1, by omega, k, xs, rfl, h.symm⟩

theorem deintBody_go {s t : State} (h : deintBody s = .go t) : s.bufv.pcm = true ∧ ∃ ls rs,
    deinterleave (s.pcmSlice s.pcmN.toNat) = .ok (ls, rs) ∧
    t = { s with
      chl := s.chl.load ls, chr := s.chr.load rs, chN := s.pcmN / 2
      bufv := { s.bufv with ch := true } } := by
  unfold deintBody at h
  split_ifs at h with h1
  cases he : deinterleave (s.pcmSlice s.pcmN.toNat) with
  | error r => simp [he] at h
  | ok p =>
    obtain ⟨ls, rs⟩ := p
    simp only [he, Flow.withValue_ok, Flow.go.injEq] at h
    exact ⟨by simpa using h1, ls, rs, rfl, h.symm⟩

theorem intlBody_go {s t : State} (h : intlBody s = .go t) :
    s.bufv.ch = true ∧ s.chN.toNat < 2 ^ 31 ∧ ∃ xs,
    interleave (s.chlSlice s.chN.toNat) (s.chrSlice s.chN.toNat) = .ok xs ∧
    t = { s with
      pcmbuf := s.pcmbuf.load xs, pcmN := 2 * s.chN, bufv := { s.bufv with pcm := true } } := by
  unfold intlBody at h
  split_ifs at h with h1 h2
  cases he : interleave (s.chlSlice s.chN.toNat) (s.chrSlice s.chN.toNat) with
  | error r => simp [he] at h
  | ok xs =>
    simp only [he, Flow.withValue_ok, Flow.go.injEq] at h
    exact ⟨by simpa using h1, by omega, xs, rfl, h.symm⟩

theorem encodeBody_not_raise (s t : State) (k : ErrKind) : encodeBody s ≠ .raise k t := by
  unfold encodeBody; split_ifs
  · cases encodeAll (s.pcmSlice s.pcmN.toNat) <;> simp
  · simp

theorem decodeBody_not_raise (s t : State) (k : ErrKind) : decodeBody s ≠ .raise k t := by
  unfold decodeBody; split_ifs
  · simp
  · cases decodeAll (s.adSlice s.adN.toNat) <;> simp
  · simp

theorem deintBody_not_raise (s t : State) (k : ErrKind) : deintBody s ≠ .raise k t := by
  unfold deintBody; split_ifs
  · cases deinterleave (s.pcmSlice s.pcmN.toNat) <;> simp
  · simp

theorem intlBody_not_raise (s t : State) (k : ErrKind) : intlBody s ≠ .raise k t := by
  unfold intlBody; split_ifs
  · simp
  · cases interleave (s.chlSlice s.chN.toNat) (s.chrSlice s.chN.toNat) <;> simp
  · simp

/-- The bodies of the unit commands leave `CR`, `LR`, `POS`, `FLAGS`, `OUT` and `OUT_LEN` alone. -/
def UnitFrame (s t : State) : Prop :=
  t = { s with
    codec := t.codec, pcmN := t.pcmN, adN := t.adN, chN := t.chN, bufv := t.bufv
    pcmbuf := t.pcmbuf, adbuf := t.adbuf, chl := t.chl, chr := t.chr }

theorem UnitFrame.body {s t : State} (h : UnitFrame s t) : BodyFrame s t := by
  unfold BodyFrame; rw [h]

theorem encodeBody_frame (s : State) : (encodeBody s).Leaves (UnitFrame s) := by
  refine Flow.leaves_of_go (fun t ht => ?_) (fun k t => encodeBody_not_raise s t k)
  obtain ⟨_, _, _, _, rfl⟩ := encodeBody_go ht; rfl

theorem decodeBody_frame (s : State) : (decodeBody s).Leaves (UnitFrame s) := by
  refine Flow.leaves_of_go (fun t ht => ?_) (fun k t => decodeBody_not_raise s t k)
  obtain ⟨_, _, _, _, _, rfl⟩ := decodeBody_go ht; rfl

theorem deintBody_frame (s : State) : (deintBody s).Leaves (UnitFrame s) := by
  refine Flow.leaves_of_go (fun t ht => ?_) (fun k t => deintBody_not_raise s t k)
  obtain ⟨_, _, _, _, rfl⟩ := deintBody_go ht; rfl

theorem intlBody_frame (s : State) : (intlBody s).Leaves (UnitFrame s) := by
  refine Flow.leaves_of_go (fun t ht => ?_) (fun k t => intlBody_not_raise s t k)
  obtain ⟨_, _, _, _, rfl⟩ := intlBody_go ht; rfl

/-! ## The bodies of the conversions -/

theorem writeAdpcmFile_frame (s : State) : (writeAdpcmFile s).Leaves (WriterFrame s) := by
  refine (writer_frame s).1.andThen (fun t ht => ?_) fun _ h => h
  refine ((writer_frame t).2.1.mono fun _ h => ht.trans h).andThen (fun u hu => ?_) fun _ h => h
  split_ifs
  · exact (writer_frame u).2.2.1.mono fun _ h => hu.trans h
  · exact hu

theorem convTBody_frame (s : State) : (convTBody s).Leaves (BodyFrame s) := by
  unfold convTBody
  split_ifs
  rotate_left
  · exact BodyFrame.refl s
  · refine ((readRiff_frame s).mono fun _ h => h.body).andThen (fun t ht => ?_) fun _ h => h
    refine ((walk_frame t).mono fun _ h => ht.trans h.body).andThen (fun u hu => ?_) fun _ h => h
    refine ((encodePayload_frame u).mono fun _ h => hu.trans h.body).andThen (fun v hv => ?_) fun _ h => h
    exact (writeAdpcmFile_frame v).mono fun _ h => hv.trans h.body

theorem convFBody_frame (c : Bool) (s : State) : (convFBody c s).Leaves (BodyFrame s) := by
  unfold convFBody
  split_ifs
  rotate_left
  · exact BodyFrame.refl s
  · refine ((readHeader_frame c s).mono fun _ h => h.body).andThen (fun t ht => ?_) fun _ h => h
    refine ((readPayload_frame t).mono fun _ h => ht.trans h.body).andThen (fun u hu => ?_) fun _ h => h
    refine ((decodePayload_frame u).mono fun _ h => hu.trans h.body).andThen (fun v hv => ?_) fun _ h => h
    refine ((writer_frame v).2.2.2.1.mono fun _ h => hv.trans h.body).andThen (fun w hw => ?_) fun _ h => h
    exact (writer_frame w).2.2.2.2.mono fun _ h => hw.trans h.body

/-! ## What a body keeps -/

/-- The part of the invariant that a body keeps. -/
structure BodyOk (s : State) : Prop where
  memories : s.MemoriesWf
  codec : s.codec.InRange
  pos : s.pos < 2 ^ 33 + 8
  output : s.OutputWritten

theorem BodyOk.writer {s : State} (h : BodyOk s) : WriterOk s := ⟨h.memories.2.1, h.output⟩
theorem BodyOk.reader {s : State} (h : BodyOk s) : ReaderOk s :=
  ⟨h.memories.2.2.1, h.memories.2.2.2.1, h.pos⟩

theorem BodyOk.of_writer {s t : State} (h : BodyOk s) (hf : WriterFrame s t) (hw : WriterOk t) :
    BodyOk t where
  memories := by
    obtain ⟨h1, _, h3, h4, h5, h6⟩ := h.memories
    exact ⟨hf.input ▸ h1, hw.wf, hf.pcmbuf ▸ h3, hf.adbuf ▸ h4, hf.chl ▸ h5, hf.chr ▸ h6⟩
  codec := hf.codec ▸ h.codec
  pos := hf.pos ▸ h.pos
  output := hw.written

theorem BodyOk.of_reader {s t : State} (h : BodyOk s) (hf : ReaderFrame s t) (hr : ReaderOk t) :
    BodyOk t where
  memories := by
    obtain ⟨h1, h2, _, _, h5, h6⟩ := h.memories
    exact ⟨hf.input ▸ h1, hf.output ▸ h2, hr.pcm, hr.ad, hf.chl ▸ h5, hf.chr ▸ h6⟩
  codec := hf.codec ▸ h.codec
  pos := hr.pos
  output := by
    have := h.output
    unfold State.OutputWritten at *
    rw [hf.outLen, hf.output]
    exact this

theorem encodeAll_inRange {xs : List Sample} {k : Codec} {bs : List Byte}
    (h : encodeAll xs = .ok (k, bs)) : k.InRange := by
  obtain ⟨_, _, h⟩ := encodeAll_cases h
  have := encodeStream_inRange Codec.initial xs initial_inRange
  rw [← h] at this
  exact this

theorem decodeAll_inRange {bs : List Byte} {k : Codec} {xs : List Sample}
    (h : decodeAll bs = .ok (k, xs)) : k.InRange := by
  obtain ⟨_, h⟩ := decodeAll_cases h
  have := decodeStream_inRange Codec.initial bs initial_inRange
  rw [← h] at this
  exact this

theorem encodePayload_ok {s : State} (h : BodyOk s) : (encodePayload s).Leaves BodyOk := by
  obtain ⟨h1, h2, h3, h4, h5, h6⟩ := h.memories
  refine Flow.leaves_of_go (fun t ht => ?_) (fun k t => encodePayload_not_raise s t k)
  obtain ⟨_, ⟨_, _, k, bs, he, rfl⟩ | ⟨_, _, ls, rs, k0, left, k, right, _, _, he, rfl⟩⟩ :=
    encodePayload_go ht
  · exact ⟨⟨h1, h2, h3, Memory.ofRun_wf _ _, h5, h6⟩, encodeAll_inRange he, h.pos, h.output⟩
  · exact ⟨⟨h1, h2, h3, Memory.ofRun_wf _ _, Memory.ofRun_wf _ _, Memory.ofRun_wf _ _⟩,
      encodeAll_inRange he, h.pos, h.output⟩

theorem decodePayload_ok {s : State} (h : BodyOk s) : (decodePayload s).Leaves BodyOk := by
  obtain ⟨h1, h2, h3, h4, h5, h6⟩ := h.memories
  refine Flow.leaves_of_go (fun t ht => ?_) (fun k t => decodePayload_not_raise s t k)
  obtain ⟨_, _, ⟨_, k, xs, he, rfl⟩ | ⟨_, _, ls, rs, k0, k, xs, _, he, _, rfl⟩⟩ := decodePayload_go ht
  · exact ⟨⟨h1, h2, Memory.ofRun_wf _ _, h4, h5, h6⟩, decodeAll_inRange he, h.pos, h.output⟩
  · exact ⟨⟨h1, h2, Memory.ofRun_wf _ _, h4, Memory.ofRun_wf _ _, Memory.ofRun_wf _ _⟩,
      decodeAll_inRange he, h.pos, h.output⟩

theorem encodeBody_ok {s : State} (h : BodyOk s) : (encodeBody s).Leaves BodyOk := by
  obtain ⟨h1, h2, h3, h4, h5, h6⟩ := h.memories
  refine Flow.leaves_of_go (fun t ht => ?_) (fun k t => encodeBody_not_raise s t k)
  obtain ⟨_, _, _, he, rfl⟩ := encodeBody_go ht
  exact ⟨⟨h1, h2, h3, Memory.ofRun_wf _ _, h5, h6⟩, encodeAll_inRange he, h.pos, h.output⟩

theorem decodeBody_ok {s : State} (h : BodyOk s) : (decodeBody s).Leaves BodyOk := by
  obtain ⟨h1, h2, h3, h4, h5, h6⟩ := h.memories
  refine Flow.leaves_of_go (fun t ht => ?_) (fun k t => decodeBody_not_raise s t k)
  obtain ⟨_, _, _, _, he, rfl⟩ := decodeBody_go ht
  exact ⟨⟨h1, h2, Memory.ofRun_wf _ _, h4, h5, h6⟩, decodeAll_inRange he, h.pos, h.output⟩

theorem deintBody_ok {s : State} (h : BodyOk s) : (deintBody s).Leaves BodyOk := by
  obtain ⟨h1, h2, h3, h4, h5, h6⟩ := h.memories
  refine Flow.leaves_of_go (fun t ht => ?_) (fun k t => deintBody_not_raise s t k)
  obtain ⟨_, _, _, _, rfl⟩ := deintBody_go ht
  exact ⟨⟨h1, h2, h3, h4, Memory.ofRun_wf _ _, Memory.ofRun_wf _ _⟩, h.codec, h.pos, h.output⟩

theorem intlBody_ok {s : State} (h : BodyOk s) : (intlBody s).Leaves BodyOk := by
  obtain ⟨h1, h2, h3, h4, h5, h6⟩ := h.memories
  refine Flow.leaves_of_go (fun t ht => ?_) (fun k t => intlBody_not_raise s t k)
  obtain ⟨_, _, _, _, rfl⟩ := intlBody_go ht
  exact ⟨⟨h1, h2, Memory.ofRun_wf _ _, h4, h5, h6⟩, h.codec, h.pos, h.output⟩

theorem readRiff_bodyOk {s : State} (h : BodyOk s) : (readRiff s).Leaves BodyOk :=
  ((readRiff_frame s).and (readRiff_ok h.reader)).mono fun _ ht => h.of_reader ht.1 ht.2

theorem walk_bodyOk {s : State} (h : BodyOk s) : (walk s).Leaves BodyOk :=
  ((walk_frame s).and (walk_ok h.reader)).mono fun _ ht => h.of_reader ht.1 ht.2

theorem walkEnd_bodyOk {s : State} (h : BodyOk s) : (walkEnd s).Leaves BodyOk :=
  ((walkEnd_frame s).and (walkEnd_ok h.reader)).mono fun _ ht => h.of_reader ht.1 ht.2

theorem chunkFmt_bodyOk {s : State} (len : U32) (h : BodyOk s) : (chunkFmt len s).Leaves BodyOk :=
  ((chunkFmt_frame len s).and (chunkFmt_ok len h.reader)).mono fun _ ht => h.of_reader ht.1 ht.2

theorem chunkData_bodyOk {s : State} (len : U32) (h : BodyOk s) : (chunkData len s).Leaves BodyOk :=
  ((chunkData_frame len s).and (chunkData_ok len h.reader)).mono fun _ ht => h.of_reader ht.1 ht.2

theorem chunkSmpl_bodyOk {s : State} (len : U32) (h : BodyOk s) : (chunkSmpl len s).Leaves BodyOk :=
  ((chunkSmpl_frame len s).and (chunkSmpl_ok len h.reader)).mono fun _ ht => h.of_reader ht.1 ht.2

theorem readHeader_bodyOk {s : State} (c : Bool) (h : BodyOk s) : (readHeader c s).Leaves BodyOk :=
  ((readHeader_frame c s).and (readHeader_ok c h.reader)).mono fun _ ht => h.of_reader ht.1 ht.2

theorem readPayload_bodyOk {s : State} (h : BodyOk s) : (readPayload s).Leaves BodyOk :=
  ((readPayload_frame s).and (readPayload_ok h.reader)).mono fun _ ht => h.of_reader ht.1 ht.2

/-- Every writer step keeps `BodyOk`. -/
theorem writer_bodyOk {s : State} (h : BodyOk s) :
    (writeHeaderA s).Leaves BodyOk ∧ (writeDataA s).Leaves BodyOk ∧ (writeSmpl s).Leaves BodyOk ∧
      (writeHeaderP s).Leaves BodyOk ∧ (writeDataP s).Leaves BodyOk := by
  obtain ⟨f1, f2, f3, f4, f5⟩ := writer_frame s
  obtain ⟨k1, k2, k3, k4, k5⟩ := writer_ok h.writer
  exact ⟨(f1.and k1).mono fun _ ht => h.of_writer ht.1 ht.2,
    (f2.and k2).mono fun _ ht => h.of_writer ht.1 ht.2,
    (f3.and k3).mono fun _ ht => h.of_writer ht.1 ht.2,
    (f4.and k4).mono fun _ ht => h.of_writer ht.1 ht.2,
    (f5.and k5).mono fun _ ht => h.of_writer ht.1 ht.2⟩

theorem writeAdpcmFile_ok {s : State} (h : BodyOk s) : (writeAdpcmFile s).Leaves BodyOk := by
  refine (writer_bodyOk h).1.andThen' fun t ht => (writer_bodyOk ht).2.1.andThen' fun u hu => ?_
  split_ifs
  · exact (writer_bodyOk hu).2.2.1
  · exact hu

theorem convTBody_ok {s : State} (h : BodyOk s) : (convTBody s).Leaves BodyOk := by
  unfold convTBody
  split_ifs
  rotate_left
  · exact h
  · exact (readRiff_bodyOk h).andThen' fun t ht => (walk_bodyOk ht).andThen' fun u hu =>
      (encodePayload_ok hu).andThen' fun v hv => writeAdpcmFile_ok hv

theorem convFBody_ok {s : State} (c : Bool) (h : BodyOk s) : (convFBody c s).Leaves BodyOk := by
  unfold convFBody
  split_ifs
  rotate_left
  · exact h
  · exact (readHeader_bodyOk c h).andThen' fun t ht => (readPayload_bodyOk ht).andThen' fun u hu =>
      (decodePayload_ok hu).andThen' fun v hv => (writer_bodyOk hv).2.2.2.1.andThen' fun w hw =>
        (writer_bodyOk hw).2.2.2.2

theorem initialise_ok {s : State} (conv : Bool) (h : BodyOk s) : BodyOk (s.initialise conv) where
  memories := by simpa [State.MemoriesWf] using h.memories
  codec := by simpa using h.codec
  pos := by simp
  output := by intro a ha; simp at ha

theorem succeed_ok {s : State} (conv : Bool) (h : BodyOk s) : BodyOk (s.succeed conv) where
  memories := by
    obtain ⟨h1, h2, h3, h4, h5, h6⟩ := h.memories
    cases conv
    · exact ⟨h1, h2, h3, h4, h5, h6⟩
    · exact ⟨h1, h2, List.Pairwise.nil, List.Pairwise.nil, List.Pairwise.nil, List.Pairwise.nil⟩
  codec := by simpa using h.codec
  pos := by simpa using h.pos
  output := by simpa [State.OutputWritten] using h.output

theorem abort_ok {s : State} (conv : Bool) (k : ErrKind) (h : BodyOk s) : BodyOk (s.abort conv k) where
  memories := by
    obtain ⟨h1, h2, h3, h4, h5, h6⟩ := h.memories
    cases conv
    · exact ⟨h1, h2, h3, h4, h5, h6⟩
    · exact ⟨h1, h2, List.Pairwise.nil, List.Pairwise.nil, List.Pairwise.nil, List.Pairwise.nil⟩
  codec := by simpa using h.codec
  pos := by simpa using h.pos
  output := by simpa [State.OutputWritten] using h.output

end Sys2Proof.Machine
end

