-- ==== Sys2Proof/Laws/Container.lean ====
section
/-!
SUPPORT. The two readers on a file that starts with a fixed 44-byte header (R79): what the header's bytes
read as, how RD.RIFF and WALK reach the end of the `data` chunk, what RD.HDR captures; and two emissions
in a row.
-/

namespace Sys2Proof.Machine

/-- The header's fields as the readers read them. -/
structure HeaderRead (s : State) (cr : ContainerRec) : Prop where
  riff : s.memRead 0 4 = tagRiff
  totalSize : s.rd32 4 = cr.totalSize
  wave : s.memRead 8 4 = tagWave
  fmt : s.memRead 12 4 = tagFmt
  fmtId : s.rd32 12 = 0x20746D66
  fmtSize : s.rd32 16 = cr.fmtSize
  format : s.rd16 20 = cr.format
  channels : s.rd16 22 = cr.channels
  rate : s.rd32 24 = cr.rate
  byteRate : s.rd32 28 = cr.byteRate
  blockAlign : s.rd16 32 = cr.blockAlign
  bits : s.rd16 34 = cr.bits
  data : s.memRead 36 4 = tagData
  dataId : s.rd32 36 = 0x61746164
  dataSize : s.rd32 40 = cr.dataSize

theorem State.inByte_of_get {s : State} {bs : List Byte} (h : s.input.Holds 0 bs) (a : Nat) {v : Byte}
    (hv : bs[a]? = some v) : s.inByte a = v := by
  obtain ⟨h1, h2⟩ := List.getElem?_eq_some_iff.1 hv
  rw [State.inByte_of_holds h h1, h2]

/-- A u32 field whose four bytes stand at `a`. -/
theorem State.rd32_of_get {s : State} {bs : List Byte} (h : s.input.Holds 0 bs) {a : Nat} {v : U32}
    (h0 : bs[a]? = some (v.extractLsb' 0 8)) (h1 : bs[a + 1]? = some (v.extractLsb' 8 8))
    (h2 : bs[a + 2]? = some (v.extractLsb' 16 8)) (h3 : bs[a + 3]? = some (v.extractLsb' 24 8)) :
    s.rd32 a = v := by
  unfold State.rd32
  rw [s.inByte_of_get h a h0, s.inByte_of_get h _ h1, s.inByte_of_get h _ h2, s.inByte_of_get h _ h3]
  exact le32_split v

/-- A u16 field whose two bytes stand at `a`. -/
theorem State.rd16_of_get {s : State} {bs : List Byte} (h : s.input.Holds 0 bs) {a : Nat} {v : U16}
    (h0 : bs[a]? = some (v.extractLsb' 0 8)) (h1 : bs[a + 1]? = some (v.extractLsb' 8 8)) :
    s.rd16 a = v := by
  unfold State.rd16
  rw [s.inByte_of_get h a h0, s.inByte_of_get h _ h1]
  exact le16_split v

/-- Four bytes at `a`. -/
theorem State.memRead_four {s : State} {bs : List Byte} (h : s.input.Holds 0 bs) {a : Nat}
    {b0 b1 b2 b3 : Byte} (h0 : bs[a]? = some b0) (h1 : bs[a + 1]? = some b1)
    (h2 : bs[a + 2]? = some b2) (h3 : bs[a + 3]? = some b3) : s.memRead a 4 = [b0, b1, b2, b3] := by
  change [s.inByte a, s.inByte (a + 1), s.inByte (a + 2), s.inByte (a + 3)] = _
  rw [s.inByte_of_get h a h0, s.inByte_of_get h _ h1, s.inByte_of_get h _ h2, s.inByte_of_get h _ h3]

theorem headerRead_of_holds {s : State} {cr : ContainerRec} {rest : List Byte}
    (h : s.input.Holds 0 (headerBytes cr ++ rest)) : HeaderRead s cr := by
  simp only [headerBytes, tagRiff, tagWave, tagFmt, tagData, u32bytes, u16bytes, List.cons_append,
    List.nil_append] at h
  exact {
    riff := s.memRead_four h rfl rfl rfl rfl
    totalSize := s.rd32_of_get h rfl rfl rfl rfl
    wave := s.memRead_four h rfl rfl rfl rfl
    fmt := s.memRead_four h rfl rfl rfl rfl
    fmtId := s.rd32_of_get h rfl rfl rfl rfl
    fmtSize := s.rd32_of_get h rfl rfl rfl rfl
    format := s.rd16_of_get h rfl rfl
    channels := s.rd16_of_get h rfl rfl
    rate := s.rd32_of_get h rfl rfl rfl rfl
    byteRate := s.rd32_of_get h rfl rfl rfl rfl
    blockAlign := s.rd16_of_get h rfl rfl
    bits := s.rd16_of_get h rfl rfl
    data := s.memRead_four h rfl rfl rfl rfl
    dataId := s.rd32_of_get h rfl rfl rfl rfl
    dataSize := s.rd32_of_get h rfl rfl rfl rfl }

/-- RD.RIFF and the first two turns of WALK on a fixed-form PCM file: the payload is loaded and the walk
stands behind it. -/
theorem readRiff_walk_of_header {s : State} {cr : ContainerRec} {xs : List Sample}
    (h : HeaderRead s cr) (hs : cr.fmtSize = 16) (hf : cr.format = 1)
    (hc : channelsOk cr.channels = true) (ha : cr.blockAlign = 2) (hflags : s.flags = {})
    (hlen : 44 + cr.dataSize.toNat ≤ s.inLen.toNat)
    (hx : s.rdSamples 44 (cr.dataSize.toNat / 2) = xs) :
    (readRiff s).andThen walk = walk { s with
      pos := 44 + cr.dataSize.toNat
      cr := cr
      flags := { fmtSeen := true, dataSeen := true }
      pcmN := cr.dataSize / 2
      pcmbuf := s.pcmbuf.load xs } := by
  have r1 : readRiff s = .go { s with cr := { s.cr with totalSize := cr.totalSize }, pos := 12 } := by
    unfold readRiff
    rw [if_neg (by omega), if_neg (by simp [h.riff]), if_neg (by simp [h.wave]), h.totalSize]
  rw [r1, Flow.go_andThen, walk_turn (by dsimp only; omega)]
  generalize hs1 : ({ s with cr := { s.cr with totalSize := cr.totalSize }, pos := 12 } : State) = s1
  have e32 : ∀ a, s1.rd32 a = s.rd32 a := fun a => by subst hs1; rfl
  have e16 : ∀ a, s1.rd16 a = s.rd16 a := fun a => by subst hs1; rfl
  have ep : s1.pos = 12 := by subst hs1; rfl
  have el : s1.inLen = s.inLen := by subst hs1; rfl
  rw [ep, e32, e32, h.fmtId, show chunkKind 0x20746D66 = .fmt by decide]
  dsimp only
  rw [h.fmtSize, hs]
  have f1 : chunkFmt 16 s1 =
      .go { captureFormat 16 s1 with flags := { s1.flags with fmtSeen := true } } := by
    unfold chunkFmt
    rw [if_neg (by subst hs1; simp [hflags]), if_neg (by decide), if_neg (by rw [ep, el]; omega)]
    dsimp only
    rw [if_neg (by simp [captureFormat, ep, e16, h.format, hf]), if_neg]
    · rfl
    · rw [not_not]
      change channelsOk (s1.rd16 (s1.pos + 8 + 2)) = true
      rw [ep, e16, h.channels]; exact hc
  rw [f1, Flow.go_andThen]
  generalize hs2 : State.seek 16
    ({ captureFormat 16 s1 with flags := { s1.flags with fmtSeen := true } } : State) = s2
  have e2 : s2 = { s with
      pos := 36, cr := { cr with dataSize := s.cr.dataSize }, flags := { fmtSeen := true } } := by
    subst hs2
    have : captureFormat 16 s1 = { s1 with cr := { s1.cr with
        fmtSize := cr.fmtSize, format := cr.format, channels := cr.channels, rate := cr.rate
        byteRate := cr.byteRate, blockAlign := cr.blockAlign, bits := cr.bits } } := by
      unfold captureFormat
      dsimp only
      rw [ep, e16, e16, e32, e32, e16, e16, h.format, h.channels, h.rate, h.byteRate, h.blockAlign,
        h.bits, hs]
    rw [this]
    subst hs1
    simp [State.seek, hflags]
  rw [walk_turn (by rw [e2]; dsimp only; omega)]
  have ep2 : s2.pos = 36 := by rw [e2]
  have g32 : ∀ a, s2.rd32 a = s.rd32 a := fun a => by rw [e2]; rfl
  rw [ep2, g32, g32, h.dataId, show chunkKind 0x61746164 = .data by decide]
  dsimp only
  rw [h.dataSize]
  unfold chunkData
  rw [if_neg (by rw [e2]; simp), if_neg (by rw [e2]; simp), if_neg (by rw [e2]; simp [ha]),
    if_neg (by rw [e2]; dsimp only; omega), Flow.go_andThen]
  have hx2 : s2.rdSamples (s2.pos + 8) (cr.dataSize.toNat / 2) = xs := by
    rw [ep2]; exact (State.rdSamples_congr (by rw [e2]) _ _).trans hx
  rw [hx2]
  subst e2
  rfl

/-- RD.HDR on a fixed-form ADPCM file captures its header. -/
theorem readHeader_of_header {s : State} {cr : ContainerRec} (c : Bool) (h : HeaderRead s cr)
    (hs : cr.fmtSize = 16) (hf : cr.format = 20) (hc : channelsOk cr.channels = true)
    (hb : cr.bits = 4) (hlen : 44 ≤ s.inLen.toNat) : readHeader c s = .go { s with cr := cr } := by
  have e1 : captureTag (captureSizes s) = { s with cr := { s.cr with
      totalSize := cr.totalSize, fmtSize := cr.fmtSize, format := cr.format } } := by
    rw [← h.totalSize, ← h.fmtSize, ← h.format]; rfl
  unfold readHeader
  rw [if_neg (by omega), if_neg (by simp [h.riff]), if_neg (by simp [h.wave]), if_neg (by simp [h.fmt])]
  dsimp only
  rw [if_neg (by simp [captureSizes, h.fmtSize, hs]), e1, if_neg (by simp [hf])]
  unfold readHeaderTail
  dsimp only
  have e2 : captureDataSize (captureRates (captureChannels ({ s with cr := { s.cr with
      totalSize := cr.totalSize, fmtSize := cr.fmtSize, format := cr.format } } : State))) =
      { s with cr := cr } := by
    change ({ s with cr := { cr with
      channels := s.rd16 22, rate := s.rd32 24, byteRate := s.rd32 28, blockAlign := s.rd16 32
      bits := s.rd16 34, dataSize := s.rd32 40 } } : State) = _
    rw [h.channels, h.rate, h.byteRate, h.blockAlign, h.bits, h.dataSize]
  rw [if_neg, if_neg, if_neg, e2]
  · rintro ⟨h1, _⟩; exact h1 h.data
  · rw [not_not]; change s.rd16 34 = 4; rw [h.bits, hb]
  · rw [not_not]; change channelsOk (s.rd16 22) = true; rw [h.channels]; exact hc

/-- Two emissions in a row from an empty output: the bytes one after the other. -/
theorem emit_two {s : State} {a b : List Byte} (h0 : s.outLen = 0)
    (hr : (a ++ b).length ≤ s.outCap.toNat) :
    ∃ t u, s.emit a = .go t ∧ t.emit b = .go u ∧ u.HoldsOutput (a ++ b) ∧
      t = { s with output := t.output, outLen := t.outLen } ∧
      u = { s with output := u.output, outLen := u.outLen } := by
  simp only [List.length_append] at hr
  obtain ⟨t, e1, f1, l1, _⟩ := State.emit_go (s := s) (bs := a) (by rw [h0]; simp; omega)
  rw [h0, show (0 : U32).toNat = 0 from rfl, Nat.zero_add] at l1
  have ho1 := State.emit_go_holds (cs := []) e1 (by rw [h0]; rfl) (by intro i hi; simp at hi)
    (by rw [h0]; simp; omega)
  have c1 : t.outCap = s.outCap := by rw [f1]
  obtain ⟨u, e2, f2, l2, _⟩ := State.emit_go (s := t) (bs := b) (by rw [c1]; omega)
  have ho2 := State.emit_go_holds e2 ho1.1 ho1.2 (by rw [c1]; omega)
  exact ⟨t, u, e1, e2, by simpa using ho2, f1, by rw [f1] at f2; exact f2⟩

end Sys2Proof.Machine
end

