-- ==== Sys2Proof/Laws/HostPort.lean ====
section
/-!
SUPPORT. What a host read can do, and when an element the host sees is the element the buffer holds.
-/

namespace Sys2Proof.Machine

/-- A host read happens while the block is idle, gives the value at its address, and changes nothing but
the count of reads of `CMD`. -/
theorem hostRead_cases {q : HostRead} {s t : State} {v : Nat} (h : hostRead q s = some (v, t)) :
    s.issue = .idle ∧ q.addressable s = true ∧ v = q.value s ∧ t = { s with cmdReads := t.cmdReads } := by
  unfold hostRead at h
  split_ifs at h with hc
  simp only [Option.some.injEq, Prod.mk.injEq] at h
  obtain ⟨rfl, rfl⟩ := h
  refine ⟨hc.1, hc.2, rfl, ?_⟩
  unfold HostRead.after
  split_ifs <;> rfl

@[simp] theorem HostRead.after_of_ne {q : HostRead} (h : q ≠ .reg .cmd) (s : State) : q.after s = s :=
  if_neg h

/-- Below the length of a valid buffer the host sees what the block reads. -/
@[simp] theorem Buf.hostElem_of_valid {α : Type} {free : Nat → Nat → α} {b : Buf α} {len i : U32}
    (h : i < len) : b.hostElem free true len i = b.read free i.toNat := if_pos ⟨rfl, h⟩

end Sys2Proof.Machine
end

