-- ==== Sys2Proof/Laws/PerInstr.lean ====
section
/-!
SUPPORT. A law of every instruction as syntax: its encoding has as many bytes as the format of its place
(R70).
-/

namespace Sys2Proof.Laws.EncodeLength

/-- The encoding is as long as the place's format. -/
def Statement (i : Instr) : Prop := (Sys2Proof.encode i).length = (placeOf i).byteCount

theorem convT : Statement .convT := rfl
theorem convF : Statement .convF := rfl
theorem encode : Statement .encode := rfl
theorem decode : Statement .decode := rfl
theorem deint : Statement .deint := rfl
theorem intl : Statement .intl := rfl
theorem usage (c : Byte) : Statement (.usage c) := rfl
theorem decN0 : Statement .decN0 := rfl
theorem decN1 : Statement .decN1 := rfl
theorem decN2 : Statement .decN2 := rfl
theorem decN3 : Statement .decN3 := rfl
theorem decN4 : Statement .decN4 := rfl
theorem decN5 : Statement .decN5 := rfl
theorem decN6 : Statement .decN6 := rfl
theorem decN7 : Statement .decN7 := rfl
theorem decN8 : Statement .decN8 := rfl
theorem decN9 : Statement .decN9 := rfl
theorem decNA : Statement .decNA := rfl
theorem decNB : Statement .decNB := rfl
theorem decNC : Statement .decNC := rfl
theorem decND : Statement .decND := rfl
theorem decNE : Statement .decNE := rfl
theorem decNF : Statement .decNF := rfl
theorem decB (hi lo : Code) : Statement (.decB hi lo) := rfl
theorem encS (x : Sample) : Statement (.encS x) := rfl
theorem encB (x0 x1 : Sample) : Statement (.encB x0 x1) := rfl
theorem rdRiff : Statement .rdRiff := rfl
theorem walk : Statement .walk := rfl
theorem ckFmt (len : U32) : Statement (.ckFmt len) := rfl
theorem ckData (len : U32) : Statement (.ckData len) := rfl
theorem ckSmpl (len : U32) : Statement (.ckSmpl len) := rfl
theorem ckSkip (id len : U32) : Statement (.ckSkip id len) := rfl
theorem walkEnd : Statement .walkEnd := rfl
theorem rdHdr : Statement .rdHdr := rfl
theorem rdPayload : Statement .rdPayload := rfl
theorem wrHdrA : Statement .wrHdrA := rfl
theorem wrDataA : Statement .wrDataA := rfl
theorem wrSmpl : Statement .wrSmpl := rfl
theorem wrHdrP : Statement .wrHdrP := rfl
theorem wrDataP : Statement .wrDataP := rfl

end Sys2Proof.Laws.EncodeLength
end

