-- ==== Sys2Proof/Tests/Slice0.lean ====
section
/-!
SUPPORT. The author's tests. Expected values are those of spec/95_test_vectors.md (95) and
96_more_test_vectors.md (96); the words of the decode tests are written from 30_encoding.md. The last
part has, for every obligation with hypotheses, a witness that meets them.
-/

namespace Sys2Proof.Tests

open Sys2Proof.Machine Sys2Proof.Claims

-- Each test is checked in turn: many kernel evaluations at once would need many threads.
set_option Elab.async false

/-! ## Helpers -/

/-- The reset state with a capacity, as 95 section 5 takes it. -/
def quiet : State := { State.reset with outCap := 65536 }

/-- The host has loaded a file (R273). -/
def fileState (bs : List Byte) : State :=
  { quiet with input := Memory.ofRun 0 bs, inLen := BitVec.ofNat 32 bs.length, inPresent := true }

/-- A codec state. -/
def codecState (sig : Int) (step : Nat) : State :=
  { quiet with codec := ⟨BitVec.ofInt 16 sig, BitVec.ofNat 16 step⟩ }

/-- Samples from numbers. -/
def samples (xs : List Int) : List Sample := xs.map (BitVec.ofInt 16)

/-- The host has written `PCMBUF`. -/
def pcmState (xs : List Int) : State :=
  { quiet with
    pcmbuf := ⟨Memory.ofRun 0 (samples xs), 0⟩, pcmN := BitVec.ofNat 32 xs.length
    bufv := { pcm := true } }

/-- The host has written `ADBUF`. -/
def adState (bs : List Byte) : State :=
  { quiet with
    adbuf := ⟨Memory.ofRun 0 bs, 0⟩, adN := BitVec.ofNat 32 bs.length, bufv := { ad := true } }

/-- The host has written `CHL` and `CHR`. -/
def chState (ls rs : List Int) : State :=
  { quiet with
    chl := ⟨Memory.ofRun 0 (samples ls), 0⟩, chr := ⟨Memory.ofRun 0 (samples rs), 0⟩
    chN := BitVec.ofNat 32 ls.length, bufv := { ch := true } }

/-- A field or two of the next state. -/
def after {α : Type} (o : Host.Outcome State Fault Refusal) (f : State → α) : Option α :=
  match o with
  | .next t => some (f t)
  | .fault _ => none
  | .refused _ => none

/-- The next state, where there is one. -/
def nextOr (o : Host.Outcome State Fault Refusal) (s : State) : State := (after o id).getD s

/-- The refusal, where there is one. -/
def refusal (o : Host.Outcome State Fault Refusal) : Option Refusal :=
  match o with
  | .next _ => none
  | .fault _ => none
  | .refused r => some r

/-- `OUT[0 .. OUT_LEN)`. -/
def outBytes (t : State) : List Byte := (List.range t.outLen.toNat).map t.outByte

/-- `SIG` and `STEP` as numbers. -/
def sigStep (t : State) : Int × Nat := (t.codec.sig.toInt, t.codec.step.toNat)

/-- What an operation of the codec returned, as numbers, and `SIG`, `STEP`. -/
def decoded (o : Host.Outcome State Fault Refusal) : Option (Result × Int × Nat) :=
  after o fun t => (t.result, sigStep t)

/-- Replace bytes of an image from an offset. -/
def patch (bs : List Byte) (a : Nat) (new : List Byte) : List Byte :=
  bs.take a ++ new ++ bs.drop (a + new.length)

/-- `BASE` (95 section 4). -/
def base : List Byte :=
  [0x52, 0x49, 0x46, 0x46, 0x34, 0x00, 0x00, 0x00, 0x57, 0x41, 0x56, 0x45, 0x66, 0x6D, 0x74, 0x20,
    0x10, 0x00, 0x00, 0x00, 0x01, 0x00, 0x01, 0x00, 0x44, 0xAC, 0x00, 0x00, 0x88, 0x58, 0x01, 0x00,
    0x02, 0x00, 0x10, 0x00, 0x64, 0x61, 0x74, 0x61, 0x10, 0x00, 0x00, 0x00, 0x00, 0x00, 0x64, 0x00,
    0x9C, 0xFF, 0xC8, 0x00, 0x38, 0xFF, 0x2C, 0x01, 0xD4, 0xFE, 0x90, 0x01]

/-- `ADP` (95 section 4). -/
def adp : List Byte :=
  [0x52, 0x49, 0x46, 0x46, 0x28, 0x00, 0x00, 0x00, 0x57, 0x41, 0x56, 0x45, 0x66, 0x6D, 0x74, 0x20,
    0x10, 0x00, 0x00, 0x00, 0x14, 0x00, 0x01, 0x00, 0x44, 0xAC, 0x00, 0x00, 0x88, 0x58, 0x01, 0x00,
    0x02, 0x00, 0x04, 0x00, 0x64, 0x61, 0x74, 0x61, 0x04, 0x00, 0x00, 0x00, 0x20, 0x4E, 0x5C, 0x4C]

/-- The input of P2 (95 section 5). -/
def p2 : List Byte :=
  [0x52, 0x49, 0x46, 0x46, 0x84, 0x00, 0x00, 0x00, 0x57, 0x41, 0x56, 0x45, 0x4C, 0x49, 0x53, 0x54,
    0x04, 0x00, 0x00, 0x00, 0x01, 0x02, 0x03, 0x04, 0x66, 0x6D, 0x74, 0x20, 0x10, 0x00, 0x00, 0x00,
    0x01, 0x00, 0x01, 0x00, 0x44, 0xAC, 0x00, 0x00, 0x88, 0x58, 0x01, 0x00, 0x02, 0x00, 0x10, 0x00,
    0x64, 0x61, 0x74, 0x61, 0x10, 0x00, 0x00, 0x00, 0x00, 0x00, 0x64, 0x00, 0x9C, 0xFF, 0xC8, 0x00,
    0x38, 0xFF, 0x2C, 0x01, 0xD4, 0xFE, 0x90, 0x01, 0x73, 0x6D, 0x70, 0x6C, 0x3C, 0x00, 0x00, 0x00,
    0x00, 0x00, 0x00, 0x00, 0x00, 0x00, 0x00, 0x00, 0x00, 0x00, 0x00, 0x00, 0x00, 0x00, 0x00, 0x00,
    0x00, 0x00, 0x00, 0x00, 0x00, 0x00, 0x00, 0x00, 0x00, 0x00, 0x00, 0x00, 0x00, 0x00, 0x00, 0x00,
    0x00, 0x00, 0x00, 0x00, 0x00, 0x00, 0x00, 0x00, 0x00, 0x00, 0x00, 0x00, 0x02, 0x00, 0x00, 0x00,
    0x64, 0x00, 0x00, 0x00, 0x00, 0x00, 0x00, 0x00, 0x00, 0x00, 0x00, 0x00]

/-- The input of P4 (95 section 5). -/
def p4 : List Byte :=
  [0x52, 0x49, 0x46, 0x46, 0x78, 0x00, 0x00, 0x00, 0x57, 0x41, 0x56, 0x45, 0x66, 0x6D, 0x74, 0x20,
    0x10, 0x00, 0x00, 0x00, 0x01, 0x00, 0x02, 0x00, 0x22, 0x56, 0x00, 0x00, 0x88, 0x58, 0x01, 0x00,
    0x02, 0x00, 0x10, 0x00, 0x64, 0x61, 0x74, 0x61, 0x10, 0x00, 0x00, 0x00, 0x00, 0x00, 0x64, 0x00,
    0x9C, 0xFF, 0xC8, 0x00, 0x38, 0xFF, 0x2C, 0x01, 0xD4, 0xFE, 0x90, 0x01, 0x73, 0x6D, 0x70, 0x6C,
    0x3C, 0x00, 0x00, 0x00, 0x00, 0x00, 0x00, 0x00, 0x00, 0x00, 0x00, 0x00, 0x00, 0x00, 0x00, 0x00,
    0x00, 0x00, 0x00, 0x00, 0x00, 0x00, 0x00, 0x00, 0x00, 0x00, 0x00, 0x00, 0x00, 0x00, 0x00, 0x00,
    0x00, 0x00, 0x00, 0x00, 0x00, 0x00, 0x00, 0x00, 0x00, 0x00, 0x00, 0x00, 0x00, 0x00, 0x00, 0x00,
    0x01, 0x00, 0x00, 0x00, 0x00, 0x00, 0x00, 0x00, 0x00, 0x00, 0x00, 0x00, 0x00, 0x00, 0x00, 0x00]

/-- The output of P4, input of P5 (95 section 5). -/
def p4out : List Byte :=
  [0x52, 0x49, 0x46, 0x46, 0x28, 0x00, 0x00, 0x00, 0x57, 0x41, 0x56, 0x45, 0x66, 0x6D, 0x74, 0x20,
    0x10, 0x00, 0x00, 0x00, 0x14, 0x00, 0x02, 0x00, 0x22, 0x56, 0x00, 0x00, 0x88, 0x58, 0x01, 0x00,
    0x02, 0x00, 0x04, 0x00, 0x64, 0x61, 0x74, 0x61, 0x04, 0x00, 0x00, 0x00, 0xB0, 0xAB, 0x23, 0x33]

/-- The payload of the loop chunk of 95 section 5, P2, and the eight samples of section 3. -/
def scenario : List Int := [0, 100, -100, 200, -200, 300, -300, 400]

/-! ## WellFormed: an ill-formed term for each check -/

theorem test_usage_of_a_command_byte_is_ill_formed :
    (Instr.usage 0x74).wellFormed = false ∧ (Instr.usage 0x01).wellFormed = false ∧
      (Instr.usage 0x78).wellFormed = true := by decide

theorem test_skip_of_a_named_chunk_is_ill_formed :
    (Instr.ckSkip 0x20746D66 4).wellFormed = false ∧ (Instr.ckSkip 0x6C706D73 4).wellFormed = false ∧
      (Instr.ckSkip 0x5453494C 4).wellFormed = true := by decide

/-! ## Decoding: words written out from 30_encoding.md -/

/-- Format C (R82). -/
theorem test_decode_commands :
    decode .command [0b01110100] = .ok .convT ∧ decode .command [0b01100110] = .ok .convF ∧
    decode .command [0b00000001] = .ok .encode ∧ decode .command [0b00000010] = .ok .decode ∧
    decode .command [0b00000011] = .ok .deint ∧ decode .command [0b00000100] = .ok .intl ∧
    decode .command [0b00000000] = .ok (.usage 0) ∧ decode .command [0b01010100] = .ok (.usage 0x54) := by
  decide

/-- Format N (R71), positive codes. -/
theorem test_decode_codes_positive :
    decode .code [0b0000] = .ok .decN0 ∧ decode .code [0b0001] = .ok .decN1 ∧
    decode .code [0b0010] = .ok .decN2 ∧ decode .code [0b0011] = .ok .decN3 ∧
    decode .code [0b0100] = .ok .decN4 ∧ decode .code [0b0101] = .ok .decN5 ∧
    decode .code [0b0110] = .ok .decN6 ∧ decode .code [0b0111] = .ok .decN7 := by decide

/-- Format N (R71), negative codes; a byte with a bit above bit 3 is no code. -/
theorem test_decode_codes_negative :
    decode .code [0b1000] = .ok .decN8 ∧ decode .code [0b1001] = .ok .decN9 ∧
    decode .code [0b1010] = .ok .decNA ∧ decode .code [0b1011] = .ok .decNB ∧
    decode .code [0b1100] = .ok .decNC ∧ decode .code [0b1101] = .ok .decND ∧
    decode .code [0b1110] = .ok .decNE ∧ decode .code [0b1111] = .ok .decNF ∧
    decode .code [0x10] = .error (.notACode 0x10) := by decide

/-- Formats B and S (R74, R75, R103). -/
theorem test_decode_stream_elements :
    decode .packed [0b01001110] = .ok (.decB 4 0xE) ∧
    decode .sample [0x64, 0x00] = .ok (.encS 100) ∧
    decode .sample [0xD4, 0xFE] = .ok (.encS (BitVec.ofInt 16 (-300))) ∧
    decode .pair [0x9C, 0xFF, 0xC8, 0x00] = .ok (.encB (BitVec.ofInt 16 (-100)) 200) := by decide

/-- Format K (R76 to R78): the chunk headers of P2, and a skipped one. -/
theorem test_decode_chunk_headers :
    decode .chunk [0x66, 0x6D, 0x74, 0x20, 0x10, 0x00, 0x00, 0x00] = .ok (.ckFmt 16) ∧
    decode .chunk [0x64, 0x61, 0x74, 0x61, 0x10, 0x00, 0x00, 0x00] = .ok (.ckData 16) ∧
    decode .chunk [0x73, 0x6D, 0x70, 0x6C, 0x3C, 0x00, 0x00, 0x00] = .ok (.ckSmpl 60) ∧
    decode .chunk [0x4C, 0x49, 0x53, 0x54, 0x04, 0x00, 0x00, 0x00] = .ok (.ckSkip 0x5453494C 4) ∧
    decode .chunk [0x46, 0x4D, 0x54, 0x20, 0x00, 0x01, 0x00, 0x00] = .ok (.ckSkip 0x20544D46 256) := by
  decide

/-- The steps without bits of their own (R91). -/
theorem test_decode_sequencer_steps :
    decode (.sequencer .rdRiff) [] = .ok .rdRiff ∧ decode (.sequencer .walk) [] = .ok .walk ∧
    decode (.sequencer .walkEnd) [] = .ok .walkEnd ∧ decode (.sequencer .rdHdr) [] = .ok .rdHdr ∧
    decode (.sequencer .rdPayload) [] = .ok .rdPayload ∧
    decode (.sequencer .wrHdrA) [] = .ok .wrHdrA ∧ decode (.sequencer .wrDataA) [] = .ok .wrDataA ∧
    decode (.sequencer .wrSmpl) [] = .ok .wrSmpl ∧ decode (.sequencer .wrHdrP) [] = .ok .wrHdrP ∧
    decode (.sequencer .wrDataP) [] = .ok .wrDataP ∧
    decode .command [] = .error (.wrongLength .command) := by decide

/-- A few words as spec/opcode_table.json numbers them (R91). -/
theorem test_decode_table_words :
    decodeTableWord 8 0x74 = some .convT ∧ decodeTableWord 8 0x78 = some (.usage 0x78) ∧
    decodeTableWord 4 0xE = some .decNE ∧ decodeTableWord 8 0xE = some .decNE ∧
    decodeTableWord 32 0xFF9C00C8 = some (.encB (BitVec.ofInt 16 (-100)) 200) ∧
    decodeTableWord 0 0 = some .walkEnd ∧ decodeTableWord 16 0xFF9C = some (.encS (BitVec.ofInt 16 (-100))) ∧
    decodeTableWord 64 0x00000010_61746164 = some (.ckData 16) ∧
    decodeTableWord 96 0x45564157_00000000_46464952 = some .rdRiff := by decide +kernel

/-! ## The codec (95 sections 2.1 to 2.3) -/

/-- Rows of 95 section 2.1: the truncating division and the two ends of the sample range. -/
theorem test_encS_truncates :
    decoded (exec (.encS (BitVec.ofInt 16 (-15))) (codecState 0 127)) = some (.code 0, 15, 127) ∧
    decoded (exec (.encS (BitVec.ofInt 16 (-16))) (codecState 0 127)) = some (.code 8, -15, 127) := by
  decide +kernel

theorem test_encS_extremes :
    decoded (exec (.encS (BitVec.ofInt 16 (-32768))) (codecState 32767 24576)) =
      some (.code 0xF, -13313, 24576) ∧
    decoded (exec (.encS 32767) (codecState 32767 24576)) = some (.code 0, 32767, 22080) := by
  decide +kernel

theorem test_encB_packs_low_first :
    decoded (exec (.encB (BitVec.ofInt 16 (-100)) 200) (codecState 94 127)) =
      some (.byte 0x4E, 173, 304) ∧
    decoded (exec (.encB 32767 (BitVec.ofInt 16 (-32768))) (codecState 0 127)) =
      some (.byte 0xF7, -332, 729) := by decide +kernel

theorem test_decB_order :
    decoded (exec (.decB 0x7 0xF) (codecState 0 127)) = some (.samples (samples [-238, 332]), 332, 729) ∧
    decoded (exec (.decB 0xF 0x7) (codecState 0 127)) =
      some (.samples (samples [238, -332]), -332, 729) := by decide +kernel

/-- 95 section 2.2, from (32000, 24576): the upper clamp of the signal and of the step. -/
theorem test_decN_upper_clamp :
    (after (exec .decN0 (codecState 32000 24576)) sigStep = some (32767, 22080) ∧
      after (exec .decN1 (codecState 32000 24576)) sigStep = some (32767, 22080) ∧
      after (exec .decN2 (codecState 32000 24576)) sigStep = some (32767, 22080) ∧
      after (exec .decN3 (codecState 32000 24576)) sigStep = some (32767, 22080)) ∧
    after (exec .decN4 (codecState 32000 24576)) sigStep = some (32767, 24576) ∧
      after (exec .decN5 (codecState 32000 24576)) sigStep = some (32767, 24576) ∧
      after (exec .decN6 (codecState 32000 24576)) sigStep = some (32767, 24576) ∧
      after (exec .decN7 (codecState 32000 24576)) sigStep = some (32767, 24576) := by decide +kernel

theorem test_decN_from_upper_down :
    (after (exec .decN8 (codecState 32000 24576)) sigStep = some (28928, 22080) ∧
      after (exec .decN9 (codecState 32000 24576)) sigStep = some (22784, 22080) ∧
      after (exec .decNA (codecState 32000 24576)) sigStep = some (16640, 22080) ∧
      after (exec .decNB (codecState 32000 24576)) sigStep = some (10496, 22080)) ∧
    after (exec .decNC (codecState 32000 24576)) sigStep = some (4352, 24576) ∧
      after (exec .decND (codecState 32000 24576)) sigStep = some (-1792, 24576) ∧
      after (exec .decNE (codecState 32000 24576)) sigStep = some (-7936, 24576) ∧
      after (exec .decNF (codecState 32000 24576)) sigStep = some (-14080, 24576) := by decide +kernel

/-- 95 section 2.2, from (-5, 128): the division by 8 is exact; the lower clamp of the step. -/
theorem test_decN_exact_division :
    (after (exec .decN0 (codecState (-5) 128)) sigStep = some (11, 127) ∧
      after (exec .decN3 (codecState (-5) 128)) sigStep = some (107, 127) ∧
      after (exec .decN4 (codecState (-5) 128)) sigStep = some (139, 153) ∧
      after (exec .decN6 (codecState (-5) 128)) sigStep = some (203, 256)) ∧
    after (exec .decN8 (codecState (-5) 128)) sigStep = some (-21, 127) ∧
      after (exec .decNB (codecState (-5) 128)) sigStep = some (-117, 127) ∧
      after (exec .decND (codecState (-5) 128)) sigStep = some (-181, 204) ∧
      after (exec .decNF (codecState (-5) 128)) sigStep = some (-245, 307) := by decide +kernel

/-! ## The unit commands (95 section 2.7) -/

theorem test_encode_scenario :
    after (exec .encode (pcmState scenario)) (fun t => (t.adSlice 4, t.adN.toNat, sigStep t)) =
      some ([0x20, 0x4E, 0x5C, 0x4C], 4, 461, 834) := by decide +kernel

theorem test_encode_sets_valid_bit :
    after (exec .encode (pcmState scenario)) (fun t => (t.bufv, t.err, t.status, t.outValid)) =
      some (⟨true, true, false⟩, 0, 0, false) := by decide +kernel

/-- Program P1. -/
theorem test_decode_P1 :
    after (exec .decode (adState [0x20, 0x4E, 0x5C, 0x4C]))
        (fun t => (t.pcmSlice 8, t.pcmN.toNat, t.bufv.bits, sigStep t)) =
      some (samples [15, 94, -112, 173, -169, 331, -322, 461], 8, 3, 461, 834) := by decide +kernel

theorem test_decode_needs_valid_buffer : refusal (exec .decode quiet) = some .bufferInvalid := by
  decide +kernel

theorem test_deint_splits :
    after (exec .deint (pcmState [1, -1, 2, -2, 3, -3]))
        (fun t => (t.chlSlice 3, t.chrSlice 3, t.chN.toNat, sigStep t)) =
      some (samples [1, 2, 3], samples [-1, -2, -3], 3, 0, 127) := by decide +kernel

theorem test_deint_refuses_odd : refusal (exec .deint (pcmState [1, 2, 3])) = some .oddInterleaved := by
  decide +kernel

theorem test_intl_joins :
    after (exec .intl (chState [1, 2, 3] [-1, -2, -3])) (fun t => (t.pcmSlice 6, t.pcmN.toNat, t.bufv)) =
      some (samples [1, -1, 2, -2, 3, -3], 6, ⟨true, false, true⟩) := by decide +kernel

/-- Program E7. -/
theorem test_usage_E7 :
    after (exec (.usage 0x78) (pcmState scenario))
        (fun t => (t.err, t.status, t.pcmN.toNat, t.bufv)) =
      some (6, 0xFFFFFFFF, 8, ⟨true, false, false⟩) := by decide +kernel

/-! ## The conversions (95 section 5) -/

/-- Program P2: the output file. -/
theorem test_convT_P2_output :
    after (exec .convT (fileState p2)) outBytes = some (
      [0x52, 0x49, 0x46, 0x46, 0x28, 0x00, 0x00, 0x00, 0x57, 0x41, 0x56, 0x45, 0x66, 0x6D, 0x74, 0x20,
    0x10, 0x00, 0x00, 0x00, 0x14, 0x00, 0x01, 0x00, 0x44, 0xAC, 0x00, 0x00, 0x88, 0x58, 0x01, 0x00,
    0x02, 0x00, 0x04, 0x00, 0x64, 0x61, 0x74, 0x61, 0x04, 0x00, 0x00, 0x00, 0x20, 0x4E, 0x5C, 0x4C,
    0x73, 0x6D, 0x70, 0x6C, 0x3C, 0x00, 0x00, 0x00, 0x00, 0x00, 0x00, 0x00, 0x00, 0x00, 0x00, 0x00,
    0x00, 0x00, 0x00, 0x00, 0x00, 0x00, 0x00, 0x00, 0x00, 0x00, 0x00, 0x00, 0x00, 0x00, 0x00, 0x00,
    0x00, 0x00, 0x00, 0x00, 0x00, 0x00, 0x00, 0x00, 0x00, 0x00, 0x00, 0x00, 0x00, 0x00, 0x00, 0x00,
    0x00, 0x00, 0x00, 0x00, 0x02, 0x00, 0x00, 0x00, 0x08, 0x00, 0x00, 0x00, 0x00, 0x00, 0x00, 0x00,
    0x00, 0x00, 0x00, 0x00]) := by
  decide +kernel

/-- Program P2: the end state. -/
theorem test_convT_P2_registers :
    after (exec .convT (fileState p2))
        (fun t => (t.pos, t.flags.bits, t.lr, t.cr)) =
      some (72, 0x1F, ⟨0, 2, 8⟩, ⟨40, 16, 20, 1, 44100, 88200, 2, 4, 4⟩) := by decide +kernel

/-- Program P3: the output file. -/
theorem test_convF_P3_output :
    after (exec .convF (fileState (adp ++ List.replicate 68 0))) outBytes = some (
      [0x52, 0x49, 0x46, 0x46, 0x34, 0x00, 0x00, 0x00, 0x57, 0x41, 0x56, 0x45, 0x66, 0x6D, 0x74, 0x20,
    0x10, 0x00, 0x00, 0x00, 0x01, 0x00, 0x01, 0x00, 0x44, 0xAC, 0x00, 0x00, 0x88, 0x58, 0x01, 0x00,
    0x02, 0x00, 0x10, 0x00, 0x64, 0x61, 0x74, 0x61, 0x10, 0x00, 0x00, 0x00, 0x0F, 0x00, 0x5E, 0x00,
    0x90, 0xFF, 0xAD, 0x00, 0x57, 0xFF, 0x4B, 0x01, 0xBE, 0xFE, 0xCD, 0x01]) := by
  decide +kernel

/-- Program P5: the output file. -/
theorem test_convF_P5_output :
    after (exec .convF (fileState p4out)) outBytes = some (
      [0x52, 0x49, 0x46, 0x46, 0x34, 0x00, 0x00, 0x00, 0x57, 0x41, 0x56, 0x45, 0x66, 0x6D, 0x74, 0x20,
    0x10, 0x00, 0x00, 0x00, 0x01, 0x00, 0x02, 0x00, 0x22, 0x56, 0x00, 0x00, 0x88, 0x58, 0x01, 0x00,
    0x04, 0x00, 0x10, 0x00, 0x64, 0x61, 0x74, 0x61, 0x10, 0x00, 0x00, 0x00, 0x0F, 0x00, 0x6F, 0x00,
    0xA0, 0xFF, 0xBE, 0x00, 0x31, 0xFF, 0x2D, 0x01, 0xE2, 0xFE, 0x9C, 0x01]) := by
  decide +kernel

/-! ## The reader (programs P2 to P5, E1 to E6; 96 section 9) -/

theorem test_rdRiff_P2 :
    after (exec .rdRiff (fileState p2)) (fun t => (t.cr.totalSize.toNat, t.pos, t.err)) =
      some (132, 12, 0) := by decide +kernel

/-- Program E5. -/
theorem test_rdRiff_E5 :
    after (exec .rdRiff (fileState (patch base 0 [0x52, 0x49, 0x46, 0x58])))
        (fun t => (t.cr.totalSize.toNat, t.pos, t.err, t.status)) =
      some (0, 0, 2, 0xFFFFFFFF) := by decide +kernel

/-- Program P2 from its `LIST` chunk on. -/
theorem test_walk_P2 :
    after (exec .walk { fileState p2 with pos := 12 })
        (fun t => (t.pos, t.flags.bits, t.lr, t.pcmSlice 8)) =
      some (72, 0x1F, ⟨0, 2, 8⟩, samples scenario) := by decide +kernel

/-- 96 section 9.2 row 27: no pad byte is skipped. -/
theorem test_walk_row_27 :
    after (exec .walk { fileState (base.take 12 ++ [0x4C, 0x49, 0x53, 0x54, 3, 0, 0, 0, 1, 2, 3, 0] ++
        base.drop 12) with pos := 12 }) (fun t => (t.err, t.flags.bits)) = some (4, 0) := by
  decide +kernel

/-- Program E1: all six fields are captured before the format tag fails. -/
theorem test_ckFmt_E1 :
    after (exec (.ckFmt 16) { fileState (patch base 20 [0x02]) with pos := 12 })
        (fun t => (t.cr, t.flags.bits, t.err)) =
      some (⟨0, 16, 2, 1, 44100, 88200, 2, 16, 0⟩, 0, 3) := by decide +kernel

theorem test_ckFmt_P4 :
    after (exec (.ckFmt 16) { fileState p4 with pos := 12 }) (fun t => (t.cr, t.flags.bits, t.err)) =
      some (⟨0, 16, 1, 2, 22050, 88200, 2, 16, 0⟩, 1, 0) := by decide +kernel

theorem test_ckData_P2 :
    after (exec (.ckData 16) { fileState p2 with
        pos := 48, flags := { fmtSeen := true }, cr := { blockAlign := 2 } })
        (fun t => (t.cr.dataSize.toNat, t.pcmN.toNat, t.pcmSlice 8)) =
      some (16, 8, samples scenario) := by decide +kernel

/-- Program E6. -/
theorem test_ckData_E6 :
    after (exec (.ckData 16) { fileState (base.take 59) with
        pos := 36, flags := { fmtSeen := true }, cr := { blockAlign := 2 } })
        (fun t => (t.err, t.cr.dataSize.toNat)) = some (5, 0) := by decide +kernel

/-- 96 section 9.3, start 9 > 8 and end 9 > 8: each clamped on its own. -/
theorem test_ckSmpl_clamps :
    after (exec (.ckSmpl 60) { fileState (base ++ loopChunk 0 9 9) with
        pos := 60, cr := { dataSize := 16 } }) (fun t => (t.lr, t.flags.bits)) =
      some (⟨0, 0, 8⟩, 0x1C) := by decide +kernel

/-- 96 section 9.2 row 32. -/
theorem test_ckSmpl_truncated :
    after (exec (.ckSmpl 60) { fileState (base ++ (loopChunk 0 1 4).take 44) with pos := 60 })
        (fun t => (t.err, t.flags.bits)) = some (4, 0) := by decide +kernel

theorem test_ckSkip_nothing : exec (.ckSkip 0x5453494C 4) (fileState p2) = .next (fileState p2) := by
  rfl

/-- Program P4: a loop chunk with end 0 gives the defaults. -/
theorem test_walkEnd_P4 :
    after (exec .walkEnd { quiet with
        flags := { dataSeen := true, smplSeen := true }, lr := ⟨0, 1, 0⟩, cr := { dataSize := 16 } })
        (fun t => (t.lr, t.flags.bits)) = some (⟨0, 0, 8⟩, 6) := by decide +kernel

/-- 96 section 9.1, `BASE` cut at 12 or 36. -/
theorem test_walkEnd_without_data : after (exec .walkEnd quiet) (fun t => t.err) = some 4 := by
  decide +kernel

theorem test_rdHdr_P3 :
    after (exec .rdHdr (fileState adp)) (fun t => (t.cr, t.err)) =
      some (⟨40, 16, 20, 1, 44100, 88200, 2, 4, 4⟩, 0) := by decide +kernel

/-- 96 section 9.2 rows 9 and 10: the two values of `CHECK_DATA_TAG`. -/
theorem test_readHeader_both_parameters :
    after ((readHeader false (fileState (patch adp 36 [0x4C, 0x49, 0x53, 0x54]))).conclude true)
        (fun t => (t.err, t.cr.dataSize.toNat)) = some (0, 4) ∧
    after ((readHeader true (fileState (patch adp 36 [0x4C, 0x49, 0x53, 0x54]))).conclude true)
        (fun t => (t.err, t.cr.dataSize.toNat)) = some (3, 0) := by decide +kernel

theorem test_rdPayload_P3 :
    after (exec .rdPayload { fileState adp with cr := { dataSize := 4 } })
        (fun t => (t.adSlice 4, t.adN.toNat)) = some ([0x20, 0x4E, 0x5C, 0x4C], 4) := by decide +kernel

/-- 96 section 9.1, `ADP` cut at 47. -/
theorem test_rdPayload_short :
    after (exec .rdPayload { fileState (adp.take 47) with cr := { dataSize := 4 } })
        (fun t => (t.err, t.adN.toNat)) = some (5, 0) := by decide +kernel

/-! ## The writer (95 section 2.6, programs P2, P3, E8) -/

theorem test_wrHdrA_P2 :
    after (exec .wrHdrA { quiet with
        adN := 4, cr := { channels := 1, rate := 44100, byteRate := 88200, blockAlign := 2 } })
        outBytes = some (adp.take 44) := by decide +kernel

/-- Program E8: capacity 46. -/
theorem test_wrDataA_E8 :
    after (exec .wrDataA { adState [0x20, 0x4E, 0x5C, 0x4C] with outLen := 44, outCap := 46 })
        (fun t => (t.err, t.outLen.toNat, t.outByte 44, t.outByte 45)) =
      some (5, 46, 0x20, 0x4E) := by decide +kernel

theorem test_wrSmpl_P2 :
    after (exec .wrSmpl { quiet with lr := ⟨0, 2, 8⟩ })
        (fun t => (t.outLen.toNat, (outBytes t).take 8, (outBytes t).drop 48)) =
      some (68, [0x73, 0x6D, 0x70, 0x6C, 0x3C, 0, 0, 0],
        [0, 0, 0, 0, 2, 0, 0, 0, 8, 0, 0, 0, 0, 0, 0, 0, 0, 0, 0, 0]) := by decide +kernel

/-- 95 section 2.6: byteRate wraps; the largest accepted payload. -/
theorem test_wrHdrP_wraps :
    after (exec .wrHdrP { quiet with cr := { channels := 2, rate := 0xFFFFFFFF, dataSize := 2 } })
        (fun t => (t.cr.blockAlign.toNat, t.cr.byteRate.toNat, t.cr.dataSize.toNat,
          t.cr.totalSize.toNat)) = some (4, 4294967292, 8, 44) := by decide +kernel

theorem test_wrHdrP_largest :
    after (exec .wrHdrP { quiet with cr := { channels := 1, rate := 44100, dataSize := 1073741812 } })
        (fun t => (t.cr.totalSize.toNat, t.outLen.toNat)) = some (4294967284, 44) ∧
    refusal (exec .wrHdrP { quiet with cr := { channels := 1, rate := 44100, dataSize := 1073741813 } }) =
      some .outputTooLarge := by decide +kernel

theorem test_wrDataP_P3 :
    after (exec .wrDataP (pcmState [15, 94, -112])) outBytes =
      some [0x0F, 0, 0x5E, 0, 0x90, 0xFF] := by decide +kernel

/-! ## The step and the host -/

/-- The host writes `CMD`, the next step runs the command (R220); then the block is idle (R270). -/
theorem test_step_runs_command :
    after (step (nextOr (hostWrite (.cmd 0x01) (pcmState scenario)) quiet))
        (fun t => (t.adSlice 4, t.issue, t.cmd)) =
      some ([0x20, 0x4E, 0x5C, 0x4C], .idle, 0x01) := by decide +kernel

/-- A word of the opcode table placed after reset runs as the first instruction. -/
theorem test_step_runs_first_word :
    after (step (State.reset.withFetchWord 4 0x7)) sigStep = some (238, 304) ∧
    after (step (State.reset.withFetchWord 8 0x74)) (fun t => t.err) = some 1 := by decide +kernel

/-- A host write of `BUFV` that clears a valid bit leaves nothing of the buffer (R36, U14). -/
theorem test_clearing_valid_bit_discards :
    after (hostWrite (.bufv 0) (pcmState scenario)) (fun t => (t.pcmbuf.cells, t.bufv.bits)) =
      some ([], 0) := by decide +kernel

/-- After ENCODE the host reads the bytes below `AD_N`; there is no byte of `OUT` at `OUT_CAP` (R50, R63). -/
theorem test_host_reads_buffers :
    (hostRead (.ad 3) (nextOr (exec .encode (pcmState scenario)) quiet)).map (·.1) = some 0x4C ∧
    (hostRead (.pcm 2) (pcmState [7, -7, -100])).map (·.1) = some 0xFF9C ∧
    hostRead (.out 65536) quiet = none := by decide +kernel

/-! ## Witnesses: states and operands that meet the hypotheses of the obligations -/

theorem holds_ofRun {α : Type} (xs : List α) : (Memory.ofRun 0 xs).Holds 0 xs := Memory.ofRun_holds 0 xs

theorem length_toNat {α : Type} {xs : List α} (h : xs.length < 2 ^ 32) :
    (BitVec.ofNat 32 xs.length).toNat = xs.length := by rw [BitVec.toNat_ofNat, Nat.mod_eq_of_lt h]

theorem fileState_holds {bs : List Byte} (h : bs.length < 2 ^ 32) : (fileState bs).HoldsInput bs :=
  ⟨rfl, length_toNat h, holds_ofRun bs⟩

theorem pcmState_holds {xs : List Int} (h : xs.length < 2 ^ 32) :
    (pcmState xs).HoldsPcm (samples xs) :=
  ⟨(length_toNat h).trans (List.length_map ..).symm, holds_ofRun _⟩

theorem adState_holds {bs : List Byte} (h : bs.length < 2 ^ 32) : (adState bs).HoldsAd bs :=
  ⟨length_toNat h, holds_ofRun bs⟩

theorem chState_holds {ls rs : List Int} (h : ls.length < 2 ^ 32) (hl : ls.length = rs.length) :
    (chState ls rs).HoldsChannels (samples ls) (samples rs) :=
  ⟨(length_toNat h).trans (List.length_map ..).symm, by simp [samples, hl], holds_ofRun _, holds_ofRun _⟩

/-- `x` goes on. -/
def isGo : Flow → Bool
  | .go _ => true
  | .raise _ _ => false
  | .refuse _ => false

/-- `x` raises. -/
def isRaise : Flow → Bool
  | .go _ => false
  | .raise _ _ => true
  | .refuse _ => false

/-- The state a flow that goes on leaves. -/
def goOr (x : Flow) (s : State) : State :=
  match x with
  | .go t => t
  | .raise _ _ => s
  | .refuse _ => s

theorem goOr_eq {x : Flow} (s : State) (h : isGo x = true) : x = .go (goOr x s) := by
  cases x <;> first | rfl | cases h

theorem raise_of {x : Flow} (h : isRaise x = true) : ∃ k t, x = .raise k t := by
  cases x <;> first | exact ⟨_, _, rfl⟩ | cases h

theorem next_of {o : Host.Outcome State Fault Refusal} (h : (after o fun _ => ()) = some ()) :
    ∃ t, o = .next t := by
  cases o <;> first | exact ⟨_, rfl⟩ | cases h

theorem quiet_codec : quiet.codec.InRange := ⟨by decide, by decide⟩

theorem quiet_inv (c : Option Issue) : ({ quiet with issue := c.getD .idle } : State).Inv where
  memories := ⟨.nil, .nil, .nil, .nil, .nil, .nil⟩
  codec := quiet_codec
  pos := by change (0 : Nat) < 2 ^ 33 + 8; omega
  report := .inl ⟨rfl, rfl⟩
  output := by intro a h; simp [quiet, State.reset] at h
  channels := by intro h; simp [quiet, State.reset] at h

theorem fileState_inv (bs : List Byte) (c : Issue) : ({ fileState bs with cmd := 0x74, issue := c } : State).Inv where
  memories := ⟨Memory.ofRun_wf _ _, .nil, .nil, .nil, .nil, .nil⟩
  codec := quiet_codec
  pos := by change (0 : Nat) < 2 ^ 33 + 8; omega
  report := .inl ⟨rfl, rfl⟩
  output := by intro a h; simp [fileState, quiet, State.reset] at h
  channels := by intro h; simp [fileState, quiet, State.reset] at h

theorem witness_DecodeOfEncode :
    (Instr.ckSkip 0x5453494C 4).wellFormed = true ∧ (Instr.usage 0xFF).wellFormed = true ∧
      Instr.convT.wellFormed = true := by decide

theorem witness_EncodeOfDecode :
    decode .chunk [0x66, 0x6D, 0x74, 0x20, 0x10, 0, 0, 0] = .ok (.ckFmt 16) := by decide

theorem witness_FullLengthWordsDecode :
    ([0x0F] : List Byte).length = Place.byteCount .code ∧ (∀ b ∈ ([0x0F] : List Byte), b.toNat < 16) ∧
      ([] : List Byte).length ≠ Place.byteCount .command := by decide

theorem witness_StepRunsDecoded :
    ({ quiet with issue := .operation .code [0x7] } : State).fetched = some (.code, [0x7]) ∧
      decode .code [0x7] = .ok .decN7 := by decide +kernel

theorem witness_CommandWriteRunsCommand : quiet.issue = .idle := rfl

theorem witness_IdleWaitsBusyBars :
    quiet.issue = .idle ∧ ({ quiet with issue := .command } : State).issue ≠ .idle := by decide +kernel

theorem witness_ResetRegisters : Reg.pos ≠ .cmd ∧ Reg.pos ≠ .step ∧ Reg.pos ≠ .outCap := by decide

theorem witness_PackedRegisterBits : quiet.issue = .idle := rfl

/-- A write to `IN`; the last element of each valid buffer; the last byte below `OUT_LEN` = `OUT_CAP`. -/
theorem witness_HostLoadsInput :
    quiet.issue = .idle ∧
    ((pcmState [7, -7]).issue = .idle ∧ (pcmState [7, -7]).bufv.pcm = true ∧
      (pcmState [7, -7]).HoldsPcm (samples [7, -7]) ∧ (1 : U32).toNat < (samples [7, -7]).length) ∧
    ((adState [0x20]).bufv.ad = true ∧ (adState [0x20]).HoldsAd [0x20] ∧
      (0 : U32).toNat < ([0x20] : List Byte).length) ∧
    ((chState [1, 2] [3, 4]).bufv.ch = true ∧
      (chState [1, 2] [3, 4]).HoldsChannels (samples [1, 2]) (samples [3, 4]) ∧
      (1 : U32).toNat < (samples [1, 2]).length ∧ (1 : U32).toNat < (samples [3, 4]).length) ∧
    (let s := { quiet with output := Memory.ofRun 0 [0x52, 0x49], outLen := 2, outCap := 2 };
      s.issue = .idle ∧ s.HoldsOutput [0x52, 0x49] ∧ s.outLen.toNat ≤ s.outCap.toNat ∧
        (1 : U32).toNat < ([0x52, 0x49] : List Byte).length) :=
  ⟨rfl, ⟨rfl, rfl, pcmState_holds (by decide), by decide⟩, ⟨rfl, adState_holds (by decide), by decide⟩,
    ⟨rfl, chState_holds (by decide) rfl, by decide, by decide⟩,
    ⟨rfl, ⟨rfl, holds_ofRun _⟩, by decide +kernel, by decide⟩⟩

/-- A codec operation, and a whole conversion. -/
theorem witness_StepKeepsInv :
    (∃ s t : State, s.Inv ∧ s.issue = .operation .code [0x7] ∧ step s = .next t) ∧
    (∃ s t : State, s.Inv ∧ s.issue = .command ∧ step s = .next t ∧ t.outValid = true) :=
  ⟨⟨_, _, quiet_inv (some (.operation .code [0x7])), rfl, rfl⟩,
   by
    refine ⟨_, nextOr (step { fileState p2 with cmd := 0x74, issue := .command }) quiet,
      fileState_inv p2 .command, rfl, ?_, by decide +kernel⟩
    obtain ⟨t, h⟩ := next_of (o := step { fileState p2 with cmd := 0x74, issue := .command })
      (by decide +kernel)
    rw [h]; rfl⟩

theorem witness_HostWriteKeepsInv :
    ({ quiet with issue := .idle } : State).Inv ∧ ∃ t, hostWrite (.pcm 3 7) quiet = .next t :=
  ⟨quiet_inv none, ⟨_, rfl⟩⟩

theorem witness_StepKeepsOutLenWithinCap :
    quiet.outLen.toNat ≤ quiet.outCap.toNat ∧ ∃ t, step quiet = .next t := ⟨by decide +kernel, ⟨_, rfl⟩⟩

/-- Both ends of the range of `STEP`, and the states of the worked examples. -/
theorem witness_DecodeCodes :
    ((codecState 0 127).codec.InRange ∧ (codecState 0 24576).codec.InRange) ∧
      (codecState 0 127).codec = ⟨0, 127⟩ ∧ (codecState 1000 1000).codec = ⟨1000, 1000⟩ :=
  ⟨⟨⟨by decide +kernel, by decide +kernel⟩, ⟨by decide +kernel, by decide +kernel⟩⟩,
    by decide +kernel, by decide +kernel⟩

/-- For DecodeByteRunsTwoCodes, EncodePairPacksTwoSamples, EncodeSampleQuantisesThenUpdates and
QuantiserDecisionLevels. -/
theorem witness_codec_examples :
    (codecState 0 127).codec = ⟨0, 127⟩ ∧ (codecState 15 127).codec = ⟨15, 127⟩ ∧
      (codecState 15 127).codec.InRange :=
  ⟨by decide +kernel, by decide +kernel, ⟨by decide +kernel, by decide +kernel⟩⟩

theorem witness_CodecRangeAndRamps :
    isCodecOp (.decB 1 2) = true ∧ (0x3 : Code).toNat % 8 < 4 ∧ 4 ≤ (0xC : Code).toNat % 8 ∧
      (codecState 5 127).codec.step = 127 ∧ (codecState 5 24576).codec.step = 24576 := by
  decide +kernel

/-- The hypotheses of ReconstructionErrorBound. -/
def boundApplies (k : Codec) (x : Sample) : Bool :=
  let a := (x.toInt - k.sig.toInt).natAbs
  let st := k.step.toNat
  let size : Int := (st * (2 * (4 * a / st) + 1) / 8 : Nat)
  let sum : Int := if x.toInt < k.sig.toInt ∧ st ≤ 8 * a then k.sig.toInt - size else k.sig.toInt + size
  decide (127 ≤ st) && decide (st ≤ 24576) && decide (4 * a < 7 * st) && decide (-32768 ≤ sum) &&
    decide (sum ≤ 32767)

/-- The last unsaturated sample and the first saturated one; the exception; the sum on each bound and one
past it; a step for which no signal has two steps of room on both sides. -/
theorem witness_ReconstructionErrorBound :
    boundApplies (codecState 0 127).codec 222 = true ∧ boundApplies (codecState 0 127).codec 223 = false ∧
    boundApplies (codecState 0 127).codec (BitVec.ofInt 16 (-15)) = true ∧
    boundApplies (codecState 32752 127).codec 32752 = true ∧
    boundApplies (codecState 32753 127).codec 32753 = false ∧
    boundApplies (codecState (-32721) 127).codec (BitVec.ofInt 16 (-32753)) = true ∧
    boundApplies (codecState (-32722) 127).codec (BitVec.ofInt 16 (-32754)) = false ∧
    boundApplies (codecState 32000 24576).codec 0 = true := by decide +kernel

/-- For EncodeCommandFoldsEncB and DecodeEncodeDuality. -/
theorem witness_EncodeCommandFoldsEncB :
    (pcmState scenario).bufv.pcm = true ∧ (pcmState scenario).HoldsPcm (samples scenario) ∧
      samples scenario ≠ [] ∧ (samples scenario).length % 2 = 0 :=
  ⟨rfl, pcmState_holds (by decide), by decide, by decide⟩

theorem witness_DecodeCommandFoldsDecB :
    (adState [0x20, 0x4E]).bufv.ad = true ∧ (adState [0x20, 0x4E]).HoldsAd [0x20, 0x4E] ∧
      ([0x20, 0x4E] : List Byte) ≠ [] ∧ ([0x20, 0x4E] : List Byte).length < 2 ^ 31 :=
  ⟨rfl, adState_holds (by decide), by decide, by decide⟩

/-- A buffer of three frames and an empty one. -/
theorem witness_DeintCommandSplits :
    (pcmState [1, -1, 2, -2, 3, -3]).bufv.pcm = true ∧
      (samples [1, 2, 3]).length = (samples [-1, -2, -3]).length ∧
      (pcmState [1, -1, 2, -2, 3, -3]).HoldsPcm (frames (samples [1, 2, 3]) (samples [-1, -2, -3])) ∧
      (pcmState []).HoldsPcm (frames [] []) :=
  ⟨rfl, rfl, pcmState_holds (xs := [1, -1, 2, -2, 3, -3]) (by decide),
    pcmState_holds (xs := []) (by decide)⟩

theorem witness_IntlCommandJoins :
    (chState [1, 2] [3, 4]).bufv.ch = true ∧
      (chState [1, 2] [3, 4]).HoldsChannels (samples [1, 2]) (samples [3, 4]) ∧
      (samples [1, 2]).length < 2 ^ 31 := ⟨rfl, chState_holds (by decide) rfl, by decide⟩

/-- One state for each clause; the lengths at their bounds. -/
theorem witness_UnitCommandRefusals :
    (quiet.bufv = {} ∧ (pcmState []).bufv.pcm = true ∧ (pcmState []).pcmN = 0) ∧
    (pcmState [1, 2, 3]).pcmN.toNat % 2 = 1 ∧ ((adState []).bufv.ad = true ∧ (adState []).adN = 0) ∧
    2 ^ 31 ≤ ({ adState [] with adN := 0x80000000 } : State).adN.toNat ∧
    2 ^ 31 ≤ ({ chState [] [] with chN := 0x80000000 } : State).chN.toNat := by decide +kernel

theorem witness_StereoTransformInverse :
    ((pcmState scenario).bufv.pcm = true ∧ (pcmState scenario).HoldsPcm (samples scenario) ∧
      (samples scenario).length % 2 = 0) ∧
    (chState [1, 2] [3, 4]).HoldsChannels (samples [1, 2]) (samples [3, 4]) :=
  ⟨⟨rfl, pcmState_holds (by decide), by decide⟩, chState_holds (by decide) rfl⟩

theorem witness_UsageAborts :
    (0x78 : Byte) ≠ 0x74 ∧ (0x78 : Byte) ≠ 0x66 ∧ (0x78 : Byte) ≠ 0x01 ∧ (0x78 : Byte) ≠ 0x02 ∧
      (0x78 : Byte) ≠ 0x03 ∧ (0x78 : Byte) ≠ 0x04 := by decide

theorem witness_ConversionsNeedInput : quiet.inPresent = false := rfl

/-- Cut at 11, a wrong tag at 0 and at 8, and the preamble of P2. -/
theorem witness_RdRiffChecksPreamble :
    (fileState (base.take 11)).inLen.toNat < 12 ∧
    (12 ≤ (fileState (base.take 12)).inLen.toNat ∧
      (fileState (patch base 0 [0x58])).memRead 0 4 ≠ [0x52, 0x49, 0x46, 0x46] ∧
      (fileState (patch base 11 [0x58])).memRead 8 4 ≠ [0x57, 0x41, 0x56, 0x45]) ∧
    (fileState p2).memRead 0 4 = [0x52, 0x49, 0x46, 0x46] ∧
    (fileState p2).memRead 8 4 = [0x57, 0x41, 0x56, 0x45] := by decide +kernel

theorem witness_RdHdrAccepts :
    (44 ≤ (fileState (adp.take 44)).inLen.toNat ∧
      (fileState adp).memRead 0 4 = [0x52, 0x49, 0x46, 0x46] ∧
      (fileState adp).memRead 8 4 = [0x57, 0x41, 0x56, 0x45] ∧
      (fileState adp).memRead 12 4 = [0x66, 0x6D, 0x74, 0x20]) ∧
    ((fileState adp).rd32 16 = 16 ∧ (fileState adp).rd16 20 = 20 ∧ (fileState adp).rd16 22 = 1 ∧
      (fileState adp).rd16 34 = 4 ∧ (fileState adp).memRead 36 4 = [0x64, 0x61, 0x74, 0x61]) ∧
    (fileState p4out).rd16 22 = 2 := by decide +kernel

/-- One file for each failing check; each meets the checks before it, as `adp` does. -/
theorem witness_RdHdrRejectsInOrder :
    ((fileState (adp.take 43)).inLen.toNat < 44 ∧
      (fileState (patch adp 11 [0x58])).memRead 8 4 ≠ [0x57, 0x41, 0x56, 0x45] ∧
      (fileState (patch adp 12 [0x46])).memRead 12 4 ≠ [0x66, 0x6D, 0x74, 0x20] ∧
      (fileState (patch adp 16 [18])).rd32 16 ≠ 16) ∧
    ((fileState (patch adp 20 [1])).rd16 20 ≠ 20 ∧
      ((fileState (patch adp 22 [3])).rd16 22 ≠ 1 ∧ (fileState (patch adp 22 [3])).rd16 22 ≠ 2) ∧
      (fileState (patch adp 34 [8])).rd16 34 ≠ 4) ∧
    (fileState (patch adp 36 [0x4C])).memRead 36 4 ≠ [0x64, 0x61, 0x74, 0x61] := by decide +kernel

/-- One byte short, and exactly as long as declared. -/
theorem witness_RdPayloadLoadsAdbuf :
    (fileState (adp.take 47)).inLen.toNat < 44 + ({ dataSize := 4 } : ContainerRec).dataSize.toNat ∧
    44 + ({ dataSize := 4 } : ContainerRec).dataSize.toNat ≤ (fileState adp).inLen.toNat := by
  decide +kernel

/-- Each clause at `POS` 12 of a patched `BASE`: length 15 and 16, cut at 35 and 36, format 2, three
channels, and accepted. -/
theorem witness_CkFmtCapturesFormat :
    ((15 : U32).toNat < 16 ∧ ({ fmtSeen := true } : Flags).fmtSeen = true ∧ quiet.flags.fmtSeen = false ∧
      16 ≤ (16 : U32).toNat) ∧
    ((fileState (base.take 35)).inLen.toNat < 12 + 24 ∧ 12 + 24 ≤ (fileState (base.take 36)).inLen.toNat) ∧
    ((fileState (patch base 20 [2])).rd16 20 ≠ 1 ∧ (fileState (patch base 22 [3])).rd16 22 ≠ 1 ∧
      (fileState (patch base 22 [3])).rd16 22 ≠ 2) ∧
    (fileState base).rd16 20 = 1 ∧ (fileState base).rd16 22 = 1 ∧ (fileState p4).rd16 22 = 2 := by
  decide +kernel

/-- Each check's failure, a payload one byte too long, and one that fits. -/
theorem witness_CkDataLoadsSamples :
    (quiet.flags.fmtSeen = false ∧ ({ dataSeen := true } : Flags).dataSeen = true ∧
      ({ blockAlign := 4 } : ContainerRec).blockAlign ≠ 2) ∧
    ({ fmtSeen := true } : Flags).dataSeen = false ∧
    (fileState base).inLen.toNat < 36 + 8 + (17 : U32).toNat ∧
    36 + 8 + (16 : U32).toNat ≤ (fileState base).inLen.toNat := by decide +kernel

theorem witness_CkSmplCapturesLoop :
    (fileState (base ++ (loopChunk 0 1 4).take 67)).inLen.toNat < 60 + 68 ∧
    60 + 68 ≤ (fileState (base ++ loopChunk 0 1 4)).inLen.toNat := by decide +kernel

theorem witness_WalkEndSetsLoopDefaults :
    quiet.flags.dataSeen = false ∧
    (({ dataSeen := true, smplSeen := true, loopEndNz := true } : Flags).dataSeen = true ∧
      ({ dataSeen := true, smplSeen := true, loopEndNz := true } : Flags).loopEndNz = true) ∧
    ({ dataSeen := true } : Flags).smplSeen = false ∧
    ({ dataSeen := true, smplSeen := true } : Flags).loopEndNz = false := by decide

/-- The file of P2 at its chunks (24 `fmt `, 48 `data`, 72 `smpl`, 12 `LIST`, 140 the end) and `BASE` cut
at 19. -/
theorem witness_WalkTurns :
    ((fileState p2).inLen.toNat ≤ 140 ∧ 12 < (fileState (base.take 19)).inLen.toNat ∧
      (fileState (base.take 19)).inLen.toNat < 12 + 8) ∧
    ((fileState p2).rd32 24 = 0x20746D66 ∧ (fileState p2).rd32 48 = 0x61746164 ∧
      (fileState p2).rd32 72 = 0x6C706D73 ∧ (fileState p2).rd32 12 = 0x5453494C) ∧
    (isGo (chunkFmt 16 { fileState p2 with pos := 24 }) = true ∧
      isRaise (chunkFmt 16 { fileState p2 with pos := 24, flags := { fmtSeen := true } }) = true) ∧
    (isGo (chunkData 16 { fileState p2 with
        pos := 48, flags := { fmtSeen := true }, cr := { blockAlign := 2 } }) = true ∧
      isRaise (chunkData 16 { fileState p2 with pos := 48 }) = true) ∧
    isGo (chunkSmpl 60 { fileState p2 with pos := 72 }) = true ∧
    isRaise (chunkSmpl 60 { fileState (p2.take 139) with pos := 72 }) = true := by decide +kernel

theorem witness_WalkCompletesOnLastData :
    ({ fmtSeen := true } : Flags).fmtSeen = true ∧
    (({ fmtSeen := true } : Flags).dataSeen = false ∧ ({ fmtSeen := true } : Flags).smplSeen = false ∧
      ({ blockAlign := 2 } : ContainerRec).blockAlign = 2) ∧
    (fileState base).rd32 36 = 0x61746164 ∧
    36 + 8 + ((fileState base).rd32 (36 + 4)).toNat = (fileState base).inLen.toNat := by decide +kernel

/-- For each writer step a state it has a meaning in, with room and without. -/
theorem witness_writer :
    ((writes .wrHdrA quiet).isSome ∧ (writes .wrDataA (adState [1, 2])).isSome ∧
      (writes .wrSmpl quiet).isSome ∧ (writes .wrHdrP quiet).isSome) ∧
    (writes .wrDataP (pcmState [1, 2])).isSome ∧
    quiet.outLen.toNat + (loopChunk 0 0 0).length ≤ quiet.outCap.toNat ∧
    (({ quiet with outCap := 67 } : State).outLen.toNat ≤ ({ quiet with outCap := 67 } : State).outCap.toNat ∧
      ({ quiet with outCap := 67 } : State).outCap.toNat <
        ({ quiet with outCap := 67 } : State).outLen.toNat + (loopChunk 0 0 0).length) := by
  decide +kernel

/-- `BASE` is a file of the form ConvTMonoFile takes. -/
theorem witness_ConvTMonoFile :
    samples scenario ≠ [] ∧ (samples scenario).length % 2 = 0 ∧
    base = fixedHeader 52 1 1 44100 88200 2 16 (BitVec.ofNat 32 (2 * (samples scenario).length)) ++
      payload (samples scenario) ∧
    (fileState base).HoldsInput base ∧
    44 + (samples scenario).length / 2 ≤ (fileState base).outCap.toNat :=
  ⟨by decide, by decide, by decide +kernel, fileState_holds (by decide), by decide +kernel⟩

/-- The file of ConvTStereoFile, from the samples of P4. -/
theorem witness_ConvTStereoFile :
    let ls := samples [0, -100, -200, -300]
    let rs := samples [100, 200, 300, 400]
    let file := fixedHeader 52 1 2 22050 88200 2 16 (BitVec.ofNat 32 (4 * ls.length)) ++
      payload (frames ls rs)
    ls ≠ [] ∧ ls.length % 2 = 0 ∧ rs.length = ls.length ∧ (fileState file).HoldsInput file ∧
      44 + ls.length ≤ (fileState file).outCap.toNat :=
  ⟨by decide, by decide, by decide, fileState_holds (by decide), by decide +kernel⟩

/-- `BASE` with a loop chunk, end 100 and end 0. -/
theorem witness_ConvTLoopChunk :
    let file := fun stop => fixedHeader 52 1 1 44100 88200 2 16
      (BitVec.ofNat 32 (2 * (samples scenario).length)) ++ payload (samples scenario) ++ loopChunk 0 2 stop
    samples scenario ≠ [] ∧ (samples scenario).length % 2 = 0 ∧
      (fileState (file 100)).HoldsInput (file 100) ∧ (fileState (file 0)).HoldsInput (file 0) ∧
      44 + (samples scenario).length / 2 + 68 ≤ (fileState (file 100)).outCap.toNat :=
  ⟨by decide, by decide, fileState_holds (by decide +kernel), fileState_holds (by decide +kernel),
    by decide +kernel⟩

/-- `ADP` is a file of the form ConvFMonoFile takes. -/
theorem witness_ConvFMonoFile :
    let es : List Byte := [0x20, 0x4E, 0x5C, 0x4C]
    es ≠ [] ∧ 4 * es.length + 44 < 2 ^ 32 ∧
    adp = fixedHeader 40 20 1 44100 88200 2 4 (BitVec.ofNat 32 es.length) ++ es ++ [] ∧
    (fileState adp).HoldsInput adp ∧ 44 + 4 * es.length ≤ (fileState adp).outCap.toNat :=
  ⟨by decide, by decide, by decide +kernel, fileState_holds (by decide), by decide +kernel⟩

/-- The output of P4 is a file of the form ConvFStereoFile takes. -/
theorem witness_ConvFStereoFile :
    let left : List Byte := [0xB0, 0xAB]
    let right : List Byte := [0x23, 0x33]
    left ≠ [] ∧ right.length = left.length ∧ 8 * left.length + 44 < 2 ^ 32 ∧
    p4out = fixedHeader 40 20 2 22050 88200 2 4 (BitVec.ofNat 32 (2 * left.length)) ++ left ++ right ++ [] ∧
    (fileState p4out).HoldsInput p4out ∧ 44 + 8 * left.length ≤ (fileState p4out).outCap.toNat :=
  ⟨by decide, by decide, by decide, by decide +kernel, fileState_holds (by decide), by decide +kernel⟩

/-- CONV.T of `BASE` writes `ADP`, which the host loads again (95 section 4). -/
theorem witness_ConvRoundTripMono :
    44 + 2 * (samples scenario).length < 2 ^ 32 ∧
    (∃ t, exec .convT (fileState base) = .next t ∧ t.HoldsOutput adp) ∧
    (fileState adp).HoldsInput adp ∧
    44 + 2 * (samples scenario).length ≤ (fileState adp).outCap.toNat := by
  refine ⟨by decide, ?_, fileState_holds (by decide), by decide +kernel⟩
  obtain ⟨t, h⟩ := next_of (o := exec .convT (fileState base)) (by decide +kernel)
  refine ⟨t, h, ?_⟩
  have h1 : after (exec .convT (fileState base))
      (fun t => (t.outLen.toNat, (List.range 48).map t.output.get?)) = some (48, adp.map some) := by
    decide +kernel
  rw [h] at h1
  simp only [after, Option.some.injEq, Prod.mk.injEq] at h1
  refine ⟨h1.1, fun i hi => ?_⟩
  have h2 := congrArg (fun l => l[i]?) h1.2
  have hi' : i < 48 := hi
  simpa [List.getElem?_map, List.getElem?_range hi', List.getElem?_eq_getElem hi] using h2

/-- The reader's state on `BASE` (mono) and on P4 (two channels). -/
theorem witness_ConvTPayloadIsEncoded :
    (∃ r, (fileState base).inPresent = true ∧ pcmReader (initialisedConv (fileState base)) = .go r ∧
      44 + r.cr.dataSize.toNat / 4 + 68 ≤ (fileState base).outCap.toNat ∧ r.cr.dataSize ≠ 0 ∧
      r.cr.channels = 1 ∧ r.cr.dataSize.toNat % 4 = 0 ∧ r.HoldsPcm (samples scenario)) ∧
    (∃ r, pcmReader (initialisedConv (fileState p4)) = .go r ∧ r.cr.channels ≠ 1 ∧
      r.cr.dataSize.toNat % 8 = 0 ∧
      r.HoldsPcm (frames (samples [0, -100, -200, -300]) (samples [100, 200, 300, 400]))) := by
  constructor
  · refine ⟨_, rfl, goOr_eq quiet (by decide +kernel), by decide +kernel, by decide +kernel,
      by decide +kernel, by decide +kernel, ?_⟩
    unfold State.HoldsPcm Memory.Holds; decide +kernel
  · refine ⟨_, goOr_eq quiet (by decide +kernel), by decide +kernel, by decide +kernel, ?_⟩
    unfold State.HoldsPcm Memory.Holds; decide +kernel

/-- A `data` chunk of 0, of 6 bytes mono and of 12 bytes stereo; payloads of 0, 3 (stereo) and of
2^30 bytes declared. -/
theorem witness_ConversionRefusals :
    (∃ r, pcmReader (initialisedConv (fileState (fixedHeader 36 1 1 8000 16000 2 16 0))) = .go r ∧
      r.cr.dataSize = 0) ∧
    (∃ r, pcmReader (initialisedConv (fileState (fixedHeader 42 1 1 8000 16000 2 16 6 ++
      List.replicate 6 0))) = .go r ∧ r.cr.channels = 1 ∧ r.cr.dataSize.toNat % 4 ≠ 0) ∧
    (∃ r, pcmReader (initialisedConv (fileState (fixedHeader 48 1 2 8000 16000 2 16 12 ++
      List.replicate 12 0))) = .go r ∧ r.cr.channels ≠ 1 ∧ r.cr.dataSize.toNat % 8 ≠ 0) ∧
    (∃ r, ((readHeader Config.checkDataTag (initialisedConv (fileState (fixedHeader 36 20 1 8000 16000 1 4 0)))).andThen
      readPayload) = .go r ∧ r.adN = 0) ∧
    (∃ r, ((readHeader Config.checkDataTag (initialisedConv (fileState (fixedHeader 39 20 2 8000 16000 1 4 3 ++
      [1, 2, 3])))).andThen readPayload) = .go r ∧ r.cr.channels ≠ 1 ∧
      4 * r.adN.toNat + 44 < 2 ^ 32 ∧ r.adN.toNat % 2 = 1) :=
  ⟨⟨_, goOr_eq quiet (by decide +kernel), by decide +kernel⟩,
   ⟨_, goOr_eq quiet (by decide +kernel), by decide +kernel, by decide +kernel⟩,
   ⟨_, goOr_eq quiet (by decide +kernel), by decide +kernel, by decide +kernel⟩,
   ⟨_, goOr_eq quiet (by decide +kernel), by decide +kernel⟩,
   ⟨_, goOr_eq quiet (by decide +kernel), by decide +kernel, by decide +kernel, by decide +kernel⟩⟩

/-- The remaining clause of ConversionRefusals: a declared payload of 1073741813 bytes, all in the file
(their values are free: only the header is listed). -/
theorem witness_ConversionRefusals_too_large :
    ∃ s r : State, s.inPresent = true ∧
      (readHeader Config.checkDataTag (initialisedConv s)).andThen readPayload = .go r ∧
      2 ^ 32 ≤ 4 * r.adN.toNat + 44 := by
  let cr : ContainerRec := ⟨0, 16, 20, 1, 8000, 16000, 1, 4, 1073741813⟩
  let s : State := { quiet with
    input := Memory.ofRun 0 (headerBytes cr), inLen := 1073741857, inPresent := true }
  have h : HeaderRead (initialisedConv s) cr :=
    headerRead_of_holds (rest := []) (by rw [List.append_nil]; exact holds_ofRun _)
  have hl : (initialisedConv s).inLen.toNat = 1073741857 := rfl
  have hp : ∀ r : State, r.inLen.toNat = 1073741857 → r.cr.dataSize.toNat = 1073741813 →
      ∃ u, readPayload r = .go u ∧ u.adN = r.cr.dataSize := fun r h1 h2 => by
    unfold readPayload
    dsimp only
    rw [if_neg (by omega)]
    exact ⟨_, rfl, rfl⟩
  obtain ⟨u, hu, hn⟩ := hp { initialisedConv s with cr := cr } hl rfl
  refine ⟨s, u, rfl, ?_, ?_⟩
  · rw [readHeader_of_header Config.checkDataTag h rfl rfl rfl rfl (by rw [hl]; omega), Flow.go_andThen,
      hu]
  · rw [hn]
    decide

/-- With no room for a byte the conversions still get as far as the codec, and end in IoFailure. -/
theorem witness_ConversionsForgetThePast_no_room :
    let s := { fileState base with outCap := 0 }
    let u := { fileState adp with outCap := 0 }
    ReachesCodec .convT s ∧ ReachesCodec .convF u ∧
      after (exec .convT s) (fun t => (t.err, t.outLen.toNat, sigStep t)) = some (5, 0, 461, 834) ∧
      after (exec .convF u) (fun t => (t.err, t.outLen.toNat, sigStep t)) = some (5, 0, 461, 834) :=
  ⟨⟨rfl, _, goOr_eq quiet (by decide +kernel)⟩, ⟨rfl, _, goOr_eq quiet (by decide +kernel)⟩,
    by decide +kernel, by decide +kernel⟩

/-- Two states that differ in what an earlier command left. -/
theorem witness_ConversionsForgetThePast :
    let s := fileState base
    let s' := { fileState base with codec := ⟨461, 834⟩, pos := 72, err := 3 }
    s ≠ s' ∧ s.input = s'.input ∧ s.inLen = s'.inLen ∧ s.inPresent = s'.inPresent ∧
      s.outCap = s'.outCap :=
  ⟨by decide +kernel, rfl, rfl, rfl, rfl⟩

theorem witness_UnitCommandsReadTheirInputOnly :
    let s := pcmState scenario
    let s' := { pcmState scenario with codec := ⟨461, 834⟩, adN := 9 }
    s ≠ s' ∧ s.bufv.pcm = s'.bufv.pcm ∧ s.pcmN = s'.pcmN ∧ s.pcmbuf = s'.pcmbuf :=
  ⟨by decide +kernel, rfl, rfl, rfl⟩

theorem witness_StepNeverWritesHostState : ∃ t, step (State.reset.withFetchWord 4 0x7) = .next t := ⟨_, rfl⟩

theorem witness_OnlyWritersTouchOutAndCodec :
    (∃ t, exec .deint (pcmState scenario) = .next t) ∧ isWriterOp .deint = false ∧
      isCodecOp .deint = false := ⟨next_of (by decide +kernel), rfl, rfl⟩

/-- A success, an abort before the writer and an IoFailure of the writer (E8). -/
theorem witness_ConversionOutcomes :
    (∃ t, exec .convT (fileState base) = .next t) ∧
    (after (exec .convT quiet) fun t => t.err) = some 1 ∧
    (after (exec .convT { fileState p2 with outCap := 46 }) fun t => (t.err, t.outLen.toNat)) =
      some (5, 46) := ⟨next_of (by decide +kernel), by decide +kernel, by decide +kernel⟩

end Sys2Proof.Tests
end

namespace Sys2Proof.Proofs.CodecEncode

open Sys2Proof.Machine

/-! ## ENC.S and ENC.B in terms of the quantiser and the update -/

/-- Inside the domain of R100 the code is the spec's formula, with the division written out. -/
theorem quant_of_inRange {k : Codec} (h : k.InRange) (x : Sample) : quant x k =
    BitVec.ofNat 4 (min ((Int.tdiv ((x.toInt - k.sig.toInt) * 8) k.step.toNat).natAbs / 2) 7 +
      if Int.tdiv ((x.toInt - k.sig.toInt) * 8) k.step.toNat < 0 then 8 else 0) := by
  rw [← scaledDiff_of_ne h.step_ne]
  rfl

/-- The two codes of ENC.B, the second quantised against the state the first left (R103). -/
theorem encodePair_eq (k : Codec) (x0 x1 : Sample) : encodePair k x0 x1 =
    (update (update k (quant x0 k)) (quant x1 (update k (quant x0 k))),
      packCodes (quant x0 k) (quant x1 (update k (quant x0 k)))) := rfl

/-- R102's example: the sample 100 against the state (15, 127). -/
theorem encodeSample_example : encodeSample ⟨15, 127⟩ 100 = (⟨94, 127⟩, 2) := by decide +kernel

/-- R103's example: the samples 0 and 100 from the state (0, 127). -/
theorem encodePair_example : encodePair ⟨0, 127⟩ 0 100 = (⟨94, 127⟩, 0x20) := by decide +kernel

/-! ## The obligations -/

/-- Settles O20: inside R100's domain the quantiser is the formula, and ENC.S then makes the update that
DEC.N of the code makes. -/
theorem encodeSampleQuantisesThenUpdates : Obligations.EncodeSampleQuantisesThenUpdates := by
  unfold Obligations.EncodeSampleQuantisesThenUpdates
  refine ⟨fun s x hs => ?_, fun s hs => ?_⟩
  · dsimp only
    rw [← quant_of_inRange hs x]
    exact ⟨_, exec_decodeCode _ s, exec_encS s x⟩
  · obtain ⟨hupdate, hcode⟩ := Prod.mk.inj encodeSample_example
    rw [exec_encS, hs, hupdate, hcode]

/-- Settles O22: the pair runs ENC.S twice, the second time from the state the first left, and packs the
earlier code low. -/
theorem encodePairPacksTwoSamples : Obligations.EncodePairPacksTwoSamples := by
  unfold Obligations.EncodePairPacksTwoSamples
  refine ⟨fun s x0 x1 => ?_, fun s hs => ?_⟩
  · exact ⟨_, _, _, _, _, exec_encS s x0, rfl, exec_encS _ x1, rfl, packCodes_toNat _ _, by
      rw [exec_encB, encodePair_eq]⟩
  · rw [exec_encB, hs, encodePair_example]

/-- Settles O23: both sides make the one `update` of the same code from the same state. -/
theorem encoderTracksDecoder : Obligations.EncoderTracksDecoder := by
  unfold Obligations.EncoderTracksDecoder
  intro s x
  exact ⟨_, quant x s.codec, _, exec_encS s x, rfl, exec_decodeCode _ s, rfl, rfl⟩

end Sys2Proof.Proofs.CodecEncode

namespace Sys2Proof.Proofs.CodecDecode

open Sys2Proof.Machine

/-- The low code of R138's example: from (0, 127) the code 0x0 leads to (15, 127). -/
theorem update_example_low : update ⟨0, 127⟩ 0 = ⟨15, 127⟩ := by decide +kernel

/-- The high code of R138's example: from (15, 127) the code 0x2 leads to (94, 127). -/
theorem update_example_high : update ⟨15, 127⟩ 2 = ⟨94, 127⟩ := by decide +kernel

/-- Settles O19: DEC.B is the two updates of DEC.N in turn, the low code's first, and each sample is the
`SIG` its update left. -/
theorem decodeByteRunsTwoCodes : Obligations.DecodeByteRunsTwoCodes := by
  unfold Obligations.DecodeByteRunsTwoCodes
  refine ⟨fun s hi lo => ?_, fun s hs => ?_⟩
  · exact ⟨_, _, exec_decodeCode lo s, exec_decodeCode hi _, exec_decB s hi lo⟩
  · rw [exec_decB, hs, update_example_low, update_example_high]

end Sys2Proof.Proofs.CodecDecode

namespace Sys2Proof.Proofs.Commands

open Sys2Proof.Machine Sys2Proof.Claims

/-- A byte of `CMD` that is none of the six of R82 selects USAGE. -/
theorem decodeCommand_of_other {c : Byte} (hConvT : c ≠ 0x74) (hConvF : c ≠ 0x66) (hEncode : c ≠ 0x01)
    (hDecode : c ≠ 0x02) (hDeint : c ≠ 0x03) (hIntl : c ≠ 0x04) : decodeCommand c = .usage c := by
  simp only [decodeCommand, hConvT, hConvF, hEncode, hDecode, hDeint, hIntl, if_false]

/-- USAGE raises UsageError on the initialised state: what it leaves is the abort of that state. -/
theorem exec_usage (c : Byte) (s : State) :
    exec (.usage c) s = .next ((s.initialise false).abort false .usageError) :=
  runCommand_of_raise rfl

/-- The initialisation of a unit command or USAGE is that of the statements (R271). -/
theorem initialise_unit (s : State) : s.initialise false = initialisedUnit s := rfl

/-- The abort of a unit command or USAGE reports the error and withdraws the output; it keeps the buffers
and their valid bits (R250). -/
theorem abort_unit (k : ErrKind) (s : State) : s.abort false k =
    { s with err := errCode k, status := 0xFFFFFFFF, outValid := false } := rfl

/-- Settles O33: USAGE is the abort of the initialised state, and the initialisation has cleared
`OUT_VALID` already. -/
theorem usageAborts : Obligations.UsageAborts := by
  unfold Obligations.UsageAborts
  refine ⟨fun c hConvT hConvF hEncode hDecode hDeint hIntl => ?_, fun s c => ?_⟩
  · rw [decode, decodeCommand_of_other hConvT hConvF hEncode hDecode hDeint hIntl]
  · rw [exec_usage, initialise_unit, abort_unit]
    rfl

end Sys2Proof.Proofs.Commands

namespace Sys2Proof.Proofs.ResetAndHazards

open Sys2Proof.Machine

/-! ## The registers after reset (R270) -/

/-- `FLAGS` with no bit set is the pattern 0 (R20 #11). -/
theorem bits_default_flags : ({} : Flags).bits = 0 := by decide

/-- `BUFV` with no bit set is the pattern 0 (R20 #27). -/
theorem bits_default_bufv : ({} : Bufv).bits = 0 := by decide

/-- The value column of R20: `CMD`, `STEP` and `OUT_CAP` apart, reset leaves 0 in every register. The two
packed registers are built from their bits; every other one is a field's own value. -/
theorem regValue_reset_eq_zero {r : Reg} (hCmd : r ≠ .cmd) (hStep : r ≠ .step) (hOutCap : r ≠ .outCap) :
    State.reset.regValue r = 0 := by
  cases r with
  | cmd => exact absurd rfl hCmd
  | step => exact absurd rfl hStep
  | outCap => exact absurd rfl hOutCap
  | flags => exact congrArg BitVec.toNat bits_default_flags
  | bufv => exact congrArg BitVec.toNat bits_default_bufv
  | _ => rfl

/-- Settles O8: the zero registers by the lemma above; `STEP`, `OUT_CAP`, `CMD` and the idle block are the
fields of the reset state itself. -/
theorem resetRegisters : Obligations.ResetRegisters := by
  unfold Obligations.ResetRegisters
  exact ⟨fun _ => regValue_reset_eq_zero, rfl, rfl, rfl, rfl⟩

end Sys2Proof.Proofs.ResetAndHazards

namespace Sys2Proof.Proofs.Encoding

open Sys2Proof.Machine

/-! ## The fallback rows (R77, R82) -/

/-- A well-formed USAGE byte is decoded as USAGE. -/
theorem decodeCommand_of_usageCodeOk {c : Byte} (h : usageCodeOk c = true) :
    decodeCommand c = .usage c := by
  simp only [usageCodeOk, commandCodes, List.contains_cons, List.contains_nil, Bool.or_false,
    Bool.not_eq_true', Bool.or_eq_false_iff, beq_eq_false_iff_ne] at h
  obtain ⟨hConvT, hConvF, hEncode, hDecode, hDeint, hIntl⟩ := h
  exact Commands.decodeCommand_of_other hConvT hConvF hEncode hDecode hDeint hIntl

/-- An id that is none of the three named ones selects CK.SKIP. -/
theorem chunkKind_of_other {id : U32} (hFmt : id ≠ 0x20746D66) (hData : id ≠ 0x61746164)
    (hSmpl : id ≠ 0x6C706D73) : chunkKind id = .skip := by
  simp only [chunkKind, hFmt, hData, hSmpl, if_false]

theorem skipIdOk_iff (id : U32) :
    skipIdOk id = true ↔ id ≠ 0x20746D66 ∧ id ≠ 0x61746164 ∧ id ≠ 0x6C706D73 := by
  simp [skipIdOk, namedChunkIds]

/-- A well-formed CK.SKIP id is decoded as CK.SKIP. -/
theorem decodeChunk_of_skipIdOk {id : U32} (h : skipIdOk id = true) (len : U32) :
    decodeChunk id len = .ckSkip id len := by
  obtain ⟨hFmt, hData, hSmpl⟩ := (skipIdOk_iff id).1 h
  simp only [decodeChunk, chunkKind_of_other hFmt hData hSmpl]

/-! ## Decoding what the encoder wrote -/

/-- The chunk decoder on two fields written by `u32bytes`. -/
theorem decode_chunk_u32bytes (id len : U32) :
    decode .chunk (u32bytes id ++ u32bytes len) = .ok (decodeChunk id len) := by
  change Except.ok (decodeChunk _ _) = _
  rw [le32_split, le32_split]

/-- Settles O1, by cases on the instruction: byte order is inverted by the split lemmas, and the two
fallback rows decode as themselves because well-formedness keeps the named values out. -/
theorem decodeOfEncode : Obligations.DecodeOfEncode := by
  unfold Obligations.DecodeOfEncode
  intro i hi
  cases i with
  | usage c => exact congrArg Except.ok (decodeCommand_of_usageCodeOk hi)
  | decB high low =>
    exact congrArg₂ (fun hi lo => Except.ok (Instr.decB hi lo)) (highCode_pack low high)
      (lowCode_pack low high)
  | encS x => exact congrArg (Except.ok ∘ Instr.encS) (le16_split x)
  | encB x0 x1 =>
    exact congrArg₂ (fun y0 y1 => Except.ok (Instr.encB y0 y1)) (le16_split x0) (le16_split x1)
  | ckFmt len => exact decode_chunk_u32bytes 0x20746D66 len
  | ckData len => exact decode_chunk_u32bytes 0x61746164 len
  | ckSmpl len => exact decode_chunk_u32bytes 0x6C706D73 len
  | ckSkip id len =>
    change decode .chunk (u32bytes id ++ u32bytes len) = _
    rw [decode_chunk_u32bytes, decodeChunk_of_skipIdOk hi]
  | _ => rfl

/-! ## Encoding what the decoder read -/

/-- The instruction is well-formed, read at the place, and encoded by the bytes. -/
def EncodedAt (p : Place) (bs : List Byte) (i : Instr) : Prop :=
  i.wellFormed = true ∧ placeOf i = p ∧ encode i = bs

theorem decodeCommand_encodedAt (c : Byte) : EncodedAt .command [c] (decodeCommand c) := by
  by_cases h : usageCodeOk c = true
  · rw [decodeCommand_of_usageCodeOk h]
    exact ⟨h, rfl, rfl⟩
  · have hmem : c ∈ commandCodes := by simpa [usageCodeOk] using h
    fin_cases hmem <;> exact ⟨rfl, rfl, rfl⟩

/-- Each of the sixteen codes is encoded as itself, in a byte. -/
theorem decodeCode_encodedAt (c : Code) : EncodedAt .code [c.setWidth 8] (decodeCode c) := by
  revert c
  refine forall_code fun n => ?_
  fin_cases n <;> exact ⟨rfl, rfl, rfl⟩

/-- A byte below 16 is its low nibble. -/
theorem setWidth_lowCode {b : Byte} (h : b.toNat < 16) : (lowCode b).setWidth 8 = b := by
  apply BitVec.eq_of_toNat_eq
  rw [BitVec.toNat_setWidth, lowCode_toNat]
  omega

theorem decodeChunk_encodedAt (id len : U32) :
    EncodedAt .chunk (u32bytes id ++ u32bytes len) (decodeChunk id len) := by
  by_cases h : skipIdOk id = true
  · rw [decodeChunk_of_skipIdOk h]
    exact ⟨h, rfl, rfl⟩
  · have hmem : id ∈ namedChunkIds := by simpa [skipIdOk] using h
    fin_cases hmem <;> exact ⟨rfl, rfl, rfl⟩

theorem decodeStep_encodedAt (k : SeqStep) : EncodedAt (.sequencer k) [] (decodeStep k) := by
  cases k <;> exact ⟨rfl, rfl, rfl⟩

/-- Settles O2, by the formats the decoder distinguishes. -/
theorem encodeOfDecode : Obligations.EncodeOfDecode := by
  unfold Obligations.EncodeOfDecode
  intro p bs i h
  change EncodedAt p bs i
  unfold decode at h
  split at h
  case h_1 c => exact Except.ok.inj h ▸ decodeCommand_encodedAt c
  case h_2 b =>
    split_ifs at h with hb
    have := decodeCode_encodedAt (lowCode b)
    rw [setWidth_lowCode hb] at this
    exact Except.ok.inj h ▸ this
  case h_3 b => exact Except.ok.inj h ▸ ⟨rfl, rfl, congrArg (fun b => [b]) (pack_low_high b)⟩
  case h_4 b0 b1 => exact Except.ok.inj h ▸ ⟨rfl, rfl, split_le16 b0 b1⟩
  case h_5 b0 b1 b2 b3 =>
    exact Except.ok.inj h ▸ ⟨rfl, rfl, congrArg₂ (· ++ ·) (split_le16 b0 b1) (split_le16 b2 b3)⟩
  case h_6 b0 b1 b2 b3 b4 b5 b6 b7 =>
    have := decodeChunk_encodedAt (le32 b0 b1 b2 b3) (le32 b4 b5 b6 b7)
    rw [split_le32, split_le32] at this
    exact Except.ok.inj h ▸ this
  case h_7 k => exact Except.ok.inj h ▸ decodeStep_encodedAt k
  case h_8 => cases h

/-! ## Which bytes decode -/

/-- As many bytes as the format of the place has decode; a code must be below 16. -/
theorem decode_of_length {p : Place} {bs : List Byte} (hlen : bs.length = p.byteCount)
    (hcode : p = .code → ∀ b ∈ bs, b.toNat < 16) : ∃ i, decode p bs = .ok i := by
  cases p with
  | command =>
    obtain ⟨c, rfl⟩ := List.length_eq_one_iff.1 hlen
    exact ⟨_, rfl⟩
  | code =>
    obtain ⟨b, rfl⟩ := List.length_eq_one_iff.1 hlen
    exact ⟨_, if_pos (hcode rfl b List.mem_cons_self)⟩
  | packed =>
    obtain ⟨b, rfl⟩ := List.length_eq_one_iff.1 hlen
    exact ⟨_, rfl⟩
  | sample =>
    obtain ⟨b0, b1, rfl⟩ := List.length_eq_two.1 hlen
    exact ⟨_, rfl⟩
  | pair =>
    match bs, hlen with
    | [b0, b1, b2, b3], _ => exact ⟨_, rfl⟩
  | chunk =>
    match bs, hlen with
    | [b0, b1, b2, b3, b4, b5, b6, b7], _ => exact ⟨_, rfl⟩
  | sequencer k =>
    obtain rfl := List.length_eq_zero_iff.1 hlen
    exact ⟨_, rfl⟩

/-- Any other number of bytes is rejected by name. -/
theorem decode_of_wrongLength {p : Place} {bs : List Byte} (hlen : bs.length ≠ p.byteCount) :
    decode p bs = .error (.wrongLength p) := by
  unfold decode
  split
  case h_8 => rfl
  all_goals exact absurd rfl hlen

/-- Settles O4. -/
theorem fullLengthWordsDecode : Obligations.FullLengthWordsDecode := by
  unfold Obligations.FullLengthWordsDecode
  exact fun p bs => ⟨decode_of_length, decode_of_wrongLength⟩

/-- Settles O3: each word is evaluated. -/
theorem specWordsDecode : Obligations.SpecWordsDecode := by
  unfold Obligations.SpecWordsDecode
  refine ⟨rfl, rfl, rfl, rfl, rfl, rfl, rfl, rfl, ?_, ?_, ?_, ?_, ?_, ?_⟩ <;> decide +kernel

end Sys2Proof.Proofs.Encoding

namespace Sys2Proof.Proofs.Dispatch

open Sys2Proof.Machine Sys2Proof.Claims

/-! ## The instructions by how they run -/

/-- The pseudocode of a reader step. -/
def readerFlow : Instr → Option (State → Flow)
  | .rdRiff => some readRiff
  | .walk => some walk
  | .ckFmt len => some (chunkFmt len)
  | .ckData len => some (chunkData len)
  | .ckSmpl len => some (chunkSmpl len)
  | .ckSkip id len => some (chunkSkip id len)
  | .walkEnd => some walkEnd
  | .rdHdr => some (readHeader Config.checkDataTag)
  | .rdPayload => some readPayload
  | _ => none

/-- The pseudocode of a writer step. -/
def writerFlow : Instr → Option (State → Flow)
  | .wrHdrA => some writeHeaderA
  | .wrDataA => some writeDataA
  | .wrSmpl => some writeSmpl
  | .wrHdrP => some writeHeaderP
  | .wrDataP => some writeDataP
  | _ => none

/-- The body of a unit command or USAGE. -/
def unitBody : Instr → Option (State → Flow)
  | .encode => some encodeBody
  | .decode => some decodeBody
  | .deint => some deintBody
  | .intl => some intlBody
  | .usage _ => some (.raise .usageError)
  | _ => none

/-- The body of a conversion. -/
def convBody : Instr → Option (State → Flow)
  | .convT => some convTBody
  | .convF => some (convFBody Config.checkDataTag)
  | _ => none

/-- A codec operation completes, writes the codec registers, with `STEP` in range (R142), and the value
it returns, and nothing else. -/
theorem exec_of_isCodecOp {i : Instr} (h : isCodecOp i = true) (s : State) :
    ∃ k r, k.InRange ∧ exec i s = .next { s with codec := k, result := r } :=
  match i, h with
  | .decN0, _ | .decN1, _ | .decN2, _ | .decN3, _ | .decN4, _ | .decN5, _ | .decN6, _ | .decN7, _
  | .decN8, _ | .decN9, _ | .decNA, _ | .decNB, _ | .decNC, _ | .decND, _ | .decNE, _ | .decNF, _
  | .decB _ _, _ | .encS _, _ | .encB _ _, _ => ⟨_, _, update_inRange _ _, rfl⟩

/-- Every way an instruction can complete. -/
inductive Completes (i : Instr) (s t : State) : Prop
  | codec {k : Codec} {r : Result} (hi : isCodecOp i = true) (hk : k.InRange)
      (ht : t = { s with codec := k, result := r })
  | reader {f : State → Flow} (hi : readerFlow i = some f) (ht : (f s).conclude true = .next t)
  | writer {f : State → Flow} (hi : writerFlow i = some f) (ht : (f s).conclude true = .next t)
  | unit {body : State → Flow} (hi : unitBody i = some body) (ht : runCommand false body s = .next t)
  | conv {body : State → Flow} (hi : convBody i = some body) (ht : runCommand true body s = .next t)

theorem completes_of_isCodecOp {i : Instr} {s t : State} (hi : isCodecOp i = true)
    (h : exec i s = .next t) : Completes i s t := by
  obtain ⟨k, r, hk, he⟩ := exec_of_isCodecOp hi s
  exact .codec hi hk (Host.Outcome.next.inj (h.symm.trans he))

theorem exec_completes {i : Instr} {s t : State} (h : exec i s = .next t) : Completes i s t := by
  cases i with
  | convT | convF => exact .conv rfl h
  | encode | decode | deint | intl | usage _ => exact .unit rfl h
  | rdRiff | walk | ckFmt _ | ckData _ | ckSmpl _ | ckSkip _ _ | walkEnd | rdHdr | rdPayload =>
    exact .reader rfl h
  | wrHdrA | wrDataA | wrSmpl | wrHdrP | wrDataP => exact .writer rfl h
  | _ => exact completes_of_isCodecOp rfl h

/-- A step waits or runs one instruction on the state from which the presentation has been taken. -/
theorem step_cases {s t : State} (h : step s = .next t) : t = s ∨ ∃ i, exec i s.taken = .next t := by
  unfold step at h
  split at h
  · exact .inl (Host.Outcome.next.inj h).symm
  · split at h
    · exact .inr ⟨_, h⟩
    · cases h

/-! ## Frames of the groups -/

theorem readerFlow_frame {i : Instr} {f : State → Flow} (hi : readerFlow i = some f) (s : State) :
    (f s).Leaves (ReaderFrame s) := by
  cases i with
  | rdRiff => cases hi; exact readRiff_frame s
  | walk => cases hi; exact walk_frame s
  | ckFmt len => cases hi; exact chunkFmt_frame len s
  | ckData len => cases hi; exact chunkData_frame len s
  | ckSmpl len => cases hi; exact chunkSmpl_frame len s
  | ckSkip id len => cases hi; exact ReaderFrame.refl s
  | walkEnd => cases hi; exact walkEnd_frame s
  | rdHdr => cases hi; exact readHeader_frame _ s
  | rdPayload => cases hi; exact readPayload_frame s
  | _ => cases hi

/-- A property that all five writer steps have, for the writer step of an instruction. -/
theorem writerFlow_leaves {i : Instr} {f : State → Flow} (hi : writerFlow i = some f) {P : State → Prop}
    {s : State} (h : (writeHeaderA s).Leaves P ∧ (writeDataA s).Leaves P ∧ (writeSmpl s).Leaves P ∧
      (writeHeaderP s).Leaves P ∧ (writeDataP s).Leaves P) : (f s).Leaves P := by
  obtain ⟨hHdrA, hDataA, hSmpl, hHdrP, hDataP⟩ := h
  cases i with
  | wrHdrA => cases hi; exact hHdrA
  | wrDataA => cases hi; exact hDataA
  | wrSmpl => cases hi; exact hSmpl
  | wrHdrP => cases hi; exact hHdrP
  | wrDataP => cases hi; exact hDataP
  | _ => cases hi

theorem isWriterOp_of_writerFlow {i : Instr} {f : State → Flow} (hi : writerFlow i = some f) :
    isWriterOp i = true := by
  cases i with
  | wrHdrA | wrDataA | wrSmpl | wrHdrP | wrDataP => rfl
  | _ => cases hi

theorem unitBody_frame {i : Instr} {body : State → Flow} (hi : unitBody i = some body) (s : State) :
    (body s).Leaves (UnitFrame s) := by
  cases i with
  | encode => cases hi; exact encodeBody_frame s
  | decode => cases hi; exact decodeBody_frame s
  | deint => cases hi; exact deintBody_frame s
  | intl => cases hi; exact intlBody_frame s
  | usage c => cases hi; rfl
  | _ => cases hi

theorem convBody_frame {i : Instr} {body : State → Flow} (hi : convBody i = some body) (s : State) :
    (body s).Leaves (BodyFrame s) := by
  cases i with
  | convT => cases hi; exact convTBody_frame s
  | convF => cases hi; exact convFBody_frame _ s
  | _ => cases hi

theorem conv_of_convBody {i : Instr} {body : State → Flow} (hi : convBody i = some body) :
    i = .convT ∨ i = .convF := by
  cases i with
  | convT => exact .inl rfl
  | convF => exact .inr rfl
  | _ => cases hi

/-! ## What no instruction writes -/

/-- The registers only the host writes, the bytes of `IN`, and the model's own fields of the
presentation and of the reads of `CMD`. -/
structure HostFrame (s t : State) : Prop where
  cmd : t.cmd = s.cmd
  inPresent : t.inPresent = s.inPresent
  inLen : t.inLen = s.inLen
  outCap : t.outCap = s.outCap
  input : t.input = s.input
  issue : t.issue = s.issue
  cmdReads : t.cmdReads = s.cmdReads

/-- What every flow of the sequencer keeps: the host's state and the last returned value. -/
structure FlowFrame (s t : State) : Prop extends HostFrame s t where
  result : t.result = s.result

theorem FlowFrame.trans {s t u : State} (h1 : FlowFrame s t) (h2 : FlowFrame t u) : FlowFrame s u where
  cmd := h2.cmd.trans h1.cmd
  inPresent := h2.inPresent.trans h1.inPresent
  inLen := h2.inLen.trans h1.inLen
  outCap := h2.outCap.trans h1.outCap
  input := h2.input.trans h1.input
  issue := h2.issue.trans h1.issue
  cmdReads := h2.cmdReads.trans h1.cmdReads
  result := h2.result.trans h1.result

theorem flowFrame_of_body {s t : State} (h : BodyFrame s t) : FlowFrame s t :=
  ⟨⟨h.cmd, h.inPresent, h.inLen, h.outCap, h.input, h.issue, h.cmdReads⟩, h.result⟩

theorem initialise_flowFrame (conv : Bool) (s : State) : FlowFrame s (s.initialise conv) := by
  refine ⟨⟨?_, ?_, ?_, ?_, ?_, ?_, ?_⟩, ?_⟩ <;> simp

theorem succeed_flowFrame (conv : Bool) (s : State) : FlowFrame s (s.succeed conv) := by
  refine ⟨⟨?_, ?_, ?_, ?_, ?_, ?_, ?_⟩, ?_⟩ <;> simp

theorem abort_flowFrame (conv : Bool) (k : ErrKind) (s : State) : FlowFrame s (s.abort conv k) := by
  refine ⟨⟨?_, ?_, ?_, ?_, ?_, ?_, ?_⟩, ?_⟩ <;> simp

theorem conclude_flowFrame {conv : Bool} {x : Flow} {s t : State} (hx : x.Leaves (BodyFrame s))
    (ht : x.conclude conv = .next t) : FlowFrame s t :=
  hx.conclude (fun _ => flowFrame_of_body)
    (fun k u hu => (flowFrame_of_body hu).trans (abort_flowFrame conv k u)) ht

theorem runCommand_flowFrame {conv : Bool} {body : State → Flow} {s t : State}
    (hb : ∀ u, (body u).Leaves (BodyFrame u)) (ht : runCommand conv body s = .next t) :
    FlowFrame s t := by
  have hinit := initialise_flowFrame conv s
  exact runCommand_leaves (hb _)
    (fun u hu => hinit.trans ((flowFrame_of_body hu).trans (succeed_flowFrame conv u)))
    (fun k u hu => hinit.trans ((flowFrame_of_body hu).trans (abort_flowFrame conv k u))) ht

/-- Every instruction keeps the host's state; only a codec operation writes `result`. -/
theorem exec_frame {i : Instr} {s t : State} (h : exec i s = .next t) :
    HostFrame s t ∧ (isCodecOp i = false → t.result = s.result) := by
  have of_flow : FlowFrame s t → HostFrame s t ∧ (isCodecOp i = false → t.result = s.result) :=
    fun hf => ⟨hf.toHostFrame, fun _ => hf.result⟩
  cases exec_completes h with
  | codec hi _ ht =>
    subst ht
    exact ⟨⟨rfl, rfl, rfl, rfl, rfl, rfl, rfl⟩, fun hn => by simp [hi] at hn⟩
  | reader hi ht =>
    exact of_flow (conclude_flowFrame ((readerFlow_frame hi s).mono fun _ hu => hu.body) ht)
  | writer hi ht =>
    exact of_flow (conclude_flowFrame
      ((writerFlow_leaves hi (writer_frame s)).mono fun _ hu => hu.body) ht)
  | unit hi ht =>
    exact of_flow (runCommand_flowFrame (fun u => (unitBody_frame hi u).mono fun _ hv => hv.body) ht)
  | conv hi ht => exact of_flow (runCommand_flowFrame (convBody_frame hi) ht)

/-- Settles O58: the instruction keeps the host's state, and taking the presentation writes `issue`
only. -/
theorem stepNeverWritesHostState : Obligations.StepNeverWritesHostState := by
  unfold Obligations.StepNeverWritesHostState
  intro s t h
  rcases step_cases h with rfl | ⟨i, hi⟩
  · exact ⟨rfl, rfl, rfl, rfl, rfl⟩
  · obtain ⟨hf, _⟩ := exec_frame hi
    exact ⟨hf.cmd, hf.inPresent, hf.inLen, hf.outCap, hf.input⟩

/-! ## Who writes OUT and the codec registers -/

/-- Outside the conversions and the writer steps no instruction writes `OUT`. -/
theorem exec_output {i : Instr} {s t : State} (h : exec i s = .next t) (hT : i ≠ .convT)
    (hF : i ≠ .convF) (hw : isWriterOp i = false) : t.output = s.output := by
  cases exec_completes h with
  | codec _ _ ht => rw [ht]
  | reader hi ht =>
    exact ((readerFlow_frame hi s).mono fun _ => ReaderFrame.output).conclude (fun _ hu => hu)
      (fun k u hu => by simpa using hu) ht
  | writer hi _ => simp [isWriterOp_of_writerFlow hi] at hw
  | unit hi ht =>
    refine runCommand_leaves (P := fun u => u.output = s.output) (Q := fun u => u.output = s.output)
      ((unitBody_frame hi _).mono fun u hu => ?_) (fun u hu => by simpa using hu)
      (fun k u hu => by simpa using hu) ht
    rw [hu, State.initialise_output]
  | conv hi _ => rcases conv_of_convBody hi with rfl | rfl <;> contradiction

/-- DEINT, INTL and USAGE leave the codec registers alone. -/
theorem unitBody_codec {i : Instr} {body : State → Flow} (hi : unitBody i = some body)
    (hE : i ≠ .encode) (hD : i ≠ .decode) (s : State) : (body s).Leaves fun t => t.codec = s.codec := by
  cases i with
  | encode => exact absurd rfl hE
  | decode => exact absurd rfl hD
  | deint =>
    cases hi
    refine Flow.leaves_of_go (fun t ht => ?_) (fun k t => deintBody_not_raise s t k)
    obtain ⟨_, _, _, _, rfl⟩ := deintBody_go ht
    rfl
  | intl =>
    cases hi
    refine Flow.leaves_of_go (fun t ht => ?_) (fun k t => intlBody_not_raise s t k)
    obtain ⟨_, _, _, _, rfl⟩ := intlBody_go ht
    rfl
  | usage c => cases hi; rfl
  | _ => cases hi

/-- Outside the codec operations and the commands that run a stream no instruction writes `SIG` or
`STEP`. -/
theorem exec_codec {i : Instr} {s t : State} (h : exec i s = .next t) (hT : i ≠ .convT)
    (hF : i ≠ .convF) (hE : i ≠ .encode) (hD : i ≠ .decode) (hc : isCodecOp i = false) :
    t.codec = s.codec := by
  cases exec_completes h with
  | codec hi _ _ => simp [hi] at hc
  | reader hi ht =>
    exact ((readerFlow_frame hi s).mono fun _ => ReaderFrame.codec).conclude (fun _ hu => hu)
      (fun k u hu => by simpa using hu) ht
  | writer hi ht =>
    exact ((writerFlow_leaves hi (writer_frame s)).mono fun _ => WriterFrame.codec).conclude
      (fun _ hu => hu) (fun k u hu => by simpa using hu) ht
  | unit hi ht =>
    refine runCommand_leaves (P := fun u => u.codec = s.codec) (Q := fun u => u.codec = s.codec)
      ((unitBody_codec hi hE hD _).mono fun u hu => ?_) (fun u hu => by simpa using hu)
      (fun k u hu => by simpa using hu) ht
    rw [hu, State.initialise_codec]
  | conv hi _ => rcases conv_of_convBody hi with rfl | rfl <;> contradiction

/-- Settles O59. -/
theorem onlyWritersTouchOutAndCodec : Obligations.OnlyWritersTouchOutAndCodec := by
  unfold Obligations.OnlyWritersTouchOutAndCodec
  intro i s t h
  obtain ⟨hf, hresult⟩ := exec_frame h
  exact ⟨exec_output h, exec_codec h, hresult, hf.issue, hf.cmdReads⟩

end Sys2Proof.Proofs.Dispatch

namespace Sys2Proof.Proofs.Walk

open Sys2Proof.Machine Sys2Proof.Claims

/-! ## What the reader of CONV.T has accepted -/

theorem channelsOk_iff (c : U16) : channelsOk c = true ↔ c = 1 ∨ c = 2 := by
  simp [channelsOk]

theorem clampLoopStart_le (len start : U32) : (clampLoopStart len start).toNat ≤ len.toNat := by
  unfold clampLoopStart
  split_ifs with h
  · exact Nat.zero_le _
  · exact Nat.le_of_not_lt h

theorem clampLoopEnd_le (len stop : U32) : (clampLoopEnd len stop).toNat ≤ len.toNat := by
  unfold clampLoopEnd
  split_ifs with h
  · exact Nat.le_refl _
  · exact Nat.le_of_not_lt h

/-- What the chunks accepted so far have established: a format has one or two channels (R83), a payload
comes behind a format and fills `PCMBUF` (R176), a loop has its bounds within the sample length
(R179). -/
structure Walked (s : State) : Prop where
  format : s.flags.fmtSeen = true → channelsOk s.cr.channels = true
  data : s.flags.dataSeen = true → s.flags.fmtSeen = true ∧ s.pcmN = s.cr.dataSize / 2
  loop : s.flags.smplSeen = true →
    s.lr.start.toNat ≤ s.sampleLength.toNat ∧ s.lr.stop.toNat ≤ s.sampleLength.toNat

/-- The loop chunk ends the walk, so while the walk goes on none has been met (R174). -/
def Walking (s : State) : Prop := Walked s ∧ s.flags.smplSeen = false

/-- `walkLoop_go` with a property of its own for the state the loop chunk leaves, which ends the walk. -/
theorem walkLoop_go_last {P Q : State → Prop}
    (hf : ∀ len s t, P s → chunkFmt len s = .go t → P t)
    (hd : ∀ len s t, P s → chunkData len s = .go t → P t)
    (hl : ∀ len s t, P s → chunkSmpl len s = .go t → Q t)
    (hk : ∀ len s, P s → P (s.seek len)) (hpq : ∀ s, P s → Q s) :
    ∀ n s t, P s → walkLoop n s = .go t → Q t := by
  intro n
  induction n with
  | zero => exact fun s t h ht => Flow.go.inj ht ▸ hpq s h
  | succ n ih =>
    intro s t h ht
    unfold walkLoop at ht
    dsimp only at ht
    split_ifs at ht
    · exact Flow.go.inj ht ▸ hpq s h
    · split at ht
      · obtain ⟨u, hu, hrest⟩ := Flow.andThen_eq_go.1 ht
        exact ih _ _ (hk _ _ (hf _ _ _ h hu)) hrest
      · obtain ⟨u, hu, hrest⟩ := Flow.andThen_eq_go.1 ht
        exact ih _ _ (hk _ _ (hd _ _ _ h hu)) hrest
      · exact hl _ _ _ h ht
      · exact ih _ _ (hk _ _ h) ht

theorem chunkFmt_walking {len : U32} {s t : State} (h : Walking s) (ht : chunkFmt len s = .go t) :
    Walking t := by
  obtain ⟨hw, hnoLoop⟩ := h
  obtain ⟨hnew, _, _, _, hch, rfl⟩ := chunkFmt_go ht
  refine ⟨⟨fun _ => hch, fun hdata => ?_, fun hsmpl => ?_⟩, hnoLoop⟩
  · exact absurd ((hw.data hdata).1) (by simp [hnew])
  · exact absurd hsmpl (by simp [hnoLoop])

theorem chunkData_walking {len : U32} {s t : State} (h : Walking s) (ht : chunkData len s = .go t) :
    Walking t := by
  obtain ⟨hw, hnoLoop⟩ := h
  obtain ⟨hfmt, _, _, _, rfl⟩ := chunkData_go ht
  exact ⟨⟨hw.format, fun _ => ⟨hfmt, rfl⟩, fun hsmpl => absurd hsmpl (by simp [hnoLoop])⟩, hnoLoop⟩

theorem chunkSmpl_walked {len : U32} {s t : State} (h : Walking s) (ht : chunkSmpl len s = .go t) :
    Walked t := by
  obtain ⟨_, rfl⟩ := chunkSmpl_go ht
  exact ⟨h.1.format, h.1.data, fun _ => ⟨clampLoopStart_le _ _, clampLoopEnd_le _ _⟩⟩

theorem seek_walking {s : State} (len : U32) (h : Walking s) : Walking (s.seek len) :=
  ⟨⟨h.1.format, h.1.data, h.1.loop⟩, h.2⟩

theorem walkLoop_walked {n : Nat} {s t : State} (h : Walking s) (ht : walkLoop n s = .go t) :
    Walked t :=
  walkLoop_go_last (fun _ _ _ => chunkFmt_walking) (fun _ _ _ => chunkData_walking)
    (fun _ _ _ => chunkSmpl_walked) (fun len _ => seek_walking len) (fun _ h => h.1) n s t h ht

/-- What the reader of CONV.T guarantees behind an accepted file. -/
structure PcmAccepted (r : State) : Prop where
  channels : r.cr.channels = 1 ∨ r.cr.channels = 2
  pcmN : r.pcmN = r.cr.dataSize / 2
  start : r.lr.start.toNat ≤ r.sampleLength.toNat
  stop : r.lr.stop.toNat ≤ r.sampleLength.toNat

theorem walkEnd_accepted {s t : State} (h : Walked s) (ht : walkEnd s = .go t) : PcmAccepted t := by
  obtain ⟨hdata, rfl⟩ := walkEnd_go ht
  obtain ⟨hfmt, hpcmN⟩ := h.data hdata
  have hch := (channelsOk_iff _).1 (h.format hfmt)
  by_cases hloop : s.flags.loopCaptured = true
  · rw [if_pos hloop]
    obtain ⟨hstart, hstop⟩ := h.loop (Bool.and_eq_true _ _ ▸ hloop).1
    exact ⟨hch, hpcmN, hstart, hstop⟩
  · rw [if_neg hloop]
    exact ⟨hch, hpcmN, Nat.zero_le _, Nat.le_refl _⟩

/-- RD.RIFF and WALK from flags that are all clear. -/
theorem pcmReader_accepted {s r : State} (hflags : s.flags = {}) (h : pcmReader s = .go r) :
    PcmAccepted r := by
  obtain ⟨t, ht, hwalk⟩ := Flow.andThen_eq_go.1 h
  obtain ⟨u, hu, hend⟩ := Flow.andThen_eq_go.1 hwalk
  obtain ⟨_, _, _, rfl⟩ := readRiff_go ht
  exact walkEnd_accepted (walkLoop_walked ⟨⟨by simp [hflags], by simp [hflags], by simp [hflags]⟩,
    by simp [hflags]⟩ hu) hend

/-! ## The container record behind the writer -/

theorem emit_cr (s : State) (bs : List Byte) : (s.emit bs).Leaves fun t => t.cr = s.cr :=
  (s.emit_frame bs).mono fun t ht => by rw [ht]

theorem writeHeaderA_cr (s : State) :
    (writeHeaderA s).Leaves fun t => t.cr = adpcmRecord s.adN s.cr := emit_cr _ _

theorem writeHeaderP_cr (s : State) : (writeHeaderP s).Leaves fun t => t.cr = pcmRecord s.cr := by
  unfold writeHeaderP
  split_ifs
  · trivial
  · exact emit_cr _ _

theorem writeAdpcmFile_cr (s : State) :
    (writeAdpcmFile s).Leaves fun t => t.cr = adpcmRecord s.adN s.cr := by
  refine (writeHeaderA_cr s).andThen' fun t ht => ?_
  refine ((emit_cr t _).mono fun _ hu => hu.trans ht).andThen' fun u hu => ?_
  split_ifs
  · exact (emit_cr u _).mono fun _ hv => hv.trans hu
  · exact hu

end Sys2Proof.Proofs.Walk

namespace Sys2Proof.Proofs.Conversions

open Sys2Proof.Machine Sys2Proof.Claims Sys2Proof.Proofs.Walk

/-! ## The bodies of the conversions in parts: reader, codec, writer -/

/-- The reader of CONV.F: RD.HDR, then RD.PAYLOAD (R222). -/
def adpcmReader (s : State) : Flow := (readHeader Config.checkDataTag s).andThen readPayload

/-- The writer of CONV.F: WR.HDR.P, then WR.DATA.P (R222). -/
def writePcmFile (s : State) : Flow := (writeHeaderP s).andThen writeDataP

theorem convTBody_eq {s : State} (h : s.inPresent = true) :
    convTBody s = (pcmReader s).andThen fun r => (encodePayload r).andThen writeAdpcmFile := by
  unfold convTBody pcmReader
  rw [if_neg (by simp [h]), Flow.andThen_assoc]

theorem convFBody_eq {s : State} (h : s.inPresent = true) :
    convFBody Config.checkDataTag s =
      (adpcmReader s).andThen fun r => (decodePayload r).andThen writePcmFile := by
  unfold convFBody adpcmReader writePcmFile
  rw [if_neg (by simp [h]), Flow.andThen_assoc]

theorem convTBody_absent {s : State} (h : s.inPresent = false) :
    convTBody s = .raise .fileNotFound s := by
  unfold convTBody
  rw [if_pos (by simp [h])]

theorem convFBody_absent {s : State} (c : Bool) (h : s.inPresent = false) :
    convFBody c s = .raise .fileNotFound s := by
  unfold convFBody
  rw [if_pos (by simp [h])]

/-- CONV.T gets to its end: the input is there, the reader accepts it, the payload is coded, the file is
written. -/
theorem convTBody_go {s t : State} (h : convTBody s = .go t) :
    ∃ r e, pcmReader s = .go r ∧ encodePayload r = .go e ∧ writeAdpcmFile e = .go t := by
  cases hp : s.inPresent with
  | false => simp [convTBody_absent hp] at h
  | true =>
    rw [convTBody_eq hp] at h
    obtain ⟨r, hr, h⟩ := Flow.andThen_eq_go.1 h
    obtain ⟨e, he, h⟩ := Flow.andThen_eq_go.1 h
    exact ⟨r, e, hr, he, h⟩

theorem convFBody_go {s t : State} (h : convFBody Config.checkDataTag s = .go t) :
    ∃ r e, adpcmReader s = .go r ∧ decodePayload r = .go e ∧ writePcmFile e = .go t := by
  cases hp : s.inPresent with
  | false => simp [convFBody_absent _ hp] at h
  | true =>
    rw [convFBody_eq hp] at h
    obtain ⟨r, hr, h⟩ := Flow.andThen_eq_go.1 h
    obtain ⟨e, he, h⟩ := Flow.andThen_eq_go.1 h
    exact ⟨r, e, hr, he, h⟩

theorem encodePayload_cr {s t : State} (h : encodePayload s = .go t) : t.cr = s.cr := by
  have := encodePayload_frame s
  rw [h] at this
  rw [this]

theorem decodePayload_cr {s t : State} (h : decodePayload s = .go t) : t.cr = s.cr := by
  have := decodePayload_frame s
  rw [h] at this
  rw [this]

/-- The container record of the written ADPCM file, from the one the reader left. -/
theorem adpcmFile_cr {r e t : State} (he : encodePayload r = .go e) (ht : writeAdpcmFile e = .go t) :
    t.cr = adpcmRecord e.adN r.cr := by
  have := writeAdpcmFile_cr e
  rw [ht] at this
  rw [← encodePayload_cr he]
  exact this

theorem writePcmFile_cr (s : State) : (writePcmFile s).Leaves fun t => t.cr = pcmRecord s.cr :=
  (writeHeaderP_cr s).andThen' fun t ht => (emit_cr t _).mono fun _ hu => hu.trans ht

theorem adpcmReader_go {s r : State} (h : adpcmReader s = .go r) :
    (r.cr.channels = 1 ∨ r.cr.channels = 2) ∧ r.adN = r.cr.dataSize := by
  obtain ⟨t, ht, hr⟩ := Flow.andThen_eq_go.1 h
  obtain ⟨_, hch, _⟩ := readHeader_go ht
  obtain ⟨_, rfl⟩ := readPayload_go hr
  exact ⟨(channelsOk_iff _).1 hch, rfl⟩

/-- A conversion that gets to its end has read one or two channels. -/
theorem convTBody_channels {s t : State} (hflags : s.flags = {}) (h : convTBody s = .go t) :
    t.cr.channels = 1 ∨ t.cr.channels = 2 := by
  obtain ⟨r, e, hr, he, ht⟩ := convTBody_go h
  rw [adpcmFile_cr he ht]
  exact (pcmReader_accepted hflags hr).channels

theorem convFBody_channels {s t : State} (h : convFBody Config.checkDataTag s = .go t) :
    t.cr.channels = 1 ∨ t.cr.channels = 2 := by
  obtain ⟨r, e, hr, he, ht⟩ := convFBody_go h
  have hcr := writePcmFile_cr e
  rw [ht, decodePayload_cr he] at hcr
  rw [show t.cr = pcmRecord r.cr from hcr]
  exact (adpcmReader_go hr).1

/-- A relation that frames of the reader, the codec part and the writer give holds of what CONV.T
leaves. -/
theorem convTBody_leaves {R : State → State → Prop} (htr : ∀ s t u, R s t → R t u → R s u)
    (hr : ∀ s t, ReaderFrame s t → R s t) (hc : ∀ s t, CodecFrame s t → R s t)
    (hw : ∀ s, (writeHeaderA s).Leaves (R s) ∧ (writeDataA s).Leaves (R s) ∧
      (writeSmpl s).Leaves (R s) ∧ (writeHeaderP s).Leaves (R s) ∧ (writeDataP s).Leaves (R s))
    (s : State) : (convTBody s).Leaves (R s) := by
  cases hp : s.inPresent with
  | false => rw [convTBody_absent hp]; exact hr s s (.refl s)
  | true =>
    rw [convTBody_eq hp]
    have hreader : (pcmReader s).Leaves (R s) := (readRiff_frame s).andThen
      (fun t ht => (walk_frame t).mono fun u hu => hr s u (ht.trans hu)) (hr s)
    refine hreader.andThen' fun r hsr => ?_
    refine ((encodePayload_frame r).mono fun e he => htr s r e hsr (hc r e he)).andThen' fun e hse => ?_
    refine ((hw e).1.mono fun t ht => htr s e t hse ht).andThen' fun t hst => ?_
    refine ((hw t).2.1.mono fun u hu => htr s t u hst hu).andThen' fun u hsu => ?_
    split_ifs
    · exact (hw u).2.2.1.mono fun v hv => htr s u v hsu hv
    · exact hsu

/-- `convTBody_leaves` for CONV.F. -/
theorem convFBody_leaves {R : State → State → Prop} (htr : ∀ s t u, R s t → R t u → R s u)
    (hr : ∀ s t, ReaderFrame s t → R s t) (hc : ∀ s t, CodecFrame s t → R s t)
    (hw : ∀ s, (writeHeaderA s).Leaves (R s) ∧ (writeDataA s).Leaves (R s) ∧
      (writeSmpl s).Leaves (R s) ∧ (writeHeaderP s).Leaves (R s) ∧ (writeDataP s).Leaves (R s))
    (s : State) : (convFBody Config.checkDataTag s).Leaves (R s) := by
  cases hp : s.inPresent with
  | false => rw [convFBody_absent _ hp]; exact hr s s (.refl s)
  | true =>
    rw [convFBody_eq hp]
    have hreader : (adpcmReader s).Leaves (R s) := (readHeader_frame _ s).andThen
      (fun t ht => (readPayload_frame t).mono fun u hu => hr s u (ht.trans hu)) (hr s)
    refine hreader.andThen' fun r hsr => ?_
    refine ((decodePayload_frame r).mono fun e he => htr s r e hsr (hc r e he)).andThen' fun e hse => ?_
    refine ((hw e).2.2.2.1.mono fun t ht => htr s e t hse ht).andThen' fun t hst => ?_
    exact (hw t).2.2.2.2.mono fun u hu => htr s t u hst hu

end Sys2Proof.Proofs.Conversions

namespace Sys2Proof.Proofs.Invariant

open Sys2Proof.Machine Sys2Proof.Claims
open Sys2Proof.Proofs.Dispatch Sys2Proof.Proofs.Walk Sys2Proof.Proofs.Conversions

/-! ## The report and the part of the invariant that bodies keep -/

theorem bodyOk_of_inv {s : State} (h : s.Inv) : BodyOk s := ⟨h.memories, h.codec, h.pos, h.output⟩

theorem inv_of_bodyOk {s : State} (h : BodyOk s) (hreport : s.ReportOk)
    (hch : s.outValid = true → s.cr.channels = 1 ∨ s.cr.channels = 2) : s.Inv :=
  ⟨h.memories, h.codec, h.pos, hreport, h.output, hch⟩

/-- The codes of R240 are 1 to 6. -/
theorem errCode_range (k : ErrKind) : 1 ≤ (errCode k).toNat ∧ (errCode k).toNat ≤ 6 := by
  cases k <;> decide

/-- An abort reports its error and offers no output, so it meets the invariant. -/
theorem abort_inv {s : State} (conv : Bool) (k : ErrKind) (h : BodyOk s) : (s.abort conv k).Inv :=
  inv_of_bodyOk (abort_ok conv k h)
    (.inr ⟨by simpa using (errCode_range k).1, by simpa using (errCode_range k).2, by simp⟩) (by simp)

/-- A success meets the invariant, when a conversion has one or two channels. -/
theorem succeed_inv {s : State} (conv : Bool) (h : BodyOk s)
    (hch : (conv || s.outValid) = true → s.cr.channels = 1 ∨ s.cr.channels = 2) :
    (s.succeed conv).Inv :=
  inv_of_bodyOk (succeed_ok conv h) (.inl ⟨by simp, by simp⟩) (by simpa using hch)

/-! ## The groups of instructions -/

theorem readerFlow_ok {i : Instr} {f : State → Flow} (hi : readerFlow i = some f) {s : State}
    (h : BodyOk s) : (f s).Leaves BodyOk := by
  cases i with
  | rdRiff => cases hi; exact readRiff_bodyOk h
  | walk => cases hi; exact walk_bodyOk h
  | ckFmt len => cases hi; exact chunkFmt_bodyOk len h
  | ckData len => cases hi; exact chunkData_bodyOk len h
  | ckSmpl len => cases hi; exact chunkSmpl_bodyOk len h
  | ckSkip id len => cases hi; exact h
  | walkEnd => cases hi; exact walkEnd_bodyOk h
  | rdHdr => cases hi; exact readHeader_bodyOk _ h
  | rdPayload => cases hi; exact readPayload_bodyOk h
  | _ => cases hi

theorem unitBody_ok {i : Instr} {body : State → Flow} (hi : unitBody i = some body) {s : State}
    (h : BodyOk s) : (body s).Leaves BodyOk := by
  cases i with
  | encode => cases hi; exact encodeBody_ok h
  | decode => cases hi; exact decodeBody_ok h
  | deint => cases hi; exact deintBody_ok h
  | intl => cases hi; exact intlBody_ok h
  | usage c => cases hi; exact h
  | _ => cases hi

theorem convBody_ok {i : Instr} {body : State → Flow} (hi : convBody i = some body) {s : State}
    (h : BodyOk s) : (body s).Leaves BodyOk := by
  cases i with
  | convT => cases hi; exact convTBody_ok h
  | convF => cases hi; exact convFBody_ok _ h
  | _ => cases hi

/-! ## The channel count of a committed output (R41) -/

theorem chunkFmt_channels {len : U32} {s t : State} (ht : chunkFmt len s = .go t) :
    channelsOk t.cr.channels = true := (chunkFmt_go ht).2.2.2.2.1

theorem chunkData_channels {len : U32} {s t : State} (ht : chunkData len s = .go t) :
    t.cr.channels = s.cr.channels := by
  obtain ⟨_, _, _, _, rfl⟩ := chunkData_go ht
  rfl

theorem chunkSmpl_channels {len : U32} {s t : State} (ht : chunkSmpl len s = .go t) :
    t.cr.channels = s.cr.channels := by
  obtain ⟨_, rfl⟩ := chunkSmpl_go ht
  rfl

theorem walkEnd_channels {s t : State} (ht : walkEnd s = .go t) : t.cr.channels = s.cr.channels := by
  obtain ⟨_, rfl⟩ := walkEnd_go ht
  split_ifs <;> rfl

theorem walk_channels {s t : State} (h : channelsOk s.cr.channels = true) (ht : walk s = .go t) :
    channelsOk t.cr.channels = true := by
  obtain ⟨u, hu, hend⟩ := Flow.andThen_eq_go.1 ht
  rw [walkEnd_channels hend]
  exact walkLoop_go (P := fun s => channelsOk s.cr.channels = true) (fun _ _ _ _ => chunkFmt_channels)
    (fun _ _ _ h ht => chunkData_channels ht ▸ h) (fun _ _ _ h ht => chunkSmpl_channels ht ▸ h)
    (fun _ _ h => h) _ s u h hu

/-- A reader step that goes on keeps one or two channels. -/
theorem readerFlow_channels {i : Instr} {f : State → Flow} (hi : readerFlow i = some f) {s t : State}
    (h : channelsOk s.cr.channels = true) (ht : f s = .go t) : channelsOk t.cr.channels = true := by
  cases i with
  | rdRiff =>
    cases hi
    obtain ⟨_, _, _, rfl⟩ := readRiff_go ht
    exact h
  | walk => cases hi; exact walk_channels h ht
  | ckFmt len => cases hi; exact chunkFmt_channels ht
  | ckData len => cases hi; exact chunkData_channels ht ▸ h
  | ckSmpl len => cases hi; exact chunkSmpl_channels ht ▸ h
  | ckSkip id len => cases hi; exact Flow.go.inj ht ▸ h
  | walkEnd => cases hi; exact walkEnd_channels ht ▸ h
  | rdHdr => cases hi; exact (readHeader_go ht).2.1
  | rdPayload =>
    cases hi
    obtain ⟨_, rfl⟩ := readPayload_go ht
    exact h
  | _ => cases hi

/-- No writer step changes the channel count (R200, R204). -/
theorem writer_channels (s : State) :
    (writeHeaderA s).Leaves (fun t => t.cr.channels = s.cr.channels) ∧
      (writeDataA s).Leaves (fun t => t.cr.channels = s.cr.channels) ∧
      (writeSmpl s).Leaves (fun t => t.cr.channels = s.cr.channels) ∧
      (writeHeaderP s).Leaves (fun t => t.cr.channels = s.cr.channels) ∧
      (writeDataP s).Leaves (fun t => t.cr.channels = s.cr.channels) :=
  ⟨(writeHeaderA_cr s).mono fun _ => congrArg ContainerRec.channels,
    (emit_cr s _).mono fun _ => congrArg ContainerRec.channels,
    (emit_cr s _).mono fun _ => congrArg ContainerRec.channels,
    (writeHeaderP_cr s).mono fun _ => congrArg ContainerRec.channels,
    (emit_cr s _).mono fun _ => congrArg ContainerRec.channels⟩

theorem convBody_channels {i : Instr} {body : State → Flow} (hi : convBody i = some body) {s t : State}
    (hflags : s.flags = {}) (ht : body s = .go t) : t.cr.channels = 1 ∨ t.cr.channels = 2 := by
  cases i with
  | convT => cases hi; exact convTBody_channels hflags ht
  | convF => cases hi; exact convFBody_channels ht
  | _ => cases hi

/-! ## The invariant -/

/-- A reader or writer step presented on its own keeps the invariant, when its body keeps the body's part
and the channel count. -/
theorem conclude_inv {x : Flow} {s t : State} (h : s.Inv) (hok : x.Leaves BodyOk)
    (hframe : x.Leaves (BodyFrame s))
    (hch : ∀ u, x = .go u → channelsOk s.cr.channels = true → channelsOk u.cr.channels = true)
    (ht : x.conclude true = .next t) : t.Inv := by
  rcases Flow.conclude_cases ht with rfl | ⟨k, u, rfl, rfl⟩
  · refine inv_of_bodyOk hok ?_ fun hv => ?_
    · unfold State.ReportOk
      rw [BodyFrame.err hframe, BodyFrame.status hframe]
      exact h.report
    · rw [BodyFrame.outValid hframe] at hv
      exact (channelsOk_iff _).1 (hch t rfl ((channelsOk_iff _).2 (h.channels hv)))
  · exact abort_inv true k hok

/-- A unit command or USAGE keeps the invariant: it withdraws the output (R271). -/
theorem runUnit_inv {i : Instr} {body : State → Flow} (hi : unitBody i = some body) {s t : State}
    (h : s.Inv) (ht : runCommand false body s = .next t) : t.Inv := by
  have hok := unitBody_ok hi (initialise_ok false (bodyOk_of_inv h))
  have hframe := (unitBody_frame hi (s.initialise false)).mono fun _ hu => hu.body
  refine runCommand_leaves (hok.and hframe) (fun u ⟨hu, hf⟩ => ?_) (fun k u ⟨hu, _⟩ =>
    abort_inv false k hu) ht
  exact succeed_inv false hu fun hv => by simp [hf.outValid] at hv

/-- A conversion keeps the invariant: where it succeeds, its reader has seen one or two channels. -/
theorem runConv_inv {i : Instr} {body : State → Flow} (hi : convBody i = some body) {s t : State}
    (h : s.Inv) (ht : runCommand true body s = .next t) : t.Inv := by
  have hok := convBody_ok hi (initialise_ok true (bodyOk_of_inv h))
  rcases runCommand_cases ht with ⟨u, hu, rfl⟩ | ⟨k, u, hu, rfl⟩
  · rw [hu] at hok
    exact succeed_inv true hok fun _ => convBody_channels hi (by simp) hu
  · rw [hu] at hok
    exact abort_inv true k hok

theorem exec_keepsInv {i : Instr} {s t : State} (h : s.Inv) (ht : exec i s = .next t) : t.Inv := by
  cases exec_completes ht with
  | codec _ hk ht => exact ht ▸ ⟨h.memories, hk, h.pos, h.report, h.output, h.channels⟩
  | reader hi ht =>
    exact conclude_inv h (readerFlow_ok hi (bodyOk_of_inv h))
      ((readerFlow_frame hi s).mono fun _ hu => hu.body) (fun u hu hc => readerFlow_channels hi hc hu) ht
  | writer hi ht =>
    refine conclude_inv h (writerFlow_leaves hi (writer_bodyOk (bodyOk_of_inv h)))
      ((writerFlow_leaves hi (writer_frame s)).mono fun _ hu => hu.body) (fun u hu hc => ?_) ht
    have hch := writerFlow_leaves hi (writer_channels s)
    rw [hu] at hch
    rwa [show u.cr.channels = s.cr.channels from hch]
  | unit hi ht => exact runUnit_inv hi h ht
  | conv hi ht => exact runConv_inv hi h ht

theorem taken_inv {s : State} (h : s.Inv) : s.taken.Inv :=
  ⟨h.memories, h.codec, h.pos, h.report, h.output, h.channels⟩

/-- Settles O12: a step waits, or runs one instruction, and every group of instructions keeps the
invariant. -/
theorem stepKeepsInv : Obligations.StepKeepsInv := by
  unfold Obligations.StepKeepsInv
  intro s t h ht
  rcases step_cases ht with rfl | ⟨i, hi⟩
  · exact h
  · exact exec_keepsInv (taken_inv h) hi

/-- Settles O11: nothing is listed, `OUT_LEN` is 0, no output is offered. -/
theorem resetMeetsInv : Obligations.ResetMeetsInv where
  memories := ⟨.nil, .nil, .nil, .nil, .nil, .nil⟩
  codec := initial_inRange
  pos := by decide
  report := .inl ⟨rfl, rfl⟩
  output := fun a ha => absurd ha (Nat.not_lt_zero a)
  channels := fun h => by cases h

/-! ## The host's writes -/

/-- Clearing a valid bit discards the buffer, so every buffer stays canonical. -/
theorem discard_ite_wf {α : Type} (c : Prop) [Decidable c] {b : Buf α} (h : b.cells.wf) :
    (if c then b.discard else b).cells.wf := by
  split_ifs
  · exact b.discard_wf
  · exact h

/-- Settles O13: a write changes a register the invariant does not speak of, or one element of a
memory. -/
theorem hostWriteKeepsInv : Obligations.HostWriteKeepsInv := by
  unfold Obligations.HostWriteKeepsInv
  intro w s t h ht
  unfold hostWrite at ht
  split_ifs at ht
  obtain rfl := Host.Outcome.next.inj ht
  obtain ⟨hin, hout, hpcm, had, hchl, hchr⟩ := h.memories
  have keep : ∀ u : State, u.MemoriesWf → u = { s with
      cmd := u.cmd, issue := u.issue, inPresent := u.inPresent, inLen := u.inLen, outCap := u.outCap
      pcmN := u.pcmN, adN := u.adN, chN := u.chN, bufv := u.bufv, input := u.input
      pcmbuf := u.pcmbuf, adbuf := u.adbuf, chl := u.chl, chr := u.chr } → u.Inv := by
    rintro u hwf hu
    rw [hu] at hwf ⊢
    exact ⟨hwf, h.codec, h.pos, h.report, h.output, h.channels⟩
  refine keep _ ?_ ?_
  · cases w with
    | inByte a b => exact ⟨Memory.put_wf _ _ hin, hout, hpcm, had, hchl, hchr⟩
    | pcm i x => exact ⟨hin, hout, Buf.put_wf _ _ hpcm, had, hchl, hchr⟩
    | ad i b => exact ⟨hin, hout, hpcm, Buf.put_wf _ _ had, hchl, hchr⟩
    | chl i x => exact ⟨hin, hout, hpcm, had, Buf.put_wf _ _ hchl, hchr⟩
    | chr i x => exact ⟨hin, hout, hpcm, had, hchl, Buf.put_wf _ _ hchr⟩
    | bufv v =>
      exact ⟨hin, hout, discard_ite_wf _ hpcm, discard_ite_wf _ had, discard_ite_wf _ hchl,
        discard_ite_wf _ hchr⟩
    | _ => exact ⟨hin, hout, hpcm, had, hchl, hchr⟩
  · cases w <;> rfl

/-! ## `OUT_LEN` within `OUT_CAP` (R206) -/

theorem CapKept.trans (s t u : State) (h1 : CapKept s t) (h2 : CapKept t u) : CapKept s u :=
  fun h => h2 (h1 h)

theorem capKept_of_eq {s t : State} (hlen : t.outLen = s.outLen) (hcap : t.outCap = s.outCap) :
    CapKept s t := by
  unfold CapKept
  rw [hlen, hcap]
  exact id

theorem convBody_cap {i : Instr} {body : State → Flow} (hi : convBody i = some body) (s : State) :
    (body s).Leaves (CapKept s) := by
  have hr : ∀ s t, ReaderFrame s t → CapKept s t := fun _ _ h => capKept_of_eq h.outLen h.outCap
  have hc : ∀ s t, CodecFrame s t → CapKept s t := fun _ _ h => capKept_of_eq (by rw [h]) (by rw [h])
  cases i with
  | convT => cases hi; exact convTBody_leaves CapKept.trans hr hc writer_cap s
  | convF => cases hi; exact convFBody_leaves CapKept.trans hr hc writer_cap s
  | _ => cases hi

/-- A command starts from `OUT_LEN` = 0 (R271), and success and abort keep `OUT_LEN`. -/
theorem runCommand_cap {conv : Bool} {body : State → Flow} {s t : State}
    (hb : ∀ u, (body u).Leaves (CapKept u)) (ht : runCommand conv body s = .next t) :
    t.outLen.toNat ≤ t.outCap.toNat :=
  runCommand_leaves (Q := fun t => t.outLen.toNat ≤ t.outCap.toNat)
    ((hb (s.initialise conv)).mono fun u hu => hu (by simp))
    (fun u hu => by simpa using hu) (fun k u hu => by simpa using hu) ht

theorem conclude_cap {x : Flow} {s t : State} (hx : x.Leaves (CapKept s))
    (ht : x.conclude true = .next t) : CapKept s t :=
  hx.conclude (fun _ hu => hu)
    (fun k u hu => CapKept.trans s u _ hu (capKept_of_eq (by simp) (by simp))) ht

theorem exec_cap {i : Instr} {s t : State} (ht : exec i s = .next t) : CapKept s t := by
  cases exec_completes ht with
  | codec _ _ ht => exact ht ▸ capKept_of_eq rfl rfl
  | reader hi ht =>
    exact conclude_cap ((readerFlow_frame hi s).mono fun u hu => capKept_of_eq hu.outLen hu.outCap) ht
  | writer hi ht => exact conclude_cap (writerFlow_leaves hi (writer_cap s)) ht
  | unit hi ht =>
    exact fun _ => runCommand_cap (fun u => (unitBody_frame hi u).mono fun v hv =>
      capKept_of_eq (by rw [hv]) (by rw [hv])) ht
  | conv hi ht => exact fun _ => runCommand_cap (convBody_cap hi) ht

/-- Settles O14. -/
theorem stepKeepsOutLenWithinCap : Obligations.StepKeepsOutLenWithinCap := by
  unfold Obligations.StepKeepsOutLenWithinCap
  intro s t h ht
  rcases step_cases ht with rfl | ⟨i, hi⟩
  · exact h
  · exact exec_cap hi h

end Sys2Proof.Proofs.Invariant

namespace Sys2Proof.Proofs.CodecRules

open Sys2Proof.Machine Sys2Proof.Claims

/-! ## The update of R120 in the form of R122 to R137 -/

theorem clampInt_sig (v : Int) : clampInt v (-32768) 32767 = clampSig v :=
  clampInt_eq v _ _ (by decide)

/-- A code with the table entry `m` adds `floor(m * step / 8)` to the signal. -/
theorem update_sig_of_pos (k : Codec) {c : Code} {m : Nat} (hc : diffLookup c = m) :
    (update k c).sig = BitVec.ofInt 16 (clampSig (k.sig.toInt + (m * k.step.toNat / 8 : Nat))) := by
  simp only [update, hc, tdiv_eighth, clampInt_sig]

/-- A code with the table entry `-m` takes `floor(m * step / 8)` from it: the division truncates toward
zero (D7). -/
theorem update_sig_of_neg (k : Codec) {c : Code} {m : Nat} (hc : diffLookup c = -(m : Int)) :
    (update k c).sig = BitVec.ofInt 16 (clampSig (k.sig.toInt - (m * k.step.toNat / 8 : Nat))) := by
  simp only [update, hc, tdiv_eighth_neg, clampInt_sig, Int.sub_eq_add_neg]

/-- The step after an update, as a natural number clamped on both sides. -/
theorem update_step (k : Codec) (c : Code) : (update k c).step =
    BitVec.ofNat 16 (max 127 (min 24576 (k.step.toNat * stepScale c / 256))) := by
  apply BitVec.eq_of_toNat_eq
  have h := update_step_toNat k c
  rw [clampInt_eq _ _ _ (by decide)] at h
  rw [BitVec.toNat_ofNat]
  omega

/-- The factor 230 lowers the step, so the upper clamp does not act. -/
theorem update_step_down {k : Codec} (hk : k.InRange) {c : Code} (hc : stepScale c = 230) :
    (update k c).step = BitVec.ofNat 16 (max 127 (k.step.toNat * 230 / 256)) := by
  obtain ⟨_, hhi⟩ := hk
  rw [update_step, hc, Nat.min_eq_right (by omega)]

/-- A factor of at least 256 does not lower the step, so the lower clamp does not act. -/
theorem update_step_up {k : Codec} (hk : k.InRange) {c : Code} (hc : 256 ≤ stepScale c) :
    (update k c).step = BitVec.ofNat 16 (min 24576 (k.step.toNat * stepScale c / 256)) := by
  obtain ⟨hlo, _⟩ := hk
  have hge : 127 ≤ k.step.toNat * stepScale c / 256 :=
    (Nat.le_div_iff_mul_le (by decide)).2 (Nat.mul_le_mul hlo hc)
  rw [update_step, Nat.max_eq_right (by omega)]

/-- DEC.N of a code, from what its update leaves. -/
theorem exec_decodeCode_decNext {c : Code} {s : State} {sig : Int} {step : Nat}
    (hsig : (update s.codec c).sig = BitVec.ofInt 16 sig)
    (hstep : (update s.codec c).step = BitVec.ofNat 16 step) :
    exec (decodeCode c) s = .next (decNext s sig step) := by
  rw [exec_decodeCode, hsig, show update s.codec c = ⟨BitVec.ofInt 16 sig, BitVec.ofNat 16 step⟩ from
    Codec.ext hsig hstep]
  rfl

/-- The codes 0x0 to 0x3 and 0x8 to 0xB multiply the step by 230 / 256 (R73). -/
theorem exec_decodeCode_down {s : State} (hs : s.codec.InRange) {c : Code} {sig : Int}
    (hsig : (update s.codec c).sig = BitVec.ofInt 16 sig) (hc : stepScale c = 230) :
    exec (decodeCode c) s = .next (decNext s sig (max 127 (s.codec.step.toNat * 230 / 256))) :=
  exec_decodeCode_decNext hsig (update_step_down hs hc)

/-- The codes 0x4 to 0x7 and 0xC to 0xF multiply it by at least 256 / 256 (R73). -/
theorem exec_decodeCode_up {s : State} (hs : s.codec.InRange) {c : Code} {sig : Int}
    (hsig : (update s.codec c).sig = BitVec.ofInt 16 sig) (hc : 256 ≤ stepScale c) :
    exec (decodeCode c) s =
      .next (decNext s sig (min 24576 (s.codec.step.toNat * stepScale c / 256))) :=
  exec_decodeCode_decNext hsig (update_step_up hs hc)

/-- A worked example, from the two updates it is about. -/
theorem decExample_of_update {c : Code} {sig0 sig1 : Int} {step0 step1 : Nat}
    (h0 : update ⟨0, 127⟩ c = ⟨BitVec.ofInt 16 sig0, BitVec.ofNat 16 step0⟩)
    (h1 : update ⟨1000, 1000⟩ c = ⟨BitVec.ofInt 16 sig1, BitVec.ofNat 16 step1⟩) :
    DecExample (decodeCode c) sig0 step0 sig1 step1 := by
  refine fun s => ⟨fun hs => ?_, fun hs => ?_⟩
  · exact exec_decodeCode_decNext (by rw [hs, h0]) (by rw [hs, h0])
  · exact exec_decodeCode_decNext (by rw [hs, h1]) (by rw [hs, h1])

/-- `2 * step` is the factor 512 / 256 of the codes 0x6 and 0xE. -/
theorem mul_512_div (n : Nat) : n * 512 / 256 = 2 * n := by omega

/-- Settles O15. -/
theorem decodeCodes0To3 : Obligations.DecodeCodes0To3 := by
  unfold Obligations.DecodeCodes0To3
  refine ⟨fun s hs => ⟨?_, ?_, ?_, ?_⟩, ?_, ?_, ?_, ?_⟩
  · have := update_sig_of_pos s.codec (c := 0x0) (m := 1) rfl
    rw [Nat.one_mul] at this
    exact exec_decodeCode_down hs this rfl
  · exact exec_decodeCode_down (c := 0x1) hs (update_sig_of_pos _ rfl) rfl
  · exact exec_decodeCode_down (c := 0x2) hs (update_sig_of_pos _ rfl) rfl
  · exact exec_decodeCode_down (c := 0x3) hs (update_sig_of_pos _ rfl) rfl
  · exact decExample_of_update (c := 0x0) (by decide +kernel) (by decide +kernel)
  · exact decExample_of_update (c := 0x1) (by decide +kernel) (by decide +kernel)
  · exact decExample_of_update (c := 0x2) (by decide +kernel) (by decide +kernel)
  · exact decExample_of_update (c := 0x3) (by decide +kernel) (by decide +kernel)

/-- Settles O16. -/
theorem decodeCodes4To7 : Obligations.DecodeCodes4To7 := by
  unfold Obligations.DecodeCodes4To7
  refine ⟨fun s hs => ⟨?_, ?_, ?_, ?_⟩, ?_, ?_, ?_, ?_⟩
  · exact exec_decodeCode_up (c := 0x4) hs (update_sig_of_pos _ rfl) (by decide)
  · exact exec_decodeCode_up (c := 0x5) hs (update_sig_of_pos _ rfl) (by decide)
  · rw [← mul_512_div]
    exact exec_decodeCode_up (c := 0x6) hs (update_sig_of_pos _ rfl) (by decide)
  · exact exec_decodeCode_up (c := 0x7) hs (update_sig_of_pos _ rfl) (by decide)
  · exact decExample_of_update (c := 0x4) (by decide +kernel) (by decide +kernel)
  · exact decExample_of_update (c := 0x5) (by decide +kernel) (by decide +kernel)
  · exact decExample_of_update (c := 0x6) (by decide +kernel) (by decide +kernel)
  · exact decExample_of_update (c := 0x7) (by decide +kernel) (by decide +kernel)

/-- Settles O17. -/
theorem decodeCodes8ToB : Obligations.DecodeCodes8ToB := by
  unfold Obligations.DecodeCodes8ToB
  refine ⟨fun s hs => ⟨?_, ?_, ?_, ?_⟩, ?_, ?_, ?_, ?_⟩
  · have := update_sig_of_neg s.codec (c := 0x8) (m := 1) rfl
    rw [Nat.one_mul] at this
    exact exec_decodeCode_down hs this rfl
  · exact exec_decodeCode_down (c := 0x9) hs (update_sig_of_neg _ rfl) rfl
  · exact exec_decodeCode_down (c := 0xA) hs (update_sig_of_neg _ rfl) rfl
  · exact exec_decodeCode_down (c := 0xB) hs (update_sig_of_neg _ rfl) rfl
  · exact decExample_of_update (c := 0x8) (by decide +kernel) (by decide +kernel)
  · exact decExample_of_update (c := 0x9) (by decide +kernel) (by decide +kernel)
  · exact decExample_of_update (c := 0xA) (by decide +kernel) (by decide +kernel)
  · exact decExample_of_update (c := 0xB) (by decide +kernel) (by decide +kernel)

/-- Settles O18. -/
theorem decodeCodesCToF : Obligations.DecodeCodesCToF := by
  unfold Obligations.DecodeCodesCToF
  refine ⟨fun s hs => ⟨?_, ?_, ?_, ?_⟩, ?_, ?_, ?_, ?_⟩
  · exact exec_decodeCode_up (c := 0xC) hs (update_sig_of_neg _ rfl) (by decide)
  · exact exec_decodeCode_up (c := 0xD) hs (update_sig_of_neg _ rfl) (by decide)
  · rw [← mul_512_div]
    exact exec_decodeCode_up (c := 0xE) hs (update_sig_of_neg _ rfl) (by decide)
  · exact exec_decodeCode_up (c := 0xF) hs (update_sig_of_neg _ rfl) (by decide)
  · exact decExample_of_update (c := 0xC) (by decide +kernel) (by decide +kernel)
  · exact decExample_of_update (c := 0xD) (by decide +kernel) (by decide +kernel)
  · exact decExample_of_update (c := 0xE) (by decide +kernel) (by decide +kernel)
  · exact decExample_of_update (c := 0xF) (by decide +kernel) (by decide +kernel)

/-! ## The decision levels of the quantiser (R101) -/

theorem step_pos {k : Codec} (hk : k.InRange) : 0 < k.step.toNat := Nat.lt_of_lt_of_le (by decide) hk.1

/-- The magnitude of `scaled` is `floor(8a / step)`. -/
theorem scaledDiff_natAbs {k : Codec} (hk : k.InRange) (x : Sample) :
    (scaledDiff x k).natAbs = 8 * (x.toInt - k.sig.toInt).natAbs / k.step.toNat := by
  rw [scaledDiff_of_ne hk.step_ne, Int.natAbs_tdiv, Int.natAbs_mul, Nat.mul_comm]
  rfl

/-- `scaled` is negative exactly for a negative difference of at least `step / 8`: a smaller one is
truncated to 0. -/
theorem scaledDiff_neg_iff {k : Codec} (hk : k.InRange) (x : Sample) : scaledDiff x k < 0 ↔
    x.toInt < k.sig.toInt ∧ k.step.toNat ≤ 8 * (x.toInt - k.sig.toInt).natAbs := by
  have hpos := step_pos hk
  have habs := scaledDiff_natAbs hk x
  have hzero : scaledDiff x k = 0 ↔ 8 * (x.toInt - k.sig.toInt).natAbs < k.step.toNat := by
    rw [← Int.natAbs_eq_zero, habs, Nat.div_eq_zero_iff]
    omega
  by_cases hdiff : x.toInt < k.sig.toInt
  · have hle : scaledDiff x k ≤ 0 := by
      rw [scaledDiff_of_ne hk.step_ne]
      have := Int.tdiv_nonneg (a := -((x.toInt - k.sig.toInt) * 8)) (b := k.step.toNat) (by omega)
        (by omega)
      rw [Int.neg_tdiv] at this
      omega
    omega
  · have hge : 0 ≤ scaledDiff x k := by
      rw [scaledDiff_of_ne hk.step_ne]
      exact Int.tdiv_nonneg (by omega) (by omega)
    omega

/-- The magnitude bits of the code (R101). -/
theorem quant_magnitude {k : Codec} (hk : k.InRange) (x : Sample) : (quant x k).toNat % 8 =
    min (4 * (x.toInt - k.sig.toInt).natAbs / k.step.toNat) 7 := by
  have hhalf : 8 * (x.toInt - k.sig.toInt).natAbs / k.step.toNat / 2 =
      4 * (x.toInt - k.sig.toInt).natAbs / k.step.toNat := by
    rw [Nat.div_div_eq_div_mul, Nat.mul_comm _ 2, ← Nat.div_div_eq_div_mul]
    congr 1
    omega
  rw [quant_toNat, scaledDiff_natAbs hk, hhalf]
  generalize 4 * (x.toInt - k.sig.toInt).natAbs / k.step.toNat = q
  split_ifs <;> omega

/-- The sign bit of the code (R101). -/
theorem quant_sign {k : Codec} (hk : k.InRange) (x : Sample) : 8 ≤ (quant x k).toNat ↔
    x.toInt < k.sig.toInt ∧ k.step.toNat ≤ 8 * (x.toInt - k.sig.toInt).natAbs := by
  rw [← scaledDiff_neg_iff hk, quant_toNat]
  split_ifs with h
  · exact ⟨fun _ => h, fun _ => by omega⟩
  · exact ⟨fun hge => by omega, fun hneg => absurd hneg h⟩

/-- Settles O21. -/
theorem quantiserDecisionLevels : Obligations.QuantiserDecisionLevels := by
  unfold Obligations.QuantiserDecisionLevels
  intro s x hs
  exact ⟨_, quant x s.codec, exec_encS s x, rfl, quant_magnitude hs x, quant_sign hs x⟩

/-! ## The reconstruction error (R141) -/

/-- `DIFF_LOOKUP` is the odd number of the magnitude, signed (R72). -/
theorem diffLookup_eq (c : Code) : diffLookup c =
    if 8 ≤ c.toNat then -((2 * (c.toNat % 8) + 1 : Nat) : Int) else (2 * (c.toNat % 8) + 1 : Nat) := by
  revert c
  refine forall_code fun n => ?_
  fin_cases n <;> rfl

theorem clampSig_of_range {v : Int} (hlo : -32768 ≤ v) (hhi : v ≤ 32767) : clampSig v = v := by
  unfold clampSig
  omega

/-- Where the clamp of the signal does not act, an update moves it by the whole step size. -/
theorem update_sig_toInt_of_range {k : Codec} {c : Code} {size : Int}
    (hsize : size = (k.step.toNat * (2 * (c.toNat % 8) + 1) / 8 : Nat))
    (hlo : -32768 ≤ if 8 ≤ c.toNat then k.sig.toInt - size else k.sig.toInt + size)
    (hhi : (if 8 ≤ c.toNat then k.sig.toInt - size else k.sig.toInt + size) ≤ 32767) :
    (update k c).sig.toInt = if 8 ≤ c.toNat then k.sig.toInt - size else k.sig.toInt + size := by
  have hc := diffLookup_eq c
  rw [Nat.mul_comm] at hsize
  split_ifs at hc hlo hhi ⊢
  · rw [update_sig_of_neg k hc, ← hsize, clampSig_of_range hlo hhi, toInt_ofInt16 hlo hhi]
  · rw [update_sig_of_pos k hc, ← hsize, clampSig_of_range hlo hhi, toInt_ofInt16 hlo hhi]

/-- The middle of a quantiser cell is less than half a cell away: with `m = floor(4a / step)`, the size
`floor(step * (2m + 1) / 8)` is within `step / 8 + 1` of `a`. -/
theorem cell_middle {a st : Nat} (hst : 0 < st) :
    8 * ((a : Int) - (st * (2 * (4 * a / st) + 1) / 8 : Nat)).natAbs < st + 8 := by
  have hlo : 4 * a / st * st ≤ 4 * a := Nat.div_mul_le_self _ _
  have hhi : 4 * a < 4 * a / st * st + st := Nat.lt_div_mul_add hst
  have hmid : st * (2 * (4 * a / st) + 1) = 2 * (4 * a / st * st) + st := by ring
  rw [hmid]
  generalize 4 * a / st * st = p at *
  omega

/-- Settles O25: the new signal is in the middle of the sample's cell, or, where a small negative
difference was truncated to the code 0, on the other side of the old one. -/
theorem reconstructionErrorBound : Obligations.ReconstructionErrorBound := by
  unfold Obligations.ReconstructionErrorBound
  intro s x hs
  dsimp only
  intro hsat hlo hhi
  refine ⟨_, exec_encS s x, ?_⟩
  dsimp only
  have hst := step_pos hs
  have hmag := quant_magnitude hs x
  have hsign := quant_sign hs x
  generalize quant x s.codec = c at *
  have hq : 4 * (x.toInt - s.codec.sig.toInt).natAbs / s.codec.step.toNat < 7 :=
    (Nat.div_lt_iff_lt_mul hst).2 hsat
  rw [Nat.min_eq_left (Nat.le_of_lt hq)] at hmag
  rw [← hmag] at hlo hhi
  simp only [← hsign] at hlo hhi
  rw [update_sig_toInt_of_range rfl hlo hhi, hmag]
  have hmid := cell_middle (a := (x.toInt - s.codec.sig.toInt).natAbs) hst
  by_cases hneg : 8 ≤ c.toNat
  · obtain ⟨hlt, hge⟩ := hsign.1 hneg
    rw [if_neg (by omega), if_pos hneg]
    omega
  · rw [if_neg hneg]
    by_cases hsmall : x.toInt < s.codec.sig.toInt ∧
        8 * (x.toInt - s.codec.sig.toInt).natAbs < s.codec.step.toNat
    · obtain ⟨hlt, hsize⟩ := hsmall
      rw [if_pos ⟨hlt, hsize⟩, Nat.div_eq_of_lt (by omega : 4 * _ < _)]
      omega
    · rw [if_neg hsmall]
      have hge : s.codec.sig.toInt ≤ x.toInt := by
        by_contra hlt
        exact hneg (hsign.2 ⟨by omega, by omega⟩)
      omega

/-! ## The range of STEP, its fixed points and its ramps (R142) -/

/-- The step after an update depends on the old step and the code only. -/
def nextStep (c : Code) (step : BitVec 16) : BitVec 16 := (update ⟨0, step⟩ c).step

theorem update_step_eq_nextStep (k : Codec) (c : Code) : (update k c).step = nextStep c k.step := rfl

/-- DEC.N of one code over and over iterates the step. -/
theorem execAll_replicate_step (n : Nat) (c : Code) (s : State) :
    ∃ t, execAll (List.replicate n (decodeCode c)) s = .next t ∧
      t.codec.step = (nextStep c)^[n] s.codec.step := by
  induction n generalizing s with
  | zero => exact ⟨s, rfl, rfl⟩
  | succ n ih =>
    obtain ⟨t, ht, hstep⟩ := ih { s with
      codec := update s.codec c, result := .samples [(update s.codec c).sig] }
    refine ⟨t, ?_, hstep⟩
    rw [List.replicate_succ, execAll, exec_decodeCode]
    exact ht

theorem nextStep_fixed_low : ∀ c : Code, c.toNat % 8 < 4 → nextStep c 127 = 127 := by decide +kernel

theorem nextStep_fixed_high : ∀ c : Code, 4 ≤ c.toNat % 8 → nextStep c 24576 = 24576 := by
  decide +kernel

/-- Settles O24. -/
theorem codecRangeAndRamps : Obligations.CodecRangeAndRamps := by
  unfold Obligations.CodecRangeAndRamps
  refine ⟨fun i s hi => ?_, fun c s hc hs => ?_, fun c s hc hs => ?_, fun s hs => ?_, fun s hs => ?_⟩
  · obtain ⟨k, r, hk, he⟩ := Dispatch.exec_of_isCodecOp hi s
    exact ⟨_, he, hk⟩
  · exact ⟨_, exec_decodeCode c s, by rw [update_step_eq_nextStep, hs, nextStep_fixed_low c hc]⟩
  · exact ⟨_, exec_decodeCode c s, by rw [update_step_eq_nextStep, hs, nextStep_fixed_high c hc]⟩
  · obtain ⟨t, ht, hstep⟩ := execAll_replicate_step 7 0x7 s
    exact ⟨t, ht, by rw [hstep, hs]; decide +kernel⟩
  · obtain ⟨t, ht, hstep⟩ := execAll_replicate_step 49 0x0 s
    exact ⟨t, ht, by rw [hstep, hs]; decide +kernel⟩

end Sys2Proof.Proofs.CodecRules

namespace Sys2Proof.Proofs.Streams

open Sys2Proof.Machine Sys2Proof.Claims

/-! ## The folds of the statements are the streams of the model -/

/-- The fold of ENC.B returns the bytes of `encode` and leaves its codec state (R104). -/
theorem encBytes_eq : ∀ (s : State) (xs : List Sample), ∃ u,
    encBytes s xs = some (u, (encodeStream s.codec xs).2) ∧ u.codec = (encodeStream s.codec xs).1
  | s, x0 :: x1 :: xs => by
    obtain ⟨u, hu, hcodec⟩ := encBytes_eq { s with
      codec := (encodePair s.codec x0 x1).1, result := .byte (encodePair s.codec x0 x1).2 } xs
    refine ⟨u, ?_, hcodec⟩
    rw [encBytes, exec_encB]
    dsimp only
    rw [hu]
    rfl
  | s, [] => ⟨s, rfl, rfl⟩
  | s, [_] => ⟨s, rfl, rfl⟩

/-- The fold of DEC.B returns the samples of `decode` and leaves its codec state (R139). -/
theorem decSamples_eq (s : State) (bs : List Byte) : ∃ u,
    decSamples s bs = some (u, (decodeStream s.codec bs).2) ∧ u.codec = (decodeStream s.codec bs).1 := by
  induction bs generalizing s with
  | nil => exact ⟨s, rfl, rfl⟩
  | cons b bs ih =>
    obtain ⟨u, hu, hcodec⟩ := ih { s with
      codec := update (update s.codec (lowCode b)) (highCode b)
      result := .samples [(update s.codec (lowCode b)).sig,
        (update (update s.codec (lowCode b)) (highCode b)).sig] }
    refine ⟨u, ?_, hcodec⟩
    rw [decSamples, exec_decB]
    dsimp only
    rw [hu]
    rfl

/-- DEC.B of the byte ENC.B returned: the state of the encoder, and its signal after each sample
(R108). -/
theorem decodeByte_encodePair (k : Codec) (x0 x1 : Sample) :
    decodeByte k (highCode (encodePair k x0 x1).2) (lowCode (encodePair k x0 x1).2) =
      ((encodePair k x0 x1).1, (update k (quant x0 k)).sig, (encodePair k x0 x1).1.sig) := by
  simp only [CodecEncode.encodePair_eq, highCode_pack, lowCode_pack]
  rfl

/-- The decoder emits the encoder's signals (R140). -/
theorem encSignals_eq : ∀ (s : State) (xs : List Sample), xs.length % 2 = 0 →
    encSignals s xs = some (decodeStream s.codec (encodeStream s.codec xs).2).2
  | s, x0 :: x1 :: xs, heven => by
    simp only [List.length_cons] at heven
    rw [encSignals, exec_encS]
    dsimp only
    rw [encSignals, exec_encS]
    dsimp only
    rw [encSignals_eq _ xs (by omega), encodeStream_cons, decodeStream_cons]
    dsimp only
    rw [decodeByte_encodePair]
    rfl
  | s, [], _ => rfl
  | s, [_], heven => by simp at heven

/-- Left and right samples in frames (R84) are the model's interleaving (R161). -/
theorem frames_eq_joinFrames (ls rs : List Sample) : frames ls rs = joinFrames ls rs := by
  induction ls generalizing rs with
  | nil => rfl
  | cons l ls ih =>
    cases rs with
    | nil => rfl
    | cons r rs => exact congrArg (fun xs => l :: r :: xs) (ih rs)

theorem frames_length {ls rs : List Sample} (h : ls.length = rs.length) :
    (frames ls rs).length = 2 * ls.length := by
  rw [frames_eq_joinFrames, joinFrames_length h]

theorem deinterleave_frames {ls rs : List Sample} (h : ls.length = rs.length) :
    deinterleave (frames ls rs) = .ok (ls, rs) := by
  rw [deinterleave_ok (by rw [frames_length h]; omega), frames_eq_joinFrames, splitFrames_joinFrames h]

theorem interleave_eq_frames {ls rs : List Sample} (h : ls.length = rs.length) :
    interleave ls rs = .ok (frames ls rs) := by
  rw [interleave_ok h, frames_eq_joinFrames]

/-! ## Where the stream functions refuse -/

theorem encodeAll_empty {xs : List Sample} (h : xs.length = 0) : encodeAll xs = .error .emptyStream :=
  if_pos h

theorem encodeAll_odd {xs : List Sample} (h : xs.length % 2 = 1) :
    encodeAll xs = .error .oddSampleCount := by
  unfold encodeAll
  rw [if_neg (by omega), if_pos (by omega)]

theorem decodeAll_empty {bs : List Byte} (h : bs.length = 0) : decodeAll bs = .error .emptyStream :=
  if_pos h

theorem deinterleave_odd {xs : List Sample} (h : xs.length % 2 = 1) :
    deinterleave xs = .error .oddInterleaved := if_pos (by omega)

/-! ## Length registers -/

theorem half_eq_ofNat {n : U32} {m : Nat} (h : n.toNat = m) : n / 2 = BitVec.ofNat 32 (m / 2) := by
  apply BitVec.eq_of_toNat_eq
  rw [BitVec.toNat_udiv, h, BitVec.toNat_ofNat, Nat.mod_eq_of_lt (by have := n.isLt; omega)]
  rfl

theorem double_eq_ofNat {n : U32} {m : Nat} (h : n.toNat = m) : 2 * n = BitVec.ofNat 32 (2 * m) := by
  apply BitVec.eq_of_toNat_eq
  rw [BitVec.toNat_mul, h, BitVec.toNat_ofNat]
  rfl

theorem toNat_ofNat_u32 {n : Nat} (h : n < 2 ^ 32) : (BitVec.ofNat 32 n).toNat = n := by
  rw [BitVec.toNat_ofNat, Nat.mod_eq_of_lt h]

/-- A buffer the block has loaded holds what was loaded. -/
theorem load_holds {α : Type} (b : Buf α) (xs : List α) : (b.load xs).cells.Holds 0 xs :=
  Memory.ofRun_holds 0 xs

end Sys2Proof.Proofs.Streams

namespace Sys2Proof.Proofs.UnitCommands

open Sys2Proof.Machine Sys2Proof.Claims Sys2Proof.Proofs.Streams

/-! ## What each command answers, by its buffer's valid bit and its stream function -/

/-- A unit command whose body goes on: the success of what it leaves (R228). -/
theorem runUnit_of_go {body : State → Flow} {s u : State} (h : body (initialisedUnit s) = .go u) :
    runCommand false body s = .next { u with err := 0, status := 0 } := runCommand_of_go h

theorem runUnit_of_refuse {body : State → Flow} {s : State} {r : Refusal}
    (h : body (initialisedUnit s) = .refuse r) : runCommand false body s = .refused r :=
  runCommand_of_refuse h

section Encode

variable {s : State}

theorem exec_encode_invalid (hv : s.bufv.pcm = false) : exec .encode s = .refused .bufferInvalid :=
  runUnit_of_refuse (if_pos (by simp [initialisedUnit, hv]))

theorem encodeBody_valid (hv : s.bufv.pcm = true) : encodeBody s =
    Flow.withValue (encodeAll (s.pcmSlice s.pcmN.toNat)) fun p => .go { s with
      codec := p.1, adbuf := s.adbuf.load p.2, adN := s.pcmN / 2, bufv := { s.bufv with ad := true } } :=
  if_neg (by simp [hv])

theorem exec_encode_error (hv : s.bufv.pcm = true) {r : Refusal}
    (he : encodeAll (s.pcmSlice s.pcmN.toNat) = .error r) : exec .encode s = .refused r :=
  runUnit_of_refuse
    ((encodeBody_valid (s := initialisedUnit s) hv).trans (congrArg (Flow.withValue · _) he))

theorem exec_encode_ok (hv : s.bufv.pcm = true) {p : Codec × List Byte}
    (he : encodeAll (s.pcmSlice s.pcmN.toNat) = .ok p) :
    exec .encode s = .next { initialisedUnit s with
      codec := p.1, adbuf := s.adbuf.load p.2, adN := s.pcmN / 2
      bufv := { s.bufv with ad := true }, err := 0, status := 0 } :=
  runUnit_of_go (body := encodeBody)
    ((encodeBody_valid (s := initialisedUnit s) hv).trans (congrArg (Flow.withValue · _) he))

end Encode

section Decode

variable {s : State}

theorem exec_decode_invalid (hv : s.bufv.ad = false) : exec .decode s = .refused .bufferInvalid :=
  runUnit_of_refuse (if_pos (by simp [initialisedUnit, hv]))

theorem exec_decode_large (hv : s.bufv.ad = true) (hlen : 2 ^ 31 ≤ s.adN.toNat) :
    exec .decode s = .refused .lengthTooLarge :=
  runUnit_of_refuse ((if_neg (by simp [initialisedUnit, hv])).trans (if_pos hlen))

theorem decodeBody_valid (hv : s.bufv.ad = true) (hlen : s.adN.toNat < 2 ^ 31) : decodeBody s =
    Flow.withValue (decodeAll (s.adSlice s.adN.toNat)) fun p => .go { s with
      codec := p.1, pcmbuf := s.pcmbuf.load p.2, pcmN := 2 * s.adN
      bufv := { s.bufv with pcm := true } } :=
  (if_neg (by simp [hv])).trans (if_neg (by omega))

theorem exec_decode_error (hv : s.bufv.ad = true) (hlen : s.adN.toNat < 2 ^ 31) {r : Refusal}
    (he : decodeAll (s.adSlice s.adN.toNat) = .error r) : exec .decode s = .refused r :=
  runUnit_of_refuse
    ((decodeBody_valid (s := initialisedUnit s) hv hlen).trans (congrArg (Flow.withValue · _) he))

theorem exec_decode_ok (hv : s.bufv.ad = true) (hlen : s.adN.toNat < 2 ^ 31) {p : Codec × List Sample}
    (he : decodeAll (s.adSlice s.adN.toNat) = .ok p) :
    exec .decode s = .next { initialisedUnit s with
      codec := p.1, pcmbuf := s.pcmbuf.load p.2, pcmN := 2 * s.adN
      bufv := { s.bufv with pcm := true }, err := 0, status := 0 } :=
  runUnit_of_go (body := decodeBody)
    ((decodeBody_valid (s := initialisedUnit s) hv hlen).trans (congrArg (Flow.withValue · _) he))

end Decode

section Deint

variable {s : State}

theorem exec_deint_invalid (hv : s.bufv.pcm = false) : exec .deint s = .refused .bufferInvalid :=
  runUnit_of_refuse (if_pos (by simp [initialisedUnit, hv]))

theorem deintBody_valid (hv : s.bufv.pcm = true) : deintBody s =
    Flow.withValue (deinterleave (s.pcmSlice s.pcmN.toNat)) fun p => .go { s with
      chl := s.chl.load p.1, chr := s.chr.load p.2, chN := s.pcmN / 2
      bufv := { s.bufv with ch := true } } :=
  if_neg (by simp [hv])

theorem exec_deint_error (hv : s.bufv.pcm = true) {r : Refusal}
    (he : deinterleave (s.pcmSlice s.pcmN.toNat) = .error r) : exec .deint s = .refused r :=
  runUnit_of_refuse
    ((deintBody_valid (s := initialisedUnit s) hv).trans (congrArg (Flow.withValue · _) he))

theorem exec_deint_ok (hv : s.bufv.pcm = true) {p : List Sample × List Sample}
    (he : deinterleave (s.pcmSlice s.pcmN.toNat) = .ok p) :
    exec .deint s = .next { initialisedUnit s with
      chl := s.chl.load p.1, chr := s.chr.load p.2, chN := s.pcmN / 2
      bufv := { s.bufv with ch := true }, err := 0, status := 0 } :=
  runUnit_of_go (body := deintBody)
    ((deintBody_valid (s := initialisedUnit s) hv).trans (congrArg (Flow.withValue · _) he))

end Deint

section Intl

variable {s : State}

theorem exec_intl_invalid (hv : s.bufv.ch = false) : exec .intl s = .refused .bufferInvalid :=
  runUnit_of_refuse (if_pos (by simp [initialisedUnit, hv]))

theorem exec_intl_large (hv : s.bufv.ch = true) (hlen : 2 ^ 31 ≤ s.chN.toNat) :
    exec .intl s = .refused .lengthTooLarge :=
  runUnit_of_refuse ((if_neg (by simp [initialisedUnit, hv])).trans (if_pos hlen))

theorem intlBody_valid (hv : s.bufv.ch = true) (hlen : s.chN.toNat < 2 ^ 31) : intlBody s =
    Flow.withValue (interleave (s.chlSlice s.chN.toNat) (s.chrSlice s.chN.toNat)) fun xs => .go { s with
      pcmbuf := s.pcmbuf.load xs, pcmN := 2 * s.chN, bufv := { s.bufv with pcm := true } } :=
  (if_neg (by simp [hv])).trans (if_neg (by omega))

/-- Both channels have `CH_N` samples, so the interleaving never refuses. -/
theorem exec_intl_ok (hv : s.bufv.ch = true) (hlen : s.chN.toNat < 2 ^ 31) :
    exec .intl s = .next { initialisedUnit s with
      pcmbuf := s.pcmbuf.load (frames (s.chlSlice s.chN.toNat) (s.chrSlice s.chN.toNat))
      pcmN := 2 * s.chN, bufv := { s.bufv with pcm := true }, err := 0, status := 0 } := by
  have hi := interleave_eq_frames (ls := s.chlSlice s.chN.toNat) (rs := s.chrSlice s.chN.toNat)
    ((Buf.slice_length _ _ _).trans (Buf.slice_length _ _ _).symm)
  exact runUnit_of_go (body := intlBody)
    ((intlBody_valid (s := initialisedUnit s) hv hlen).trans (congrArg (Flow.withValue · _) hi))

end Intl

/-! ## The obligations -/

/-- ENCODE of a held stream, in terms of the model's stream. -/
theorem exec_encode_of_holds {s : State} {xs : List Sample} (hv : s.bufv.pcm = true)
    (hx : s.HoldsPcm xs) (h0 : xs ≠ []) (heven : xs.length % 2 = 0) :
    exec .encode s = .next { initialisedUnit s with
      codec := (encodeStream ⟨0, 127⟩ xs).1, adbuf := s.adbuf.load (encodeStream ⟨0, 127⟩ xs).2
      adN := BitVec.ofNat 32 (xs.length / 2)
      bufv := { s.bufv with ad := true }, err := 0, status := 0 } := by
  rw [← half_eq_ofNat hx.1]
  exact exec_encode_ok hv (by rw [State.pcmSlice_of_holds hx]; exact encodeAll_ok h0 heven)

/-- Settles O26: ENCODE loads `encode` of the held samples, which is the fold of ENC.B. -/
theorem encodeCommandFoldsEncB : Obligations.EncodeCommandFoldsEncB := by
  unfold Obligations.EncodeCommandFoldsEncB
  intro s xs hv hx h0 heven
  obtain ⟨u, hu, hcodec⟩ := encBytes_eq (streamStart s) xs
  refine ⟨u, _, _, hu, encodeStream_length _ _, load_holds s.adbuf _, ?_⟩
  rw [hcodec]
  exact exec_encode_of_holds hv hx h0 heven

/-- DECODE of a held stream, in terms of the model's stream. -/
theorem exec_decode_of_holds {s : State} {bs : List Byte} (hv : s.bufv.ad = true)
    (hb : s.HoldsAd bs) (h0 : bs ≠ []) (hlen : bs.length < 2 ^ 31) :
    exec .decode s = .next { initialisedUnit s with
      codec := (decodeStream ⟨0, 127⟩ bs).1, pcmbuf := s.pcmbuf.load (decodeStream ⟨0, 127⟩ bs).2
      pcmN := BitVec.ofNat 32 (2 * bs.length)
      bufv := { s.bufv with pcm := true }, err := 0, status := 0 } := by
  rw [← double_eq_ofNat hb.1]
  exact exec_decode_ok hv (by rw [hb.1]; exact hlen)
    (by rw [State.adSlice_of_holds hb]; exact decodeAll_ok h0)

/-- Settles O27: DECODE loads `decode` of the held bytes, which is the fold of DEC.B. -/
theorem decodeCommandFoldsDecB : Obligations.DecodeCommandFoldsDecB := by
  unfold Obligations.DecodeCommandFoldsDecB
  intro s bs hv hb h0 hlen
  obtain ⟨u, hu, hcodec⟩ := decSamples_eq (streamStart s) bs
  refine ⟨u, _, _, hu, decodeStream_length _ _, load_holds s.pcmbuf _, ?_⟩
  rw [hcodec]
  exact exec_decode_of_holds hv hb h0 hlen

/-- DEINT of held frames. -/
theorem exec_deint_of_holds {s : State} {ls rs : List Sample} (hv : s.bufv.pcm = true)
    (hlr : ls.length = rs.length) (hx : s.HoldsPcm (frames ls rs)) :
    exec .deint s = .next { initialisedUnit s with
      chl := s.chl.load ls, chr := s.chr.load rs, chN := BitVec.ofNat 32 ls.length
      bufv := { s.bufv with ch := true }, err := 0, status := 0 } := by
  have hn : s.pcmN / 2 = BitVec.ofNat 32 ls.length := by
    rw [half_eq_ofNat hx.1, frames_length hlr, Nat.mul_div_cancel_left _ (by decide)]
  rw [← hn]
  exact exec_deint_ok (p := (ls, rs)) hv
    (by rw [State.pcmSlice_of_holds hx]; exact deinterleave_frames hlr)

/-- Settles O28. -/
theorem deintCommandSplits : Obligations.DeintCommandSplits := by
  unfold Obligations.DeintCommandSplits
  intro s ls rs hv hlr hx
  exact ⟨_, _, load_holds s.chl ls, load_holds s.chr rs, exec_deint_of_holds hv hlr hx⟩

/-- INTL of held channels. -/
theorem exec_intl_of_holds {s : State} {ls rs : List Sample} (hv : s.bufv.ch = true)
    (hc : s.HoldsChannels ls rs) (hlen : ls.length < 2 ^ 31) :
    exec .intl s = .next { initialisedUnit s with
      pcmbuf := s.pcmbuf.load (frames ls rs), pcmN := BitVec.ofNat 32 (2 * ls.length)
      bufv := { s.bufv with pcm := true }, err := 0, status := 0 } := by
  rw [exec_intl_ok hv (by rw [hc.1]; exact hlen), State.chlSlice_of_holds hc,
    State.chrSlice_of_holds hc, double_eq_ofNat hc.1]

/-- Settles O29. -/
theorem intlCommandJoins : Obligations.IntlCommandJoins := by
  unfold Obligations.IntlCommandJoins
  intro s ls rs hv hc hlen
  exact ⟨_, load_holds s.pcmbuf _, exec_intl_of_holds hv hc hlen⟩

/-- Settles O30: each case is the command's refusal or that of its stream function. -/
theorem unitCommandRefusals : Obligations.UnitCommandRefusals := by
  unfold Obligations.UnitCommandRefusals
  intro s
  have hpcm : (s.pcmSlice s.pcmN.toNat).length = s.pcmN.toNat := Buf.slice_length _ _ _
  have had : (s.adSlice s.adN.toNat).length = s.adN.toNat := Buf.slice_length _ _ _
  refine ⟨fun hv => ⟨exec_encode_invalid hv, exec_deint_invalid hv⟩, exec_decode_invalid,
    exec_intl_invalid, fun hv h0 => ?_, fun hv hodd => ⟨?_, ?_⟩, fun hv h0 => ?_, exec_decode_large,
    exec_intl_large⟩
  · exact exec_encode_error hv (encodeAll_empty (hpcm.trans (congrArg BitVec.toNat h0)))
  · exact exec_encode_error hv (encodeAll_odd (hpcm.symm ▸ hodd))
  · exact exec_deint_error hv (deinterleave_odd (hpcm.symm ▸ hodd))
  · exact exec_decode_error hv (by rw [h0]; decide)
      (decodeAll_empty (had.trans (congrArg BitVec.toNat h0)))

/-- Settles O31: the frames of the split samples are the samples, and the split of the frames is the two
channels. -/
theorem stereoTransformInverse : Obligations.StereoTransformInverse := by
  unfold Obligations.StereoTransformInverse
  refine ⟨fun s xs hv hx heven => ?_, fun s ls rs hv hc hlen => ?_⟩
  · obtain ⟨hl, hr⟩ := splitFrames_length xs
    have hlr := hl.trans hr.symm
    have hframes : frames (splitFrames xs).1 (splitFrames xs).2 = xs := by
      rw [frames_eq_joinFrames, joinFrames_splitFrames xs heven]
    have hsize : xs.length < 2 ^ 32 := hx.1 ▸ s.pcmN.isLt
    refine ⟨_, _, exec_deint_of_holds hv hlr (hframes.symm ▸ hx), exec_intl_of_holds rfl ⟨?_, hlr,
      Memory.ofRun_holds 0 _, Memory.ofRun_holds 0 _⟩ (by omega), ?_, ?_⟩
    · exact toNat_ofNat_u32 (by omega)
    · exact (toNat_ofNat_u32 (by omega)).trans (by omega)
    · rw [hframes]
      exact Memory.ofRun_holds 0 _
  · have hlr := hc.2.1
    have hn := frames_length hlr
    refine ⟨_, _, exec_intl_of_holds hv hc hlen, exec_deint_of_holds rfl hlr ⟨?_,
      Memory.ofRun_holds 0 _⟩, ?_, hlr, Memory.ofRun_holds 0 _, Memory.ofRun_holds 0 _⟩
    · exact (toNat_ofNat_u32 (by omega)).trans hn.symm
    · exact toNat_ofNat_u32 (by omega)

/-- Settles O32: DECODE runs on the bytes ENCODE left, and the decoder tracks the encoder over the whole
stream. -/
theorem decodeEncodeDuality : Obligations.DecodeEncodeDuality := by
  unfold Obligations.DecodeEncodeDuality
  intro s xs hv hx h0 heven
  have hsize : xs.length < 2 ^ 32 := hx.1 ▸ s.pcmN.isLt
  have hpos : 0 < xs.length := List.length_pos_iff.2 h0
  have hlen := encodeStream_length ⟨0, 127⟩ xs
  have hys := decodeStream_length ⟨0, 127⟩ (encodeStream ⟨0, 127⟩ xs).2
  refine ⟨_, _, _, exec_encode_of_holds hv hx h0 heven,
    exec_decode_of_holds (bs := (encodeStream ⟨0, 127⟩ xs).2) rfl ⟨?_, Memory.ofRun_holds 0 _⟩ ?_ ?_,
    encSignals_eq (streamStart s) xs heven, ⟨?_, Memory.ofRun_holds 0 _⟩,
    decodeStream_encodeStream _ xs heven⟩
  · exact (toNat_ofNat_u32 (by omega)).trans hlen.symm
  · exact List.length_pos_iff.1 (by omega)
  · omega
  · exact (toNat_ofNat_u32 (by omega)).trans hys.symm

/-! ## What the result depends on (R232) -/

theorem encode_reads_input {s s' : State} (hv : s.bufv.pcm = s'.bufv.pcm) (hn : s.pcmN = s'.pcmN)
    (hb : s.pcmbuf = s'.pcmbuf) :
    (∃ r, exec .encode s = .refused r ∧ exec .encode s' = .refused r) ∨
      (∃ t t', exec .encode s = .next t ∧ exec .encode s' = .next t' ∧ t.codec = t'.codec ∧
        t.adN = t'.adN ∧ t.adbuf.cells = t'.adbuf.cells) := by
  have hslice : s'.pcmSlice s'.pcmN.toNat = s.pcmSlice s.pcmN.toNat := by
    rw [State.pcmSlice, State.pcmSlice, hn, hb]
  cases hp : s.bufv.pcm with
  | false => exact .inl ⟨_, exec_encode_invalid hp, exec_encode_invalid (hv ▸ hp)⟩
  | true =>
    cases he : encodeAll (s.pcmSlice s.pcmN.toNat) with
    | error r => exact .inl ⟨r, exec_encode_error hp he, exec_encode_error (hv ▸ hp) (hslice ▸ he)⟩
    | ok p =>
      exact .inr ⟨_, _, exec_encode_ok hp he, exec_encode_ok (hv ▸ hp) (hslice ▸ he), rfl,
        congrArg (· / 2) hn, rfl⟩

theorem deint_reads_input {s s' : State} (hv : s.bufv.pcm = s'.bufv.pcm) (hn : s.pcmN = s'.pcmN)
    (hb : s.pcmbuf = s'.pcmbuf) :
    (∃ r, exec .deint s = .refused r ∧ exec .deint s' = .refused r) ∨
      (∃ t t', exec .deint s = .next t ∧ exec .deint s' = .next t' ∧ t.chN = t'.chN ∧
        t.chl.cells = t'.chl.cells ∧ t.chr.cells = t'.chr.cells) := by
  have hslice : s'.pcmSlice s'.pcmN.toNat = s.pcmSlice s.pcmN.toNat := by
    rw [State.pcmSlice, State.pcmSlice, hn, hb]
  cases hp : s.bufv.pcm with
  | false => exact .inl ⟨_, exec_deint_invalid hp, exec_deint_invalid (hv ▸ hp)⟩
  | true =>
    cases he : deinterleave (s.pcmSlice s.pcmN.toNat) with
    | error r => exact .inl ⟨r, exec_deint_error hp he, exec_deint_error (hv ▸ hp) (hslice ▸ he)⟩
    | ok p =>
      exact .inr ⟨_, _, exec_deint_ok hp he, exec_deint_ok (hv ▸ hp) (hslice ▸ he),
        congrArg (· / 2) hn, rfl, rfl⟩

theorem decode_reads_input {s s' : State} (hv : s.bufv.ad = s'.bufv.ad) (hn : s.adN = s'.adN)
    (hb : s.adbuf = s'.adbuf) :
    (∃ r, exec .decode s = .refused r ∧ exec .decode s' = .refused r) ∨
      (∃ t t', exec .decode s = .next t ∧ exec .decode s' = .next t' ∧ t.codec = t'.codec ∧
        t.pcmN = t'.pcmN ∧ t.pcmbuf.cells = t'.pcmbuf.cells) := by
  have hslice : s'.adSlice s'.adN.toNat = s.adSlice s.adN.toNat := by
    rw [State.adSlice, State.adSlice, hn, hb]
  cases hp : s.bufv.ad with
  | false => exact .inl ⟨_, exec_decode_invalid hp, exec_decode_invalid (hv ▸ hp)⟩
  | true =>
    by_cases hlen : s.adN.toNat < 2 ^ 31
    · cases he : decodeAll (s.adSlice s.adN.toNat) with
      | error r =>
        exact .inl ⟨r, exec_decode_error hp hlen he,
          exec_decode_error (hv ▸ hp) (hn ▸ hlen) (hslice ▸ he)⟩
      | ok p =>
        exact .inr ⟨_, _, exec_decode_ok hp hlen he,
          exec_decode_ok (hv ▸ hp) (hn ▸ hlen) (hslice ▸ he), rfl, congrArg (2 * ·) hn, rfl⟩
    · have hlarge := Nat.le_of_not_lt hlen
      exact .inl ⟨_, exec_decode_large hp hlarge, exec_decode_large (hv ▸ hp) (hn ▸ hlarge)⟩

theorem intl_reads_input {s s' : State} (hv : s.bufv.ch = s'.bufv.ch) (hn : s.chN = s'.chN)
    (hl : s.chl = s'.chl) (hr : s.chr = s'.chr) :
    (∃ r, exec .intl s = .refused r ∧ exec .intl s' = .refused r) ∨
      (∃ t t', exec .intl s = .next t ∧ exec .intl s' = .next t' ∧ t.pcmN = t'.pcmN ∧
        t.pcmbuf.cells = t'.pcmbuf.cells) := by
  cases hp : s.bufv.ch with
  | false => exact .inl ⟨_, exec_intl_invalid hp, exec_intl_invalid (hv ▸ hp)⟩
  | true =>
    by_cases hlen : s.chN.toNat < 2 ^ 31
    · refine .inr ⟨_, _, exec_intl_ok hp hlen, exec_intl_ok (hv ▸ hp) (hn ▸ hlen),
        congrArg (2 * ·) hn, ?_⟩
      simp only [Buf.load_cells, State.chlSlice, State.chrSlice, hn, hl, hr]
    · have hlarge := Nat.le_of_not_lt hlen
      exact .inl ⟨_, exec_intl_large hp hlarge, exec_intl_large (hv ▸ hp) (hn ▸ hlarge)⟩

/-- Settles O57. -/
theorem unitCommandsReadTheirInputOnly : Obligations.UnitCommandsReadTheirInputOnly := by
  unfold Obligations.UnitCommandsReadTheirInputOnly
  exact fun s s' => ⟨fun hv hn hb => ⟨encode_reads_input hv hn hb, deint_reads_input hv hn hb⟩,
    decode_reads_input, intl_reads_input⟩

end Sys2Proof.Proofs.UnitCommands

namespace Sys2Proof.Proofs.HostSide

open Sys2Proof.Machine Sys2Proof.Claims

/-! ## The step and what has been presented -/

/-- Settles O5. -/
theorem stepRunsDecoded : Obligations.StepRunsDecoded := by
  unfold Obligations.StepRunsDecoded
  intro s p bs i hfetched hdecode
  unfold step
  rw [hfetched]
  dsimp only
  rw [hdecode]
  rfl

/-- The idle block accepts the host's write. -/
theorem hostWrite_of_idle {s : State} (h : s.issue = .idle) (w : HostWrite) :
    hostWrite w s = .next (w.apply s) := if_pos h

/-- Settles O6: the byte the host wrote is fetched at the place of a command, and the decoder reads the
table of R82. -/
theorem commandWriteRunsCommand : Obligations.CommandWriteRunsCommand := by
  unfold Obligations.CommandWriteRunsCommand
  intro s c hidle
  refine ⟨_, hostWrite_of_idle hidle (.cmd c), ?_⟩
  refine (stepRunsDecoded _ .command [c] (decodeCommand c) rfl rfl).trans ?_
  exact congrArg (exec (decodeCommand c)) (by rw [← hidle]; rfl)

/-- Settles O7. -/
theorem idleWaitsBusyBars : Obligations.IdleWaitsBusyBars := by
  unfold Obligations.IdleWaitsBusyBars
  refine ⟨fun s hidle => ?_, fun w s hbusy => if_neg hbusy⟩
  unfold step State.fetched
  rw [hidle]

/-! ## The packed registers (R20 #11, #27) -/

theorem flags_bits_toNat (f : Flags) : f.bits.toNat = f.fmtSeen.toNat + 2 * f.dataSeen.toNat +
    4 * f.smplSeen.toNat + 8 * f.loopEnabled.toNat + 16 * f.loopEndNz.toNat := by
  obtain ⟨fmt, data, smpl, enabled, endNz⟩ := f
  revert fmt data smpl enabled endNz
  decide

theorem bufv_bits_toNat (b : Bufv) : b.bits.toNat = b.pcm.toNat + 2 * b.ad.toNat + 4 * b.ch.toNat := by
  obtain ⟨pcm, ad, ch⟩ := b
  revert pcm ad ch
  decide

/-- What the host writes to `BUFV` is what its bits say. -/
theorem bufv_bits_ofBits : ∀ v : BitVec 3, (Bufv.ofBits v).bits = v := by decide

/-- Settles O9. -/
theorem packedRegisterBits : Obligations.PackedRegisterBits := by
  unfold Obligations.PackedRegisterBits
  refine ⟨fun s => ⟨flags_bits_toNat s.flags, bufv_bits_toNat s.bufv⟩, fun s v hidle => ?_⟩
  exact ⟨_, hostWrite_of_idle hidle (.bufv v), congrArg BitVec.toNat (bufv_bits_ofBits v)⟩

/-! ## What the host reads back (R63) -/

/-- A host read of the idle block that is not one of `CMD` gives the value and changes nothing (R58). -/
theorem hostRead_of_idle {q : HostRead} {s : State} (hidle : s.issue = .idle)
    (haddr : q.addressable s = true) (hq : q ≠ .reg .cmd) : hostRead q s = some (q.value s, s) := by
  unfold hostRead
  rw [if_pos ⟨hidle, haddr⟩, HostRead.after_of_ne hq]

/-- The host sees the elements that a valid buffer holds below its length. -/
theorem hostElem_of_holds {α : Type} {free : Nat → Nat → α} {b : Buf α} {xs : List α} {len i : U32}
    (hb : b.cells.Holds 0 xs) (hlen : len.toNat = xs.length) (hi : i.toNat < xs.length) :
    b.hostElem free true len i = xs[i.toNat] := by
  have hget := hb i.toNat hi
  rw [Nat.zero_add] at hget
  rw [Buf.hostElem_of_valid (show i.toNat < len.toNat from hlen ▸ hi), Buf.read, hget]
  rfl

/-- A byte the host writes to `IN` is read back at its address, and no other byte changes. -/
theorem inByte_write (s : State) (a : Nat) (b : Byte) (c : Nat) :
    ({ s with input := s.input.put a b } : State).inByte c = if c = a then b else s.inByte c := by
  simp only [State.inByte, Memory.get?_put]
  split_ifs <;> rfl

/-- Settles O10. -/
theorem hostLoadsInput : Obligations.HostLoadsInput := by
  unfold Obligations.HostLoadsInput
  refine ⟨fun s a b hidle => ?_, fun s xs i hidle hv hx hi => ?_, fun s bs i hidle hv hb hi => ?_,
    fun s ls rs i hidle hv hc => ⟨fun hi => ?_, fun hi => ?_⟩, fun s bs i hidle ho hcap hi => ?_⟩
  · exact ⟨_, hostWrite_of_idle hidle (.inByte a b), rfl, (inByte_write s _ b _).trans (if_pos rfl),
      fun c hc => (inByte_write s _ b c).trans (if_neg hc)⟩
  · rw [hostRead_of_idle hidle rfl (by simp), HostRead.value, hv, hostElem_of_holds hx.2 hx.1 hi]
  · rw [hostRead_of_idle hidle rfl (by simp), HostRead.value, hv, hostElem_of_holds hb.2 hb.1 hi]
  · obtain ⟨hn, _, hl, _⟩ := hc
    rw [hostRead_of_idle hidle rfl (by simp), HostRead.value, hv, hostElem_of_holds hl hn hi]
  · obtain ⟨hn, hlr, _, hr⟩ := hc
    rw [hostRead_of_idle hidle rfl (by simp), HostRead.value, hv,
      hostElem_of_holds hr (hn.trans hlr) hi]
  · obtain ⟨hlen, hout⟩ := ho
    have hget := hout i.toNat hi
    rw [Nat.zero_add] at hget
    have haddr : i.toNat < s.outCap.toNat := by omega
    rw [hostRead_of_idle (q := .out i) hidle (decide_eq_true haddr) (by simp), HostRead.value,
      State.outByte, hget]
    rfl

end Sys2Proof.Proofs.HostSide

namespace Sys2Proof.Proofs.ReaderSteps

open Sys2Proof.Machine Sys2Proof.Claims Sys2Proof.Proofs.Streams

/-! ## How a reader step presented on its own ends -/

/-- The abort of a conversion is that of the statements (R250). -/
theorem abort_conv (k : ErrKind) (s : State) : s.abort true k = abortedConv s (errCode k) := rfl

theorem runStep_of_go {f : State → Flow} {s t : State} (h : f s = .go t) : runStep f s = .next t := by
  rw [runStep, h, Flow.conclude_go]

theorem runStep_of_raise {f : State → Flow} {s t : State} {k : ErrKind} (h : f s = .raise k t) :
    runStep f s = .next (abortedConv t (errCode k)) := by
  rw [runStep, h, Flow.conclude_raise, abort_conv]

/-- Settles O34. -/
theorem conversionsNeedInput : Obligations.ConversionsNeedInput := by
  unfold Obligations.ConversionsNeedInput
  exact fun s h => ⟨runCommand_of_raise (body := convTBody) (conv := true)
      (Conversions.convTBody_absent (s := s.initialise true) h),
    runCommand_of_raise (body := convFBody Config.checkDataTag) (conv := true)
      (Conversions.convFBody_absent (s := s.initialise true) _ h)⟩

/-! ## RD.RIFF (R173) -/

theorem readRiff_short {s : State} (h : s.inLen.toNat < 12) :
    readRiff s = .raise .truncatedHeader s := if_pos h

theorem readRiff_bad_preamble {s : State} (hlen : 12 ≤ s.inLen.toNat)
    (h : s.memRead 0 4 ≠ tagRiff ∨ s.memRead 8 4 ≠ tagWave) :
    readRiff s = .raise .malformedContainer s := by
  unfold readRiff
  rw [if_neg (by omega)]
  by_cases hriff : s.memRead 0 4 = tagRiff
  · rw [if_neg (not_not.2 hriff), if_pos (h.resolve_left (not_not.2 hriff))]
  · rw [if_pos hriff]

theorem readRiff_accepts {s : State} (hlen : 12 ≤ s.inLen.toNat) (hriff : s.memRead 0 4 = tagRiff)
    (hwave : s.memRead 8 4 = tagWave) :
    readRiff s = .go { s with cr := { s.cr with totalSize := s.rd32 4 }, pos := 12 } := by
  unfold readRiff
  rw [if_neg (by omega), if_neg (not_not.2 hriff), if_neg (not_not.2 hwave)]

/-- Settles O35. -/
theorem rdRiffChecksPreamble : Obligations.RdRiffChecksPreamble := by
  unfold Obligations.RdRiffChecksPreamble
  exact fun s => ⟨fun hshort => runStep_of_raise (readRiff_short hshort), fun hlen =>
    ⟨fun hbad => runStep_of_raise (readRiff_bad_preamble hlen hbad),
      fun hriff hwave => runStep_of_go (readRiff_accepts hlen hriff hwave)⟩⟩

/-! ## RD.HDR (R170, R171) -/

section Header

variable {s : State} {c : Bool}

theorem readHeader_short (h : s.inLen.toNat < 44) : readHeader c s = .raise .truncatedHeader s :=
  if_pos h

theorem readHeader_bad_preamble (hlen : 44 ≤ s.inLen.toNat)
    (h : s.memRead 0 4 ≠ tagRiff ∨ s.memRead 8 4 ≠ tagWave) :
    readHeader c s = .raise .malformedContainer s := by
  unfold readHeader
  rw [if_neg (by omega)]
  by_cases hriff : s.memRead 0 4 = tagRiff
  · rw [if_neg (not_not.2 hriff), if_pos (h.resolve_left (not_not.2 hriff))]
  · rw [if_pos hriff]

variable (hlen : 44 ≤ s.inLen.toNat) (hriff : s.memRead 0 4 = tagRiff) (hwave : s.memRead 8 4 = tagWave)
include hlen hriff hwave

theorem readHeader_bad_fmt (hfmt : s.memRead 12 4 ≠ tagFmt) :
    readHeader c s = .raise .unsupportedFormat s := by
  unfold readHeader
  rw [if_neg (by omega), if_neg (not_not.2 hriff), if_neg (not_not.2 hwave), if_pos hfmt]

variable (hfmt : s.memRead 12 4 = tagFmt)
include hfmt

/-- Behind the tags: the size of the format block, then the format tag, then the rest of the header. -/
theorem readHeader_of_tags : readHeader c s =
    if s.rd32 16 ≠ 16 then .raise .unsupportedFormat (captureSizes s)
    else if s.rd16 20 ≠ 20 then .raise .unsupportedFormat (captureTag (captureSizes s))
    else readHeaderTail c (captureTag (captureSizes s)) := by
  unfold readHeader
  rw [if_neg (by omega), if_neg (not_not.2 hriff), if_neg (not_not.2 hwave), if_neg (not_not.2 hfmt)]
  rfl

theorem readHeader_bad_size (hsize : s.rd32 16 ≠ 16) :
    readHeader c s = .raise .unsupportedFormat (captureSizes s) := by
  rw [readHeader_of_tags hlen hriff hwave hfmt, if_pos hsize]

variable (hsize : s.rd32 16 = 16)
include hsize

theorem readHeader_bad_tag (htag : s.rd16 20 ≠ 20) :
    readHeader c s = .raise .unsupportedFormat (captureTag (captureSizes s)) := by
  rw [readHeader_of_tags hlen hriff hwave hfmt, if_neg (not_not.2 hsize), if_pos htag]

theorem readHeader_of_format (htag : s.rd16 20 = 20) :
    readHeader c s = readHeaderTail c (captureTag (captureSizes s)) := by
  rw [readHeader_of_tags hlen hriff hwave hfmt, if_neg (not_not.2 hsize), if_neg (not_not.2 htag)]

end Header

section HeaderTail

variable {s : State} {c : Bool}

theorem readHeaderTail_bad_channels (h1 : s.rd16 22 ≠ 1) (h2 : s.rd16 22 ≠ 2) :
    readHeaderTail c s = .raise .unsupportedFormat (captureChannels s) :=
  if_pos fun hok => ((Walk.channelsOk_iff _).1 hok).elim h1 h2

variable (hch : s.rd16 22 = 1 ∨ s.rd16 22 = 2)
include hch

/-- Behind the channel count: the bits, then the data tag where the parameter asks for it. -/
theorem readHeaderTail_of_channels : readHeaderTail c s =
    if s.rd16 34 ≠ 4 then .raise .unsupportedFormat (captureRates (captureChannels s))
    else if s.memRead 36 4 ≠ tagData ∧ c then
      .raise .unsupportedFormat (captureRates (captureChannels s))
    else .go (captureDataSize (captureRates (captureChannels s))) :=
  if_neg (not_not.2 ((Walk.channelsOk_iff _).2 hch))

theorem readHeaderTail_bad_bits (hbits : s.rd16 34 ≠ 4) :
    readHeaderTail c s = .raise .unsupportedFormat (captureRates (captureChannels s)) := by
  rw [readHeaderTail_of_channels hch, if_pos hbits]

variable (hbits : s.rd16 34 = 4)
include hbits

theorem readHeaderTail_other_data (hdata : s.memRead 36 4 ≠ tagData) : readHeaderTail c s =
    if c then .raise .unsupportedFormat (captureRates (captureChannels s))
    else .go (captureDataSize (captureRates (captureChannels s))) := by
  rw [readHeaderTail_of_channels hch, if_neg (not_not.2 hbits)]
  simp only [ne_eq, hdata, not_false_eq_true, true_and]

theorem readHeaderTail_accepts (hdata : s.memRead 36 4 = tagData) :
    readHeaderTail c s = .go (captureDataSize (captureRates (captureChannels s))) := by
  rw [readHeaderTail_of_channels hch, if_neg (not_not.2 hbits), if_neg fun h => h.1 hdata]

end HeaderTail

/-! What the captures in a row leave (R79). A capture writes the container record only, so the later ones
read the same file. -/

section Captures

variable (s : State)

theorem rd16_setCr (c : ContainerRec) (a : Nat) : ({ s with cr := c } : State).rd16 a = s.rd16 a := rfl
theorem rd32_setCr (c : ContainerRec) (a : Nat) : ({ s with cr := c } : State).rd32 a = s.rd32 a := rfl

theorem captureTag_eq : captureTag (captureSizes s) = { s with cr := { s.cr with
    totalSize := s.rd32 4, fmtSize := s.rd32 16, format := s.rd16 20 } } := by
  simp only [captureTag, captureSizes, rd16_setCr]

theorem captureChannels_eq : captureChannels (captureTag (captureSizes s)) = { s with cr := { s.cr with
    totalSize := s.rd32 4, fmtSize := s.rd32 16, format := s.rd16 20, channels := s.rd16 22 } } := by
  simp only [captureTag_eq, captureChannels, rd16_setCr]

theorem captureRates_eq : captureRates (captureChannels (captureTag (captureSizes s))) = { s with cr :=
    { s.cr with
      totalSize := s.rd32 4, fmtSize := s.rd32 16, format := s.rd16 20, channels := s.rd16 22
      rate := s.rd32 24, byteRate := s.rd32 28, blockAlign := s.rd16 32, bits := s.rd16 34 } } := by
  simp only [captureChannels_eq, captureRates, rd16_setCr, rd32_setCr]

theorem captureDataSize_eq :
    captureDataSize (captureRates (captureChannels (captureTag (captureSizes s)))) = { s with cr :=
      { totalSize := s.rd32 4, fmtSize := s.rd32 16, format := s.rd16 20, channels := s.rd16 22
        rate := s.rd32 24, byteRate := s.rd32 28, blockAlign := s.rd16 32, bits := s.rd16 34
        dataSize := s.rd32 40 } } := by
  simp only [captureRates_eq, captureDataSize, rd32_setCr]

end Captures

/-- Settles O36. -/
theorem rdHdrAccepts : Obligations.RdHdrAccepts := by
  unfold Obligations.RdHdrAccepts
  intro s hlen hriff hwave hfmt hsize htag hch hbits hdata
  have hgo := (readHeader_of_format (c := Config.checkDataTag) hlen hriff hwave hfmt hsize htag).trans
    (readHeaderTail_accepts (s := captureTag (captureSizes s)) hch hbits hdata)
  rw [captureDataSize_eq, hsize, htag, hbits] at hgo
  exact runStep_of_go hgo

/-- Settles O37: one check of R171 after another; what an abort keeps is what was captured before it. -/
theorem rdHdrRejectsInOrder : Obligations.RdHdrRejectsInOrder := by
  unfold Obligations.RdHdrRejectsInOrder
  intro s
  refine ⟨fun hshort => runStep_of_raise (readHeader_short hshort), fun hlen =>
    ⟨fun hbad => runStep_of_raise (readHeader_bad_preamble hlen hbad), fun hriff hwave =>
    ⟨fun hfmt => runStep_of_raise (readHeader_bad_fmt hlen hriff hwave hfmt), fun hfmt =>
    ⟨fun hsize => runStep_of_raise (readHeader_bad_size hlen hriff hwave hfmt hsize),
      fun hsize htag => runStep_of_raise (readHeader_bad_tag hlen hriff hwave hfmt hsize htag),
      fun hsize htag h1 h2 => ?_, fun hsize htag hch => ⟨fun hbits => ?_, fun hbits hdata => ?_⟩⟩⟩⟩⟩
  · have htail := (readHeader_of_format hlen hriff hwave hfmt hsize htag).trans
      (readHeaderTail_bad_channels (c := Config.checkDataTag) (s := captureTag (captureSizes s)) h1 h2)
    rw [captureChannels_eq] at htail
    exact runStep_of_raise htail
  · have htail := (readHeader_of_format hlen hriff hwave hfmt hsize htag).trans
      (readHeaderTail_bad_bits (c := Config.checkDataTag) (s := captureTag (captureSizes s)) hch hbits)
    rw [captureRates_eq] at htail
    exact runStep_of_raise htail
  · have htail := (readHeader_of_format hlen hriff hwave hfmt hsize htag).trans
      (readHeaderTail_other_data (c := Config.checkDataTag) (s := captureTag (captureSizes s)) hch hbits hdata)
    rw [captureDataSize_eq, captureRates_eq] at htail
    split_ifs at htail ⊢
    · exact runStep_of_raise htail
    · exact runStep_of_go htail

/-! ## RD.PAYLOAD (R172) -/

theorem readPayload_short {s : State} (h : s.inLen.toNat < 44 + s.cr.dataSize.toNat) :
    readPayload s = .raise .ioFailure s := if_pos h

/-- Settles O38. -/
theorem rdPayloadLoadsAdbuf : Obligations.RdPayloadLoadsAdbuf := by
  unfold Obligations.RdPayloadLoadsAdbuf
  exact fun s => ⟨fun hshort => runStep_of_raise (readPayload_short hshort), fun hlen =>
    ⟨_, load_holds s.adbuf _, runStep_of_go (if_neg (Nat.not_lt.2 hlen))⟩⟩

/-! ## The chunk operations (R175 to R178) and WALK.END (R180) -/

/-- Settles O39. -/
theorem ckFmtCapturesFormat : Obligations.CkFmtCapturesFormat := by
  unfold Obligations.CkFmtCapturesFormat
  intro s len
  refine ⟨fun hbad => ?_, fun hnew hlen => ⟨fun hshort => ?_, fun hroom => ⟨fun hbad => ?_,
    fun htag hch => ?_⟩⟩⟩
  · refine runStep_of_raise (k := .unsupportedFormat) ?_
    unfold chunkFmt
    by_cases hseen : s.flags.fmtSeen = true
    · rw [if_pos hseen]
    · rw [if_neg hseen, if_pos (hbad.resolve_left hseen)]
  · refine runStep_of_raise (k := .truncatedHeader) ?_
    unfold chunkFmt
    rw [if_neg (by simp [hnew]), if_neg (by omega), if_pos (by omega)]
  · refine runStep_of_raise (k := .unsupportedFormat) (t := captureFormat len s) ?_
    unfold chunkFmt
    rw [if_neg (by simp [hnew]), if_neg (by omega), if_neg (by omega)]
    by_cases htag : s.rd16 (s.pos + 8) = 1
    · obtain ⟨h1, h2⟩ := hbad.resolve_left (not_not.2 htag)
      exact (if_neg (not_not.2 htag)).trans
        (if_pos fun hok => ((Walk.channelsOk_iff _).1 hok).elim h1 h2)
    · exact if_pos htag
  · refine runStep_of_go ?_
    unfold chunkFmt
    rw [if_neg (by simp [hnew]), if_neg (by omega), if_neg (by omega)]
    exact (if_neg (not_not.2 htag)).trans (if_neg (not_not.2 ((Walk.channelsOk_iff _).2 hch)))

/-- Where CK.DATA finds its format, no payload yet and the block alignment 2, only the length counts
(R176). -/
theorem chunkData_of_format {s : State} (len : U32) (hfmt : s.flags.fmtSeen = true)
    (hnew : s.flags.dataSeen = false) (halign : s.cr.blockAlign = 2) : chunkData len s =
    if s.inLen.toNat < s.pos + 8 + len.toNat then .raise .ioFailure s
    else .go { s with
      cr := { s.cr with dataSize := len }, pcmN := len / 2
      pcmbuf := s.pcmbuf.load (s.rdSamples (s.pos + 8) (len.toNat / 2))
      flags := { s.flags with dataSeen := true } } := by
  unfold chunkData
  rw [if_neg (not_not.2 hfmt), if_neg (by simp [hnew]), if_neg (not_not.2 halign)]

/-- The samples of a payload, as `PCMBUF` holds them once loaded (R53). -/
theorem get?_load_rdSamples (s : State) (a n i : Nat) (hi : i < n) :
    (s.pcmbuf.load (s.rdSamples a n)).cells.get? i = some (s.rd16 (a + 2 * i)) := by
  rw [Buf.load_cells, Memory.get?_ofRun, if_pos (Nat.zero_le i), Nat.sub_zero]
  simp [State.rdSamples, hi]

/-- Settles O40. -/
theorem ckDataLoadsSamples : Obligations.CkDataLoadsSamples := by
  unfold Obligations.CkDataLoadsSamples
  intro s len
  refine ⟨fun hbad => ?_, fun hfmt hnew halign => ⟨fun hshort => ?_, fun hroom => ?_⟩⟩
  · refine runStep_of_raise (k := .unsupportedFormat) (t := s) ?_
    unfold chunkData
    by_cases hfmt : s.flags.fmtSeen = true
    · by_cases hseen : s.flags.dataSeen = true
      · rw [if_neg (not_not.2 hfmt), if_pos hseen]
      · have halign : s.cr.blockAlign ≠ 2 := by simpa [hfmt, hseen] using hbad
        rw [if_neg (not_not.2 hfmt), if_neg hseen, if_pos halign]
    · rw [if_pos hfmt]
  · exact runStep_of_raise ((chunkData_of_format len hfmt hnew halign).trans (if_pos hshort))
  · refine ⟨_, fun i hi => get?_load_rdSamples s _ _ i hi, ?_⟩
    rw [← half_eq_ofNat (n := len) rfl]
    exact runStep_of_go ((chunkData_of_format len hfmt hnew halign).trans (if_neg (by omega)))

/-- The clamp of the loop start against the sample length, on numbers (R179). -/
theorem clampLoopStart_sampleLength (s : State) (start : U32) :
    clampLoopStart s.sampleLength start = if s.cr.dataSize.toNat / 2 < start.toNat then 0 else start := by
  rw [← State.sampleLength_toNat]
  rfl

/-- The clamp of the loop end against the sample length, on numbers (R179). -/
theorem clampLoopEnd_sampleLength (s : State) (stop : U32) : clampLoopEnd s.sampleLength stop =
    if s.cr.dataSize.toNat / 2 < stop.toNat then BitVec.ofNat 32 (s.cr.dataSize.toNat / 2)
    else stop := by
  rw [← State.sampleLength_eq, ← State.sampleLength_toNat]
  rfl

theorem chunkSmpl_short {s : State} (len : U32) (h : s.inLen.toNat < s.pos + 68) :
    chunkSmpl len s = .raise .truncatedHeader s := if_pos (by omega)

theorem chunkSmpl_of_room {s : State} (len : U32) (h : s.pos + 68 ≤ s.inLen.toNat) :
    chunkSmpl len s = .go { s with
      lr := ⟨s.rd32 (s.pos + 48), clampLoopStart s.sampleLength (s.rd32 (s.pos + 52)),
        clampLoopEnd s.sampleLength (s.rd32 (s.pos + 56))⟩
      flags := { s.flags with
        smplSeen := true
        loopEnabled := loopEnabledOf (s.rd32 (s.pos + 48)) (s.rd32 (s.pos + 56))
        loopEndNz := loopEndNzOf (s.rd32 (s.pos + 56)) } } := if_neg (by omega)

/-- Settles O41. -/
theorem ckSmplCapturesLoop : Obligations.CkSmplCapturesLoop := by
  unfold Obligations.CkSmplCapturesLoop
  intro s len
  refine ⟨fun hshort => runStep_of_raise (chunkSmpl_short len hshort), fun hroom => ?_⟩
  dsimp only
  rw [← clampLoopStart_sampleLength, ← clampLoopEnd_sampleLength, ← loopEnabledOf_eq, ← loopEndNzOf_eq]
  exact runStep_of_go (chunkSmpl_of_room len hroom)

/-- Settles O42. -/
theorem ckSkipDoesNothing : Obligations.CkSkipDoesNothing := by
  unfold Obligations.CkSkipDoesNothing
  exact fun s id len => runStep_of_go rfl

theorem walkEnd_of_noData {s : State} (h : s.flags.dataSeen = false) :
    walkEnd s = .raise .truncatedHeader s := if_pos (by simp [h])

theorem walkEnd_of_loop {s : State} (hdata : s.flags.dataSeen = true)
    (hloop : s.flags.loopCaptured = true) : walkEnd s = .go s :=
  (if_neg (not_not.2 hdata)).trans (if_pos hloop)

theorem walkEnd_of_noLoop {s : State} (hdata : s.flags.dataSeen = true)
    (hloop : s.flags.loopCaptured = false) : walkEnd s = .go { s with
      flags := { s.flags with loopEnabled := false }
      lr := { s.lr with start := 0, stop := s.sampleLength } } :=
  (if_neg (not_not.2 hdata)).trans (if_neg (by simp [hloop]))

/-- Settles O43. -/
theorem walkEndSetsLoopDefaults : Obligations.WalkEndSetsLoopDefaults := by
  unfold Obligations.WalkEndSetsLoopDefaults
  refine fun s => ⟨fun hnone => runStep_of_raise (walkEnd_of_noData hnone), fun hdata hloop => ?_,
    fun hdata hnoLoop => ?_⟩
  · exact runStep_of_go (walkEnd_of_loop hdata (Bool.and_eq_true_iff.2 hloop))
  · rw [← State.sampleLength_eq]
    exact runStep_of_go (walkEnd_of_noLoop hdata (Bool.and_eq_false_iff.2 hnoLoop))

/-! ## One turn of WALK (R174) -/

/-- A turn whose chunk operation goes on continues behind the chunk. -/
theorem runStep_walk_of_turn {s t : State} {x : Flow} {len : U32}
    (hturn : walk s = x.andThen fun t => walk (t.seek len)) (hx : x = .go t) (hpos : t.pos = s.pos) :
    runStep walk s = runStep walk { t with pos := s.pos + 8 + len.toNat } := by
  rw [runStep, runStep, hturn, hx, Flow.go_andThen, State.seek, hpos]

/-- A turn whose chunk operation raises ends the walk as that operation ends on its own. -/
theorem runStep_walk_of_raise {s t : State} {f : State → Flow} {g : State → Flow} {k : ErrKind}
    (hturn : walk s = (f s).andThen g) (hx : f s = .raise k t) : runStep walk s = runStep f s := by
  rw [runStep, runStep, hturn, hx, Flow.raise_andThen]

theorem pos_of_leaves {x : Flow} {s t : State} (h : x.Leaves fun t => t.pos = s.pos) (hx : x = .go t) :
    t.pos = s.pos := by
  rw [hx] at h
  exact h

/-- Settles O44. -/
theorem walkTurns : Obligations.WalkTurns := by
  unfold Obligations.WalkTurns
  intro s
  refine ⟨fun hend => ?_, fun hpos hcut => runStep_of_raise (walk_of_cut hpos hcut), fun hhdr => ?_⟩
  · exact congrArg (Flow.conclude true) (walk_of_end hend)
  have hturn := walk_turn hhdr
  refine ⟨fun hFmt hData hSmpl => ?_, fun hid => ?_, fun hid => ?_, fun hid => ?_⟩
  · rw [Encoding.chunkKind_of_other hFmt hData hSmpl] at hturn
    exact congrArg (Flow.conclude true) hturn
  · rw [hid, show chunkKind 0x20746D66 = .fmt from rfl] at hturn
    exact ⟨fun t ht => runStep_walk_of_turn hturn ht (pos_of_leaves (chunkFmt_pos _ s) ht),
      fun k t ht => runStep_walk_of_raise hturn ht⟩
  · rw [hid, show chunkKind 0x61746164 = .data from rfl] at hturn
    exact ⟨fun t ht => runStep_walk_of_turn hturn ht (pos_of_leaves (chunkData_pos _ s) ht),
      fun k t ht => runStep_walk_of_raise hturn ht⟩
  · rw [hid, show chunkKind 0x6C706D73 = .smpl from rfl] at hturn
    refine ⟨fun t ht => ?_, fun k t ht => runStep_walk_of_raise hturn ht⟩
    rw [ht, Flow.go_andThen] at hturn
    exact congrArg (Flow.conclude true) hturn

/-- Settles O45: one turn of CK.DATA reaches the end of the file, and WALK.END sets the defaults, since no
loop chunk was met. -/
theorem walkCompletesOnLastData : Obligations.WalkCompletesOnLastData := by
  unfold Obligations.WalkCompletesOnLastData
  intro s hfmt hnew hnoLoop halign hid hfill
  refine ⟨_, fun i hi => get?_load_rdSamples s _ _ i hi, ?_⟩
  have hgo := (chunkData_of_format (s.rd32 (s.pos + 4)) hfmt hnew halign).trans (if_neg (by omega))
  have hturn := walk_turn (s := s) (by omega)
  rw [hid, show chunkKind 0x61746164 = .data from rfl] at hturn
  dsimp only at hturn
  rw [hgo, Flow.go_andThen] at hturn
  refine runStep_of_go (hturn.trans ((walk_of_end ?_).trans ((walkEnd_of_noLoop rfl ?_).trans ?_)))
  · exact Nat.le_of_eq hfill.symm
  · exact Bool.and_eq_false_iff.2 (.inl hnoLoop)
  · rw [State.sampleLength_eq, half_eq_ofNat rfl, ← hfill]
    rfl

end Sys2Proof.Proofs.ReaderSteps

namespace Sys2Proof.Proofs.WriterSteps

open Sys2Proof.Machine Sys2Proof.Claims Sys2Proof.Proofs.ReaderSteps

/-! ## The writer's bytes in the statements' form -/

/-- The header the writer emits is a header of the fixed form (R79). -/
theorem headerBytes_eq_fixedHeader {cr : ContainerRec} (h : cr.fmtSize = 16) : headerBytes cr =
    fixedHeader cr.totalSize cr.format cr.channels cr.rate cr.byteRate cr.blockAlign cr.bits
      cr.dataSize := by
  unfold headerBytes
  rw [h]
  rfl

theorem adpcmHeader_eq (e : U32) (cr : ContainerRec) : headerBytes (adpcmRecord e cr) =
    fixedHeader (e + 36) 20 cr.channels cr.rate cr.byteRate cr.blockAlign 4 e :=
  headerBytes_eq_fixedHeader rfl

theorem pcmHeader_eq (cr : ContainerRec) : headerBytes (pcmRecord cr) =
    fixedHeader (4 * cr.dataSize + 36) 1 cr.channels cr.rate
      (cr.rate * (2 * cr.channels).setWidth 32) (2 * cr.channels) 16 (4 * cr.dataSize) :=
  headerBytes_eq_fixedHeader rfl

theorem samplesToBytes_eq_payload (xs : List Sample) : samplesToBytes xs = payload xs := rfl

/-- The byte rate of the PCM file, as a product of numbers (R204). -/
theorem ofNat_mul_toNat (rate : U32) (align : U16) :
    BitVec.ofNat 32 (rate.toNat * align.toNat) = rate * align.setWidth 32 := by
  apply BitVec.eq_of_toNat_eq
  rw [BitVec.toNat_ofNat, BitVec.toNat_mul, BitVec.toNat_setWidth, Nat.mod_eq_of_lt (a := align.toNat)]
  exact Nat.lt_trans align.isLt (by decide)

/-- Each writer step is one emission of its bytes after its register writes, which leave `OUT`, `OUT_LEN`
and `OUT_CAP` alone. -/
theorem exec_of_writes {i : Instr} {s s' : State} {bs : List Byte} (h : writes i s = some (s', bs)) :
    exec i s = (s'.emit bs).conclude true ∧ s' = { s with cr := s'.cr } := by
  cases i with
  | wrHdrA =>
    obtain ⟨rfl, rfl⟩ := Prod.mk.inj (Option.some.inj h)
    refine ⟨?_, rfl⟩
    rw [← adpcmHeader_eq]
    rfl
  | wrDataA =>
    obtain ⟨rfl, rfl⟩ := Prod.mk.inj (Option.some.inj h)
    exact ⟨rfl, rfl⟩
  | wrSmpl =>
    obtain ⟨rfl, rfl⟩ := Prod.mk.inj (Option.some.inj h)
    exact ⟨rfl, rfl⟩
  | wrHdrP =>
    simp only [writes] at h
    split_ifs at h with hsmall
    obtain ⟨rfl, rfl⟩ := Prod.mk.inj (Option.some.inj h)
    refine ⟨?_, rfl⟩
    rw [ofNat_mul_toNat, ← pcmHeader_eq]
    exact congrArg (Flow.conclude true) (writeHeaderP_of_small hsmall)
  | wrDataP =>
    obtain ⟨rfl, rfl⟩ := Prod.mk.inj (Option.some.inj h)
    exact ⟨rfl, rfl⟩
  | _ => cases h

/-- Settles O46. -/
theorem writerEmitsItsBytes : Obligations.WriterEmitsItsBytes := by
  unfold Obligations.WriterEmitsItsBytes
  intro i s s' bs h hroom
  obtain ⟨hexec, hframe⟩ := exec_of_writes h
  have hlen : s'.outLen = s.outLen := by rw [hframe]
  have hcap : s'.outCap = s.outCap := by rw [hframe]
  obtain ⟨t, ht, hemitted⟩ := State.emit_go (s := s') (bs := bs) (by rw [hlen, hcap]; exact hroom)
  exact ⟨t, by rw [hexec, ht, Flow.conclude_go], hemitted⟩

/-- `OUT_LEN` after as many bytes as there is room for is `OUT_CAP`. -/
theorem outLen_add_room {s : State} (h : s.outLen.toNat ≤ s.outCap.toNat) :
    s.outLen + BitVec.ofNat 32 (s.outCap.toNat - s.outLen.toNat) = s.outCap := by
  apply BitVec.eq_of_toNat_eq
  rw [State.outLen_add_toNat (Nat.le_refl _)]
  omega

/-- Settles O47. -/
theorem writerStopsAtCapacity : Obligations.WriterStopsAtCapacity := by
  unfold Obligations.WriterStopsAtCapacity
  intro i s s' bs h hwithin hover
  obtain ⟨hexec, hframe⟩ := exec_of_writes h
  have hlen : s'.outLen = s.outLen := by rw [hframe]
  have hcap : s'.outCap = s.outCap := by rw [hframe]
  have hout : s'.output = s.output := by rw [hframe]
  refine ⟨s'.output.putRun s'.outLen.toNat (bs.take (s'.outCap.toNat - s'.outLen.toNat)), ?_, fun a => ?_⟩
  · have hemit := State.emit_of_no_room (s := s') (bs := bs) (by rw [hlen, hcap]; omega)
    rw [outLen_add_room (by rw [hlen, hcap]; exact hwithin)] at hemit
    rw [hexec, hemit, Flow.conclude_raise, abort_conv, hcap]
    rfl
  · rw [Memory.get?_putRun, hlen, hcap, hout, List.length_take, Nat.min_eq_left (by omega),
      Nat.add_sub_cancel' hwithin]
    split_ifs with ha
    · rw [List.getElem?_take_of_lt (by omega)]
    · rfl

end Sys2Proof.Proofs.WriterSteps

namespace Sys2Proof.Proofs.ConversionFiles

open Sys2Proof.Machine Sys2Proof.Claims
open Sys2Proof.Proofs.Streams Sys2Proof.Proofs.Conversions Sys2Proof.Proofs.Walk
open Sys2Proof.Proofs.ReaderSteps Sys2Proof.Proofs.WriterSteps

/-! ## Sequences in memories -/

theorem holds_append {α : Type} {m : Memory α} {a : Nat} {xs ys : List α} :
    m.Holds a (xs ++ ys) ↔ m.Holds a xs ∧ m.Holds (a + xs.length) ys := by
  refine ⟨fun h => ⟨fun i hi => ?_, fun i hi => ?_⟩, fun ⟨hx, hy⟩ i hi => ?_⟩
  · have := h i (by rw [List.length_append]; omega)
    rwa [List.getElem_append_left hi] at this
  · have := h (xs.length + i) (by rw [List.length_append]; omega)
    rw [List.getElem_append_right (by omega), ← Nat.add_assoc] at this
    simpa using this
  · rw [List.length_append] at hi
    by_cases hlt : i < xs.length
    · rw [List.getElem_append_left hlt]
      exact hx i hlt
    · rw [List.getElem_append_right (by omega), ← hy _ (by omega)]
      congr 1
      omega

/-- A sequence held in `OUT` is determined by its length register. -/
theorem holdsOutput_unique {t : State} {xs ys : List Byte} (hx : t.HoldsOutput xs)
    (hy : t.HoldsOutput ys) : xs = ys := by
  refine List.ext_getElem (hx.1.symm.trans hy.1) fun i hi hj => ?_
  exact Option.some.inj ((hx.2 i hi).symm.trans (hy.2 i hj))

/-! ## The writers behind an empty output -/

/-- An emission with room behind what `OUT` holds. -/
theorem emit_holdsOutput {s : State} {cs bs : List Byte} (ho : s.HoldsOutput cs)
    (hroom : cs.length + bs.length ≤ s.outCap.toNat) :
    ∃ t, s.emit bs = .go t ∧ t.HoldsOutput (cs ++ bs) ∧
      t = { s with output := t.output, outLen := t.outLen } := by
  have hr : s.outLen.toNat + bs.length ≤ s.outCap.toNat := ho.1 ▸ hroom
  obtain ⟨t, ht, hframe, _, _⟩ := State.emit_go hr
  exact ⟨t, ht, State.emit_go_holds ht ho.1 ho.2 hr, hframe⟩

theorem holdsOutput_nil {s : State} (h : s.outLen = 0) : s.HoldsOutput [] :=
  ⟨congrArg BitVec.toNat h, fun i hi => absurd hi (Nat.not_lt_zero i)⟩

/-- The writer of CONV.T with room for its file: header, payload, and the loop chunk where a loop was
captured (R203). -/
theorem writeAdpcmFile_go {e : State} {bs : List Byte} (h0 : e.outLen = 0) (had : e.HoldsAd bs)
    (hroom : 44 + bs.length + (if e.flags.loopCaptured then 68 else 0) ≤ e.outCap.toNat) :
    ∃ t, writeAdpcmFile e = .go t ∧ t.HoldsOutput (headerBytes (adpcmRecord e.adN e.cr) ++ bs ++
      if e.flags.loopCaptured then loopChunkBytes e.lr else []) := by
  obtain ⟨t, ht, hot, hft⟩ := emit_holdsOutput (s := { e with cr := adpcmRecord e.adN e.cr })
    (bs := headerBytes (adpcmRecord e.adN e.cr)) (holdsOutput_nil h0)
    (by simp only [List.length_nil, headerBytes_length]; omega)
  have hadt : t.adSlice t.adN.toNat = bs := by
    rw [hft]
    exact State.adSlice_of_holds (s := e) had
  obtain ⟨u, hu, hou, hfu⟩ := emit_holdsOutput (s := t) (bs := bs) hot (by
    rw [hft]
    simp only [List.nil_append, headerBytes_length]
    omega)
  have hwrite : writeAdpcmFile e = if e.flags.loopCaptured then writeSmpl u else .go u := by
    rw [writeAdpcmFile, writeHeaderA_eq, ht, Flow.go_andThen, writeDataA, hadt, hu, Flow.go_andThen,
      hfu, hft]
  rw [hwrite]
  split_ifs at hroom ⊢ with hloop
  · have hlr : u.lr = e.lr := by rw [hfu, hft]
    obtain ⟨v, hv, hov, _⟩ := emit_holdsOutput (s := u) (bs := loopChunkBytes e.lr) hou (by
      rw [hfu, hft]
      simp only [List.nil_append, List.length_append, headerBytes_length, loopChunkBytes_length]
      omega)
    exact ⟨v, by rw [writeSmpl, hlr, hv], hov⟩
  · exact ⟨u, rfl, by rw [List.append_nil]; exact hou⟩

/-- The writer of CONV.F with room for its file: header and payload. -/
theorem writePcmFile_go {e : State} {xs : List Sample} (h0 : e.outLen = 0) (hx : e.HoldsPcm xs)
    (hsmall : 4 * e.cr.dataSize.toNat + 44 < 2 ^ 32) (hroom : 44 + 2 * xs.length ≤ e.outCap.toNat) :
    ∃ t, writePcmFile e = .go t ∧
      t.HoldsOutput (headerBytes (pcmRecord e.cr) ++ samplesToBytes xs) := by
  obtain ⟨t, ht, hot, hft⟩ := emit_holdsOutput (s := { e with cr := pcmRecord e.cr })
    (bs := headerBytes (pcmRecord e.cr)) (holdsOutput_nil h0)
    (by simp only [List.length_nil, headerBytes_length]; omega)
  have hxt : t.pcmSlice t.pcmN.toNat = xs := by
    rw [hft]
    exact State.pcmSlice_of_holds (s := e) hx
  obtain ⟨u, hu, hou, _⟩ := emit_holdsOutput (s := t) (bs := samplesToBytes xs) hot (by
    rw [hft]
    simp only [List.nil_append, headerBytes_length, samplesToBytes_length]
    omega)
  exact ⟨u, by rw [writePcmFile, writeHeaderP_of_small hsmall, ht, Flow.go_andThen, writeDataP, hxt, hu],
    hou⟩

/-! ## A conversion that commits -/

/-- `t` is the success of a conversion that left the codec state `k`, the records and the cursor of `r`,
and the file `out` (R228). -/
structure Committed (r : State) (k : Codec) (out : List Byte) (t : State) : Prop where
  output : t.HoldsOutput out
  outValid : t.outValid = true
  err : t.err = 0
  status : t.status = 0
  bufv : t.bufv = {}
  codec : t.codec = k
  pos : t.pos = r.pos
  flags : t.flags = r.flags
  lr : t.lr = r.lr

theorem committed_of_succeed {r e u : State} {out : List Byte} (hc : CodecFrame r e)
    (hw : WriterFrame e u) (ho : u.HoldsOutput out) : Committed r e.codec out (u.succeed true) where
  output := ho
  outValid := by simp
  err := by simp
  status := by simp
  bufv := by simp
  codec := by rw [State.succeed_codec, hw.codec]
  pos := by rw [State.succeed_pos, hw.pos, hc]
  flags := by rw [State.succeed_flags, hw.flags, hc]
  lr := by rw [State.succeed_lr, hw.lr, hc]

theorem pcmReader_frame (s : State) : (pcmReader s).Leaves (ReaderFrame s) :=
  (readRiff_frame s).andThen (fun t ht => (walk_frame t).mono fun _ hu => ht.trans hu) fun _ ht => ht

theorem adpcmReader_frame (s : State) : (adpcmReader s).Leaves (ReaderFrame s) :=
  (readHeader_frame _ s).andThen (fun t ht => (readPayload_frame t).mono fun _ hu => ht.trans hu)
    fun _ ht => ht

/-- The frame of a flow that goes on. -/
theorem frame_of_go {R : State → State → Prop} {f : State → Flow} {s t : State} (h : (f s).Leaves (R s))
    (ht : f s = .go t) : R s t := by
  rw [ht] at h
  exact h

/-- CONV.T behind its reader and its codec part, with room for the file. -/
theorem convT_commits {s r e : State} {bs : List Byte} (hp : s.inPresent = true)
    (hr : pcmReader (initialisedConv s) = .go r) (he : encodePayload r = .go e) (had : e.HoldsAd bs)
    (hroom : 44 + bs.length + (if r.flags.loopCaptured then 68 else 0) ≤ s.outCap.toNat) :
    ∃ t, exec .convT s = .next t ∧ Committed r e.codec (headerBytes (adpcmRecord e.adN r.cr) ++ bs ++
      if r.flags.loopCaptured then loopChunkBytes r.lr else []) t := by
  have hfr := frame_of_go (pcmReader_frame _) hr
  have hfe : CodecFrame r e := frame_of_go (encodePayload_frame r) he
  have hflags : e.flags = r.flags := by rw [hfe]
  have hlr : e.lr = r.lr := by rw [hfe]
  have hcap : e.outCap = s.outCap := by rw [hfe]; exact hfr.outCap
  have h0 : e.outLen = 0 := by rw [hfe]; exact hfr.outLen
  obtain ⟨u, hu, hout⟩ := writeAdpcmFile_go h0 had (by rw [hflags, hcap]; exact hroom)
  rw [hflags, hlr, encodePayload_cr he] at hout
  refine ⟨_, runCommand_of_go (conv := true) (body := convTBody) ?_,
    committed_of_succeed hfe (frame_of_go (writeAdpcmFile_frame e) hu) hout⟩
  rw [convTBody_eq (s := s.initialise true) hp]
  exact Flow.andThen_eq_go.2 ⟨r, hr, Flow.andThen_eq_go.2 ⟨e, he, hu⟩⟩

theorem writePcmFile_frame (s : State) : (writePcmFile s).Leaves (WriterFrame s) :=
  (writer_frame s).2.2.2.1.andThen
    (fun t ht => (writer_frame t).2.2.2.2.mono fun _ hu => ht.trans hu) fun _ ht => ht

/-- CONV.F behind its reader and its codec part, with room for the file. -/
theorem convF_commits {s r e : State} {xs : List Sample} (hp : s.inPresent = true)
    (hr : adpcmReader (initialisedConv s) = .go r) (he : decodePayload r = .go e) (hx : e.HoldsPcm xs)
    (hroom : 44 + 2 * xs.length ≤ s.outCap.toNat) :
    ∃ t, exec .convF s = .next t ∧
      Committed r e.codec (headerBytes (pcmRecord r.cr) ++ samplesToBytes xs) t := by
  have hfr := frame_of_go (adpcmReader_frame _) hr
  have hfe : CodecFrame r e := frame_of_go (decodePayload_frame r) he
  have hcap : e.outCap = s.outCap := by rw [hfe]; exact hfr.outCap
  have h0 : e.outLen = 0 := by rw [hfe]; exact hfr.outLen
  obtain ⟨hsmall, _, _⟩ := decodePayload_go he
  rw [(adpcmReader_go hr).2, ← decodePayload_cr he] at hsmall
  obtain ⟨u, hu, hout⟩ := writePcmFile_go h0 hx hsmall (by rw [hcap]; exact hroom)
  rw [decodePayload_cr he] at hout
  refine ⟨_, runCommand_of_go (conv := true) (body := convFBody Config.checkDataTag) ?_,
    committed_of_succeed hfe (frame_of_go (writePcmFile_frame e) hu) hout⟩
  rw [convFBody_eq (s := s.initialise true) hp]
  exact Flow.andThen_eq_go.2 ⟨r, hr, Flow.andThen_eq_go.2 ⟨e, he, hu⟩⟩

/-! ## The codec part of CONV.T -/

section EncodePayload

variable {r : State}

theorem encodePayload_mono {xs : List Sample} (hch : r.cr.channels = 1) (h0 : xs ≠ [])
    (heven : xs.length % 2 = 0) (hsize : r.cr.dataSize.toNat = 2 * xs.length) (hx : r.HoldsPcm xs) :
    encodePayload r = .go { r with
      codec := (encodeStream ⟨0, 127⟩ xs).1, adbuf := r.adbuf.load (encodeStream ⟨0, 127⟩ xs).2
      adN := BitVec.ofNat 32 (xs.length / 2) } := by
  have hpos : 0 < xs.length := List.length_pos_iff.2 h0
  have hquarter : r.cr.dataSize.toNat / 4 = xs.length / 2 := by omega
  unfold encodePayload
  dsimp only
  rw [if_pos hch, if_neg (by omega), if_neg (by omega), State.pcmSlice_of_holds hx,
    encodeAll_ok h0 heven, hquarter]
  rfl

theorem encodePayload_stereo {ls rs : List Sample} (hch : r.cr.channels ≠ 1) (h0 : ls ≠ [])
    (heven : ls.length % 2 = 0) (hlr : ls.length = rs.length)
    (hsize : r.cr.dataSize.toNat = 4 * ls.length) (hx : r.HoldsPcm (frames ls rs)) :
    encodePayload r = .go { r with
      codec := (encodeStream ⟨0, 127⟩ rs).1, chl := r.chl.load ls, chr := r.chr.load rs
      chN := r.pcmN / 2
      adbuf := r.adbuf.load ((encodeStream ⟨0, 127⟩ ls).2 ++ (encodeStream ⟨0, 127⟩ rs).2)
      adN := BitVec.ofNat 32 ls.length } := by
  have hpos : 0 < ls.length := List.length_pos_iff.2 h0
  have hr0 : rs ≠ [] := List.length_pos_iff.1 (hlr ▸ hpos)
  have hquarter : r.cr.dataSize.toNat / 4 = ls.length := by omega
  unfold encodePayload
  dsimp only
  rw [if_neg hch, if_neg (by omega), if_neg (by omega), State.pcmSlice_of_holds hx,
    deinterleave_frames hlr, Flow.withValue_ok, encodeAll_ok h0 heven, Flow.withValue_ok,
    encodeAll_ok hr0 (hlr ▸ heven), hquarter]
  rfl

end EncodePayload

/-- The loop chunk CONV.T writes behind the payload: the record of the reader, where a loop was captured
(R203). -/
def loopTail (r : State) : List Byte :=
  if r.flags.loopCaptured then loopChunk r.lr.type r.lr.start r.lr.stop else []

theorem loopTail_eq (r : State) :
    loopTail r = if r.flags.loopCaptured then loopChunkBytes r.lr else [] := rfl

/-- The ADPCM header CONV.T writes for a payload of `n` bytes (R200). -/
def adpcmHeader (cr : ContainerRec) (n : Nat) : List Byte :=
  fixedHeader (BitVec.ofNat 32 (n + 36)) 20 cr.channels cr.rate cr.byteRate cr.blockAlign 4
    (BitVec.ofNat 32 n)

theorem headerBytes_adpcmRecord (cr : ContainerRec) (n : Nat) :
    headerBytes (adpcmRecord (BitVec.ofNat 32 n) cr) = adpcmHeader cr n := by
  rw [adpcmHeader_eq, adpcmHeader, BitVec.ofNat_add]
  rfl

/-- CONV.T of a mono file the reader accepts: header, `encode` of the samples, loop chunk. -/
theorem convT_mono {s r : State} {xs : List Sample} (hp : s.inPresent = true)
    (hr : pcmReader (initialisedConv s) = .go r) (hch : r.cr.channels = 1) (h0 : xs ≠ [])
    (heven : xs.length % 2 = 0) (hsize : r.cr.dataSize.toNat = 2 * xs.length) (hx : r.HoldsPcm xs)
    (hroom : 44 + xs.length / 2 + (if r.flags.loopCaptured then 68 else 0) ≤ s.outCap.toNat) :
    ∃ t u bs, exec .convT s = .next t ∧ encBytes (streamStart s) xs = some (u, bs) ∧
      bs.length = xs.length / 2 ∧
      Committed r u.codec (adpcmHeader r.cr (xs.length / 2) ++ bs ++ loopTail r) t := by
  have hlen := encodeStream_length ⟨0, 127⟩ xs
  have hbound := r.cr.dataSize.isLt
  obtain ⟨u, hu, hcodec⟩ := encBytes_eq (streamStart s) xs
  obtain ⟨t, ht, hcommit⟩ := convT_commits hp hr (encodePayload_mono hch h0 heven hsize hx)
    (bs := (encodeStream ⟨0, 127⟩ xs).2)
    ⟨(toNat_ofNat_u32 (by omega)).trans hlen.symm, Memory.ofRun_holds 0 _⟩ (by rw [hlen]; exact hroom)
  rw [headerBytes_adpcmRecord, ← loopTail_eq] at hcommit
  refine ⟨t, u, _, ht, hu, hlen, ?_⟩
  rw [hcodec]
  exact hcommit

/-- CONV.T of a two-channel file the reader accepts: header, `encode` of the left and of the right
samples, loop chunk. -/
theorem convT_stereo {s r : State} {ls rs : List Sample} (hp : s.inPresent = true)
    (hr : pcmReader (initialisedConv s) = .go r) (hch : r.cr.channels ≠ 1) (h0 : ls ≠ [])
    (heven : ls.length % 2 = 0) (hlr : ls.length = rs.length)
    (hsize : r.cr.dataSize.toNat = 4 * ls.length) (hx : r.HoldsPcm (frames ls rs))
    (hroom : 44 + ls.length + (if r.flags.loopCaptured then 68 else 0) ≤ s.outCap.toNat) :
    ∃ t u v left right, exec .convT s = .next t ∧ encBytes (streamStart s) ls = some (u, left) ∧
      encBytes (streamStart s) rs = some (v, right) ∧ (left ++ right).length = ls.length ∧
      Committed r v.codec (adpcmHeader r.cr ls.length ++ (left ++ right) ++ loopTail r) t := by
  have hlen : ((encodeStream ⟨0, 127⟩ ls).2 ++ (encodeStream ⟨0, 127⟩ rs).2).length = ls.length := by
    rw [List.length_append, encodeStream_length, encodeStream_length]
    omega
  have hbound := r.cr.dataSize.isLt
  obtain ⟨u, hu, _⟩ := encBytes_eq (streamStart s) ls
  obtain ⟨v, hv, hcodec⟩ := encBytes_eq (streamStart s) rs
  obtain ⟨t, ht, hcommit⟩ := convT_commits hp hr (encodePayload_stereo hch h0 heven hlr hsize hx)
    (bs := (encodeStream ⟨0, 127⟩ ls).2 ++ (encodeStream ⟨0, 127⟩ rs).2)
    ⟨(toNat_ofNat_u32 (by omega)).trans hlen.symm, Memory.ofRun_holds 0 _⟩ (by rw [hlen]; exact hroom)
  rw [headerBytes_adpcmRecord, ← loopTail_eq] at hcommit
  refine ⟨t, u, v, _, _, ht, hu, hv, hlen, ?_⟩
  rw [hcodec]
  exact hcommit

end Sys2Proof.Proofs.ConversionFiles

namespace Sys2Proof.Proofs.ConversionResults

open Sys2Proof.Machine Sys2Proof.Claims
open Sys2Proof.Proofs.Streams Sys2Proof.Proofs.Conversions Sys2Proof.Proofs.Walk
open Sys2Proof.Proofs.ReaderSteps Sys2Proof.Proofs.WriterSteps Sys2Proof.Proofs.ConversionFiles

/-! ## The reader of CONV.T on a file of the fixed form -/

/-- The container record of a fixed-form PCM file with block alignment 2 (R79). -/
def pcmFileRecord (total : U32) (channels : U16) (rate byteRate : U32) (bits : U16) (size : U32) :
    ContainerRec where
  totalSize := total
  fmtSize := 16
  format := 1
  channels := channels
  rate := rate
  byteRate := byteRate
  blockAlign := 2
  bits := bits
  dataSize := size

theorem fixedHeader_length (total : U32) (format channels : U16) (rate byteRate : U32) (align bits : U16)
    (size : U32) : (fixedHeader total format channels rate byteRate align bits size).length = 44 := rfl

theorem payload_length (xs : List Sample) : (payload xs).length = 2 * xs.length := by
  rw [← samplesToBytes_eq_payload, samplesToBytes_length]

theorem headerBytes_pcmFileRecord (total : U32) (channels : U16) (rate byteRate : U32) (bits : U16)
    (size : U32) : headerBytes (pcmFileRecord total channels rate byteRate bits size) =
      fixedHeader total 1 channels rate byteRate 2 bits size := headerBytes_eq_fixedHeader rfl

/-- The state the walk of CONV.T is in behind the `data` chunk of a fixed-form file. -/
def behindPayload (s : State) (cr : ContainerRec) (xs : List Sample) : State :=
  { initialisedConv s with
    pos := 44 + cr.dataSize.toNat, cr := cr, flags := { fmtSeen := true, dataSeen := true }
    pcmN := cr.dataSize / 2, pcmbuf := s.pcmbuf.load xs }

section PcmFile

variable {s : State} {total rate byteRate size : U32} {channels bits : U16} {xs : List Sample}
  {post : List Byte}

theorem behindPayload_holdsPcm (hsize : size.toNat = 2 * xs.length) : (behindPayload s
    (pcmFileRecord total channels rate byteRate bits size) xs).HoldsPcm xs :=
  ⟨by change (size / 2).toNat = _; rw [half_eq_ofNat hsize, toNat_ofNat_u32]
      · omega
      · have := size.isLt; omega, load_holds _ _⟩

variable
  (hin : s.HoldsInput (fixedHeader total 1 channels rate byteRate 2 bits size ++ payload xs ++ post))
include hin

theorem headerRead_of_file : HeaderRead (initialisedConv s)
    (pcmFileRecord total channels rate byteRate bits size) := by
  obtain ⟨_, _, hholds⟩ := hin
  rw [List.append_assoc, ← headerBytes_pcmFileRecord] at hholds
  exact headerRead_of_holds hholds

/-- The length of a file that `IN` holds fits its register. -/
theorem payload_fits : 2 * xs.length < 2 ^ 32 := by
  have hlen := hin.2.1
  have hbound := s.inLen.isLt
  rw [List.length_append, List.length_append, payload_length] at hlen
  omega

variable (hsize : size.toNat = 2 * xs.length)
include hsize

theorem inLen_of_file : s.inLen.toNat = 44 + size.toNat + post.length := by
  rw [hin.2.1, hsize, List.length_append, List.length_append, fixedHeader_length, payload_length]

theorem rdSamples_of_file : (initialisedConv s).rdSamples 44 (size.toNat / 2) = xs := by
  rw [hsize, Nat.mul_div_cancel_left _ (by decide)]
  have h := State.rdSamples_of_holds (s := initialisedConv s) (xs := xs) (post := post)
    (pre := fixedHeader total 1 channels rate byteRate 2 bits size) hin.2.2
  rwa [fixedHeader_length] at h

/-- RD.RIFF and the first two turns of WALK (R173, R175, R176). -/
theorem pcmReader_of_file (hch : channels = 1 ∨ channels = 2) : pcmReader (initialisedConv s) =
    walk (behindPayload s (pcmFileRecord total channels rate byteRate bits size) xs) := by
  have hlen : 44 + size.toNat ≤ (initialisedConv s).inLen.toNat := by
    have : (initialisedConv s).inLen = s.inLen := rfl
    rw [this, inLen_of_file hin hsize]
    omega
  have hok := (channelsOk_iff channels).2 hch
  have h := readRiff_walk_of_header (headerRead_of_file hin) rfl rfl hok rfl rfl hlen
    (rdSamples_of_file hin hsize)
  exact h

end PcmFile

/-- The walk ends behind a payload that fills the file: no loop, the full sample range (R180). -/
theorem pcmReader_of_file_end {s : State} {total rate byteRate size : U32} {channels bits : U16}
    {xs : List Sample} (hch : channels = 1 ∨ channels = 2) (hsize : size.toNat = 2 * xs.length)
    (hin : s.HoldsInput (fixedHeader total 1 channels rate byteRate 2 bits size ++ payload xs)) :
    pcmReader (initialisedConv s) = .go { behindPayload s
      (pcmFileRecord total channels rate byteRate bits size) xs with
        lr := ⟨0, 0, BitVec.ofNat 32 xs.length⟩ } := by
  rw [← List.append_nil (_ ++ payload xs)] at hin
  have hend := inLen_of_file hin hsize
  have hhalf : size / 2 = BitVec.ofNat 32 xs.length := by
    rw [half_eq_ofNat hsize, Nat.mul_div_cancel_left _ (by decide)]
  rw [pcmReader_of_file hin hsize hch, walk_of_end, walkEnd_of_noLoop rfl rfl, ← hhalf]
  · rfl
  · exact Nat.le_of_eq hend

/-- A u32 field behind a part of the file. -/
theorem rd32_append {s : State} {pre post : List Byte} (h : s.input.Holds 0 (pre ++ post)) {k : Nat}
    {v : U32} (h0 : post[k]? = some (v.extractLsb' 0 8)) (h1 : post[k + 1]? = some (v.extractLsb' 8 8))
    (h2 : post[k + 2]? = some (v.extractLsb' 16 8)) (h3 : post[k + 3]? = some (v.extractLsb' 24 8)) :
    s.rd32 (pre.length + k) = v := by
  have hget : ∀ j, (pre ++ post)[pre.length + j]? = post[j]? := fun j => by
    rw [List.getElem?_append_right (by omega), Nat.add_sub_cancel_left]
  exact s.rd32_of_get h ((hget k).trans h0) ((hget (k + 1)).trans h1) ((hget (k + 2)).trans h2)
    ((hget (k + 3)).trans h3)

theorem loopEnabledOf_eq_ne (type stop : U32) :
    loopEnabledOf type stop = decide (type = 0 ∧ stop ≠ 0) := by
  rw [Bool.eq_iff_iff]
  simp [loopEnabledOf]

/-- What the walk does with a loop chunk that the block itself could have written (R177, R180). -/
theorem walk_of_loopChunk {b : State} {pre : List Byte} {type start stop : U32} {n : Nat}
    (hholds : b.input.Holds 0 (pre ++ loopChunk type start stop)) (hpos : b.pos = pre.length)
    (hlen : b.inLen.toNat = b.pos + 68) (hflags : b.flags = { fmtSeen := true, dataSeen := true })
    (hn : b.cr.dataSize.toNat / 2 = n) :
    ∃ r, walk b = .go r ∧ r = { b with lr := r.lr, flags := r.flags } ∧
      r.flags = { fmtSeen := true, dataSeen := true, smplSeen := true
                  loopEnabled := decide (type = 0 ∧ stop ≠ 0), loopEndNz := decide (stop ≠ 0) } ∧
      loopTail r = if stop = 0 then [] else loopChunk type (if n < start.toNat then 0 else start)
        (if n < stop.toNat then BitVec.ofNat 32 n else stop) := by
  have hid : b.rd32 b.pos = 0x6C706D73 := by
    rw [hpos]
    exact rd32_append (k := 0) hholds rfl rfl rfl rfl
  have htype : b.rd32 (b.pos + 48) = type := by rw [hpos]; exact rd32_append hholds rfl rfl rfl rfl
  have hstart : b.rd32 (b.pos + 52) = start := by rw [hpos]; exact rd32_append hholds rfl rfl rfl rfl
  have hstop : b.rd32 (b.pos + 56) = stop := by rw [hpos]; exact rd32_append hholds rfl rfl rfl rfl
  have hturn := walk_turn (s := b) (by omega)
  rw [hid, show chunkKind 0x6C706D73 = .smpl from rfl] at hturn
  dsimp only at hturn
  rw [chunkSmpl_of_room _ (by omega), Flow.go_andThen, htype, hstart, hstop,
    clampLoopStart_sampleLength, clampLoopEnd_sampleLength, hn, hflags, loopEnabledOf_eq_ne,
    loopEndNzOf_eq] at hturn
  by_cases hzero : stop = 0
  · have hcap : (true && decide (stop ≠ 0)) = false := by simp [hzero]
    refine ⟨_, hturn.trans (walkEnd_of_noLoop rfl hcap), rfl, by simp [hzero], ?_⟩
    exact (if_neg (by simp [Flags.loopCaptured, hzero])).trans (if_pos hzero).symm
  · have hcap : (true && decide (stop ≠ 0)) = true := by simpa using hzero
    exact ⟨_, hturn.trans (walkEnd_of_loop rfl hcap), rfl, rfl,
      (if_pos hcap).trans (if_neg hzero).symm⟩

/-- The walk behind a payload with a loop chunk that ends the file. -/
theorem pcmReader_of_file_loop {s : State} {total rate byteRate size type start stop : U32}
    {channels bits : U16} {xs : List Sample} (hch : channels = 1 ∨ channels = 2)
    (hsize : size.toNat = 2 * xs.length)
    (hin : s.HoldsInput (fixedHeader total 1 channels rate byteRate 2 bits size ++ payload xs ++
      loopChunk type start stop)) :
    ∃ r, pcmReader (initialisedConv s) = .go r ∧
      r = { behindPayload s (pcmFileRecord total channels rate byteRate bits size) xs with
        lr := r.lr, flags := r.flags } ∧
      r.flags = { fmtSeen := true, dataSeen := true, smplSeen := true
                  loopEnabled := decide (type = 0 ∧ stop ≠ 0), loopEndNz := decide (stop ≠ 0) } ∧
      loopTail r = if stop = 0 then [] else
        loopChunk type (if xs.length < start.toNat then 0 else start)
          (if xs.length < stop.toNat then BitVec.ofNat 32 xs.length else stop) := by
  rw [pcmReader_of_file hin hsize hch]
  refine walk_of_loopChunk hin.2.2 ?_ (inLen_of_file hin hsize) rfl ?_
  · change 44 + size.toNat = _
    rw [List.length_append, fixedHeader_length, payload_length, hsize]
  · change size.toNat / 2 = _
    omega

/-! ## CONV.T -/

/-- Settles O48. -/
theorem convTMonoFile : Obligations.ConvTMonoFile := by
  unfold Obligations.ConvTMonoFile
  intro s xs total rate byteRate bits h0 heven hin hroom
  have hfits := payload_fits (post := []) (by rw [List.append_nil]; exact hin)
  have hsize := toNat_ofNat_u32 hfits
  obtain ⟨t, u, bs, ht, hu, hlen, hc⟩ := convT_mono hin.1
    (pcmReader_of_file_end (.inl rfl) hsize hin) rfl h0 heven hsize (behindPayload_holdsPcm hsize) hroom
  refine ⟨t, u, bs, ht, hu, ?_, hc.outValid, hc.err, hc.status, hc.bufv, hc.codec, ?_, hc.flags, hc.lr⟩
  · have hout := hc.output
    rw [show loopTail _ = [] from rfl, List.append_nil] at hout
    exact hout
  · rw [hc.pos]
    exact congrArg (44 + ·) hsize

/-- Settles O49. -/
theorem convTStereoFile : Obligations.ConvTStereoFile := by
  unfold Obligations.ConvTStereoFile
  intro s ls rs total rate byteRate bits h0 heven hlr hin hroom
  have hframes := frames_length hlr.symm
  have hfits := payload_fits (post := []) (by rw [List.append_nil]; exact hin)
  have hsize : (BitVec.ofNat 32 (4 * ls.length)).toNat = 4 * ls.length := toNat_ofNat_u32 (by omega)
  have hsize' : (BitVec.ofNat 32 (4 * ls.length)).toNat = 2 * (frames ls rs).length := by omega
  obtain ⟨t, u, v, left, right, ht, hu, hv, hlen, hc⟩ := convT_stereo hin.1
    (pcmReader_of_file_end (.inr rfl) hsize' hin) (show (2 : U16) ≠ 1 by decide) h0 heven hlr.symm hsize
    (behindPayload_holdsPcm hsize') hroom
  refine ⟨t, u, v, left, right, ht, hu, hv, ?_, hc.outValid, hc.err, hc.status, hc.bufv, hc.codec⟩
  have hout := hc.output
  rw [show loopTail _ = [] from rfl, List.append_nil, ← List.append_assoc] at hout
  exact hout

/-- Settles O50. -/
theorem convTLoopChunk : Obligations.ConvTLoopChunk := by
  unfold Obligations.ConvTLoopChunk
  intro s xs total rate byteRate type start stop bits h0 heven hin hroom
  have hsize := toNat_ofNat_u32 (payload_fits hin)
  obtain ⟨r, hr, hframe, hflags, htail⟩ := pcmReader_of_file_loop (.inl rfl) hsize hin
  have hcr : r.cr = pcmFileRecord total 1 rate byteRate bits (BitVec.ofNat 32 (2 * xs.length)) := by
    rw [hframe]
    rfl
  have hx : r.HoldsPcm xs := by
    rw [hframe]
    exact behindPayload_holdsPcm hsize
  obtain ⟨t, u, bs, ht, hu, hlen, hc⟩ := convT_mono hin.1 hr (by rw [hcr]; rfl) h0 heven
    (by rw [hcr]; exact hsize) hx (by split_ifs <;> omega)
  have hout := hc.output
  rw [htail, hcr] at hout
  exact ⟨t, u, bs, ht, hu, hout, hc.outValid, hc.err, hc.flags.trans hflags⟩

/-- The two readings of the captured loop (R203). -/
theorem loopCaptured_iff (f : Flags) : f.loopCaptured = true ↔ f.smplSeen = true ∧ f.loopEndNz = true :=
  Bool.and_eq_true_iff

theorem loopTail_length (r : State) : (loopTail r).length =
    if r.flags.smplSeen = true ∧ r.flags.loopEndNz = true then 68 else 0 := by
  unfold loopTail
  simp only [loopCaptured_iff]
  split_ifs <;> rfl

/-- The payload stands behind the 44 bytes of the header, and the length counts everything. -/
theorem payload_of_committed {r t : State} {k : Codec} {cr : ContainerRec} {n : Nat} {bs : List Byte}
    (h : Committed r k (adpcmHeader cr n ++ bs ++ loopTail r) t) :
    t.output.Holds 44 bs ∧ t.outLen.toNat = 44 + bs.length +
      (if r.flags.smplSeen = true ∧ r.flags.loopEndNz = true then 68 else 0) := by
  obtain ⟨hlen, hholds⟩ := h.output
  have hhdr : (adpcmHeader cr n).length = 44 := rfl
  refine ⟨?_, ?_⟩
  · have := (holds_append.1 (holds_append.1 hholds).1).2
    rwa [hhdr, Nat.zero_add] at this
  · rw [hlen, List.length_append, List.length_append, hhdr, loopTail_length]

/-- Settles O54: the reader has left as many samples as the payload holds. -/
theorem convTPayloadIsEncoded : Obligations.ConvTPayloadIsEncoded := by
  unfold Obligations.ConvTPayloadIsEncoded
  intro s r hp hr hroom hne
  have hpcmN := congrArg BitVec.toNat (pcmReader_accepted (s := initialisedConv s) rfl hr).pcmN
  rw [half_eq_ofNat rfl, toNat_ofNat_u32 (by have := r.cr.dataSize.isLt; omega)] at hpcmN
  have hpos : 0 < r.cr.dataSize.toNat := by
    rw [Nat.pos_iff_ne_zero]
    exact fun h => hne (BitVec.eq_of_toNat_eq h)
  refine ⟨fun xs hch h4 hx => ?_, fun ls rs hch h8 hlr hx => ?_⟩
  · have hn := hx.1
    obtain ⟨t, u, bs, ht, hu, hlen, hc⟩ := convT_mono hp hr hch (List.length_pos_iff.1 (by omega))
      (by omega) (by omega) hx (by split_ifs <;> omega)
    obtain ⟨hpay, houtLen⟩ := payload_of_committed hc
    exact ⟨t, u, bs, ht, hu, hc.outValid, hc.err, hpay, by omega, hc.codec, houtLen⟩
  · have hn := hx.1
    rw [frames_length hlr] at hn
    obtain ⟨t, u, v, left, right, ht, hu, hv, hlen, hc⟩ := convT_stereo hp hr hch
      (List.length_pos_iff.1 (by omega)) (by omega) hlr (by omega) hx (by split_ifs <;> omega)
    obtain ⟨hpay, houtLen⟩ := payload_of_committed hc
    exact ⟨t, u, v, left, right, ht, hu, hv, hc.outValid, hc.err, hpay, by omega, hc.codec, houtLen⟩

end Sys2Proof.Proofs.ConversionResults

namespace Sys2Proof.Proofs.AdpcmFiles

open Sys2Proof.Machine Sys2Proof.Claims
open Sys2Proof.Proofs.Streams Sys2Proof.Proofs.Conversions Sys2Proof.Proofs.Walk
open Sys2Proof.Proofs.ReaderSteps Sys2Proof.Proofs.WriterSteps Sys2Proof.Proofs.ConversionFiles
open Sys2Proof.Proofs.ConversionResults

/-! ## The codec part of CONV.F -/

theorem not_pcmTooLarge {e : U32} (h : 4 * e.toNat + 44 < 2 ^ 32) : ¬pcmTooLarge e = true := by
  simp only [pcmTooLarge, decide_eq_true_eq]
  omega

section DecodePayload

variable {r : State}

theorem decodePayload_mono {es : List Byte} (hch : r.cr.channels = 1) (h0 : es ≠ [])
    (hsmall : 4 * es.length + 44 < 2 ^ 32) (had : r.HoldsAd es) :
    decodePayload r = .go { r with
      codec := (decodeStream ⟨0, 127⟩ es).1, pcmbuf := r.pcmbuf.load (decodeStream ⟨0, 127⟩ es).2
      pcmN := 2 * r.adN } := by
  have hpos : 0 < es.length := List.length_pos_iff.2 h0
  have hn := had.1
  unfold decodePayload
  dsimp only
  rw [if_neg (not_pcmTooLarge (by omega)), if_pos hch, if_neg (by omega), State.adSlice_of_holds had,
    decodeAll_ok h0]
  rfl

theorem decodePayload_stereo {left right : List Byte} (hch : r.cr.channels ≠ 1) (h0 : left ≠ [])
    (hlr : right.length = left.length) (hsmall : 8 * left.length + 44 < 2 ^ 32)
    (had : r.HoldsAd (left ++ right)) :
    decodePayload r = .go { r with
      codec := (decodeStream ⟨0, 127⟩ right).1
      chl := r.chl.load (decodeStream ⟨0, 127⟩ left).2
      chr := r.chr.load (decodeStream ⟨0, 127⟩ right).2, chN := r.adN
      pcmbuf := r.pcmbuf.load
        (frames (decodeStream ⟨0, 127⟩ left).2 (decodeStream ⟨0, 127⟩ right).2)
      pcmN := 2 * r.adN } := by
  have hpos : 0 < left.length := List.length_pos_iff.2 h0
  have hr0 : right ≠ [] := List.length_pos_iff.1 (hlr.symm ▸ hpos)
  have hn := had.1
  rw [List.length_append] at hn
  have hhalf : r.adN.toNat / 2 = left.length := by omega
  have hys : (decodeStream ⟨0, 127⟩ left).2.length = (decodeStream ⟨0, 127⟩ right).2.length := by
    rw [decodeStream_length, decodeStream_length, hlr]
  unfold decodePayload
  dsimp only
  rw [if_neg (not_pcmTooLarge (by omega)), if_neg hch, if_neg (by omega), if_neg (by omega),
    State.adSlice_of_holds had, hhalf, List.take_left, List.drop_left, decodeAll_ok h0,
    decodeAll_ok hr0]
  simp only [Flow.withValue_ok]
  rw [show Codec.initial = ⟨0, 127⟩ from rfl, interleave_eq_frames hys]
  rfl

end DecodePayload

/-! ## The reader of CONV.F on a file of the fixed form -/

/-- The container record of a fixed-form ADPCM file (R79). -/
def adpcmFileRecord (total : U32) (channels : U16) (rate byteRate : U32) (align : U16) (size : U32) :
    ContainerRec where
  totalSize := total
  fmtSize := 16
  format := 20
  channels := channels
  rate := rate
  byteRate := byteRate
  blockAlign := align
  bits := 4
  dataSize := size

theorem headerBytes_adpcmFileRecord (total : U32) (channels : U16) (rate byteRate : U32) (align : U16)
    (size : U32) : headerBytes (adpcmFileRecord total channels rate byteRate align size) =
      fixedHeader total 20 channels rate byteRate align 4 size := headerBytes_eq_fixedHeader rfl

/-- RD.HDR captures the header and RD.PAYLOAD the declared bytes, whatever follows them (R170, R172). -/
theorem adpcmReader_of_file {s : State} {total rate byteRate size : U32} {channels align : U16}
    {es extra : List Byte} (hch : channels = 1 ∨ channels = 2) (hsize : size.toNat = es.length)
    (hin : s.HoldsInput (fixedHeader total 20 channels rate byteRate align 4 size ++ es ++ extra)) :
    adpcmReader (initialisedConv s) = .go { initialisedConv s with
      cr := adpcmFileRecord total channels rate byteRate align size
      adbuf := s.adbuf.load es, adN := size } := by
  obtain ⟨_, hlen, hholds⟩ := hin
  have hlen' : s.inLen.toNat = 44 + size.toNat + extra.length := by
    rw [hlen, List.length_append, List.length_append, fixedHeader_length, hsize]
  have hmem : s.memRead 44 size.toNat = es := by
    rw [State.memRead_of_holds hholds (by omega), List.append_assoc,
      List.drop_left' (fixedHeader_length _ _ _ _ _ _ _ _), hsize, List.take_left]
  have hread : HeaderRead (initialisedConv s)
      (adpcmFileRecord total channels rate byteRate align size) := by
    rw [List.append_assoc, ← headerBytes_adpcmFileRecord] at hholds
    exact headerRead_of_holds hholds
  have hhdr := readHeader_of_header Config.checkDataTag hread rfl rfl ((channelsOk_iff _).2 hch) rfl
    (show 44 ≤ s.inLen.toNat by omega)
  rw [adpcmReader, hhdr, Flow.go_andThen, readPayload]
  refine (if_neg (Nat.not_lt.2 (show 44 + size.toNat ≤ s.inLen.toNat by omega))).trans ?_
  rw [← hmem]
  rfl

/-! ## The PCM header -/

theorem four_mul_ofNat (n : Nat) : 4 * BitVec.ofNat 32 n = BitVec.ofNat 32 (4 * n) :=
  (BitVec.ofNat_mul 4 n).symm

/-- The PCM header CONV.F writes for `n` bytes of ADPCM (R204). -/
theorem headerBytes_pcmRecord {cr : ContainerRec} {n : Nat} (h : cr.dataSize = BitVec.ofNat 32 n) :
    headerBytes (pcmRecord cr) = fixedHeader (BitVec.ofNat 32 (4 * n + 36)) 1 cr.channels cr.rate
      (BitVec.ofNat 32 (cr.rate.toNat * (2 * cr.channels).toNat)) (2 * cr.channels) 16
      (BitVec.ofNat 32 (4 * n)) := by
  rw [pcmHeader_eq, h, four_mul_ofNat, ofNat_mul_toNat, BitVec.ofNat_add]
  rfl

/-! ## The obligations -/

/-- Settles O51. -/
theorem convFMonoFile : Obligations.ConvFMonoFile := by
  unfold Obligations.ConvFMonoFile
  intro s es extra total rate byteRate align h0 hsmall hin hroom
  have hsize : (BitVec.ofNat 32 es.length).toNat = es.length := toNat_ofNat_u32 (by omega)
  have hys := decodeStream_length ⟨0, 127⟩ es
  have hr := adpcmReader_of_file (.inl rfl) hsize hin
  obtain ⟨u, hu, hcodec⟩ := decSamples_eq (streamStart s) es
  obtain ⟨t, ht, hc⟩ := convF_commits hin.1 hr
    (decodePayload_mono rfl h0 hsmall ⟨hsize, load_holds s.adbuf es⟩)
    (xs := (decodeStream ⟨0, 127⟩ es).2)
    ⟨by
      refine (congrArg BitVec.toNat (double_eq_ofNat hsize)).trans ?_
      rw [toNat_ofNat_u32 (by omega), hys], load_holds _ _⟩ (by omega)
  refine ⟨t, u, _, ht, hu, ?_, hc.outValid, hc.err, hc.status, hc.bufv, hc.codec.trans hcodec.symm,
    hc.pos, hc.flags, hc.lr⟩
  have hout := hc.output
  rw [headerBytes_pcmRecord rfl] at hout
  exact hout

/-- Settles O52. -/
theorem convFStereoFile : Obligations.ConvFStereoFile := by
  unfold Obligations.ConvFStereoFile
  intro s left right extra total rate byteRate align h0 hlr hsmall hin hroom
  have hboth : (left ++ right).length = 2 * left.length := by rw [List.length_append]; omega
  have hsize : (BitVec.ofNat 32 (2 * left.length)).toNat = (left ++ right).length := by
    rw [toNat_ofNat_u32 (by omega), hboth]
  have hls := decodeStream_length ⟨0, 127⟩ left
  have hrs := decodeStream_length ⟨0, 127⟩ right
  have hframes := frames_length (hls.trans ((congrArg (2 * ·) hlr.symm).trans hrs.symm))
  have hr := adpcmReader_of_file (.inr rfl) hsize (by rw [List.append_assoc _ left] at hin; exact hin)
  obtain ⟨u, hu, _⟩ := decSamples_eq (streamStart s) left
  obtain ⟨v, hv, hcodec⟩ := decSamples_eq (streamStart s) right
  obtain ⟨t, ht, hc⟩ := convF_commits hin.1 hr
    (decodePayload_stereo (show (2 : U16) ≠ 1 by decide) h0 hlr hsmall
      ⟨hsize, load_holds s.adbuf (left ++ right)⟩)
    (xs := frames (decodeStream ⟨0, 127⟩ left).2 (decodeStream ⟨0, 127⟩ right).2)
    ⟨by
      refine (congrArg BitVec.toNat (double_eq_ofNat hsize)).trans ?_
      rw [toNat_ofNat_u32 (by omega), hboth, hframes, hls], load_holds _ _⟩ (by omega)
  refine ⟨t, u, v, _, _, ht, hu, hv, ?_, hc.outValid, hc.err, hc.status, hc.bufv,
    hc.codec.trans hcodec.symm⟩
  have hout := hc.output
  rw [headerBytes_pcmRecord rfl, ← Nat.mul_assoc] at hout
  exact hout

/-- Settles O53: the file CONV.T wrote is an ADPCM file of the fixed form, and CONV.F decodes it. -/
theorem convRoundTripMono : Obligations.ConvRoundTripMono := by
  unfold Obligations.ConvRoundTripMono
  intro s t v xs file total rate byteRate bits h0 heven hfits hin hroom ht hfile hin' hroom'
  have hpos : 0 < xs.length := List.length_pos_iff.2 h0
  obtain ⟨t', u, bs, ht', hu, hout, _⟩ := convTMonoFile s xs total rate byteRate bits h0 heven hin hroom
  obtain rfl : t = t' := Host.Outcome.next.inj (ht.symm.trans ht')
  obtain rfl := holdsOutput_unique hfile hout
  have hlen : bs.length = xs.length / 2 := by
    obtain ⟨u', hu', _⟩ := encBytes_eq (streamStart s) xs
    rw [hu'] at hu
    rw [← (Prod.mk.inj (Option.some.inj hu)).2, encodeStream_length]
  rw [← hlen, ← List.append_nil (_ ++ bs)] at hin'
  obtain ⟨w, u', ys, hw, hu', hout', hvalid, _⟩ := convFMonoFile v bs [] _ rate byteRate 2
    (List.length_pos_iff.1 (by omega)) (by omega) hin' (by omega)
  obtain ⟨hlen', hholds⟩ := hout'
  have hys : ys.length = 2 * bs.length := by
    obtain ⟨u'', hu'', _⟩ := decSamples_eq (streamStart v) bs
    rw [hu''] at hu'
    rw [← (Prod.mk.inj (Option.some.inj hu')).2, decodeStream_length]
  refine ⟨w, u, bs, u', ys, hw, hu, hu', hvalid, ?_, ?_⟩
  · rw [hlen', List.length_append, fixedHeader_length, payload_length]
    omega
  · have hpay := (holds_append.1 hholds).2
    rwa [fixedHeader_length, Nat.zero_add] at hpay

end Sys2Proof.Proofs.AdpcmFiles

namespace Sys2Proof.Proofs.ConversionEnds

open Sys2Proof.Machine Sys2Proof.Claims
open Sys2Proof.Proofs.Dispatch Sys2Proof.Proofs.Conversions Sys2Proof.Proofs.Walk
open Sys2Proof.Proofs.ConversionFiles Sys2Proof.Proofs.AdpcmFiles

/-! ## Refusals (R230) -/

theorem convT_refuses {s r : State} {k : Refusal} (hp : s.inPresent = true)
    (hr : pcmReader (initialisedConv s) = .go r) (he : encodePayload r = .refuse k) :
    exec .convT s = .refused k := by
  refine runCommand_of_refuse (conv := true) (body := convTBody) ?_
  rw [convTBody_eq (s := s.initialise true) hp, show pcmReader (s.initialise true) = _ from hr,
    Flow.go_andThen, he, Flow.refuse_andThen]

theorem convF_refuses {s r : State} {k : Refusal} (hp : s.inPresent = true)
    (hr : adpcmReader (initialisedConv s) = .go r) (he : decodePayload r = .refuse k) :
    exec .convF s = .refused k := by
  refine runCommand_of_refuse (conv := true) (body := convFBody Config.checkDataTag) ?_
  rw [convFBody_eq (s := s.initialise true) hp, show adpcmReader (s.initialise true) = _ from hr,
    Flow.go_andThen, he, Flow.refuse_andThen]

section Refusals

variable {r : State}

theorem encodePayload_empty (h : r.cr.dataSize = 0) : encodePayload r = .refuse .emptyPayload := by
  have h0 : r.cr.dataSize.toNat = 0 := congrArg BitVec.toNat h
  unfold encodePayload
  dsimp only
  by_cases hch : r.cr.channels = 1
  · rw [if_pos hch, if_pos h0]
  · rw [if_neg hch, if_pos h0]

theorem encodePayload_notMultiple_mono (hch : r.cr.channels = 1) (h4 : r.cr.dataSize.toNat % 4 ≠ 0) :
    encodePayload r = .refuse .payloadNotMultiple := by
  unfold encodePayload
  dsimp only
  rw [if_pos hch, if_neg (by omega), if_pos h4]

theorem encodePayload_notMultiple_stereo (hch : r.cr.channels ≠ 1) (h8 : r.cr.dataSize.toNat % 8 ≠ 0) :
    encodePayload r = .refuse .payloadNotMultiple := by
  unfold encodePayload
  dsimp only
  rw [if_neg hch, if_neg (by omega), if_pos h8]

theorem decodePayload_large (h : 2 ^ 32 ≤ 4 * r.adN.toNat + 44) :
    decodePayload r = .refuse .outputTooLarge := if_pos (decide_eq_true h)

theorem decodePayload_empty (h : r.adN = 0) : decodePayload r = .refuse .emptyPayload := by
  have h0 : r.adN.toNat = 0 := congrArg BitVec.toNat h
  unfold decodePayload
  dsimp only
  rw [if_neg (not_pcmTooLarge (by omega))]
  by_cases hch : r.cr.channels = 1
  · rw [if_pos hch, if_pos h0]
  · rw [if_neg hch, if_pos h0]

theorem decodePayload_odd (hch : r.cr.channels ≠ 1) (hsmall : 4 * r.adN.toNat + 44 < 2 ^ 32)
    (hodd : r.adN.toNat % 2 = 1) : decodePayload r = .refuse .oddStereoPayload := by
  unfold decodePayload
  dsimp only
  rw [if_neg (not_pcmTooLarge hsmall), if_neg hch, if_neg (by omega), if_pos (by omega)]

end Refusals

/-- Settles O55. -/
theorem conversionRefusals : Obligations.ConversionRefusals := by
  unfold Obligations.ConversionRefusals
  exact ⟨fun s r hp hr => ⟨fun h => convT_refuses hp hr (encodePayload_empty h),
      fun hch h4 => convT_refuses hp hr (encodePayload_notMultiple_mono hch h4),
      fun hch h8 => convT_refuses hp hr (encodePayload_notMultiple_stereo hch h8)⟩,
    fun s r hp hr => ⟨fun h => convF_refuses hp hr (decodePayload_large h),
      fun h => convF_refuses hp hr (decodePayload_empty h),
      fun hch hsmall hodd => convF_refuses hp hr (decodePayload_odd hch hsmall hodd)⟩⟩

/-! ## How a conversion ends (R228, R250) -/

/-- What is raised before the writer leaves `OUT` alone; the writer raises IoFailure only (R206). -/
def RaisesEarly (s : State) (x : Flow) : Prop :=
  ∀ k t, x = .raise k t → k = .ioFailure ∨ ReaderFrame s t

theorem writeHeaderP_raise {s t : State} {k : ErrKind} (h : writeHeaderP s = .raise k t) :
    k = .ioFailure := by
  unfold writeHeaderP at h
  split_ifs at h
  exact State.emit_raise h

theorem writeAdpcmFile_raise {s t : State} {k : ErrKind} (h : writeAdpcmFile s = .raise k t) :
    k = .ioFailure := by
  rcases Flow.andThen_eq_raise.1 h with h | ⟨u, _, h⟩
  · exact State.emit_raise h
  rcases Flow.andThen_eq_raise.1 h with h | ⟨v, _, h⟩
  · exact State.emit_raise h
  split_ifs at h
  exact State.emit_raise h

theorem writePcmFile_raise {s t : State} {k : ErrKind} (h : writePcmFile s = .raise k t) :
    k = .ioFailure := by
  rcases Flow.andThen_eq_raise.1 h with h | ⟨u, _, h⟩
  · exact writeHeaderP_raise h
  · exact State.emit_raise h

/-- What a flow raises has its frame. -/
theorem frame_of_raise {R : State → State → Prop} {f : State → Flow} {s t : State} {k : ErrKind}
    (h : (f s).Leaves (R s)) (ht : f s = .raise k t) : R s t := by
  rw [ht] at h
  exact h

theorem convTBody_raisesEarly (s : State) : RaisesEarly s (convTBody s) := by
  intro k t h
  cases hp : s.inPresent with
  | false =>
    rw [convTBody_absent hp] at h
    exact .inr ((Flow.raise.inj h).2 ▸ ReaderFrame.refl s)
  | true =>
    rw [convTBody_eq hp] at h
    rcases Flow.andThen_eq_raise.1 h with h | ⟨r, _, h⟩
    · exact .inr (frame_of_raise (pcmReader_frame s) h)
    rcases Flow.andThen_eq_raise.1 h with h | ⟨e, _, h⟩
    · exact absurd h (encodePayload_not_raise r t k)
    · exact .inl (writeAdpcmFile_raise h)

theorem convFBody_raisesEarly (s : State) : RaisesEarly s (convFBody Config.checkDataTag s) := by
  intro k t h
  cases hp : s.inPresent with
  | false =>
    rw [convFBody_absent _ hp] at h
    exact .inr ((Flow.raise.inj h).2 ▸ ReaderFrame.refl s)
  | true =>
    rw [convFBody_eq hp] at h
    rcases Flow.andThen_eq_raise.1 h with h | ⟨r, _, h⟩
    · exact .inr (frame_of_raise (adpcmReader_frame s) h)
    rcases Flow.andThen_eq_raise.1 h with h | ⟨e, _, h⟩
    · exact absurd h (decodePayload_not_raise r t k)
    · exact .inl (writePcmFile_raise h)

theorem convBody_raisesEarly {i : Instr} {body : State → Flow} (hi : convBody i = some body) (s : State) :
    RaisesEarly s (body s) := by
  cases i with
  | convT => cases hi; exact convTBody_raisesEarly s
  | convF => cases hi; exact convFBody_raisesEarly s
  | _ => cases hi

theorem keepsAbove_of_eq {s t : State} (hlen : t.outLen = s.outLen) (hout : t.output = s.output) :
    KeepsAbove s t :=
  ⟨Nat.le_of_eq (congrArg BitVec.toNat hlen.symm), fun a _ => by rw [hout]⟩

theorem convBody_keepsAbove {i : Instr} {body : State → Flow} (hi : convBody i = some body) (s : State) :
    (body s).Leaves (KeepsAbove s) := by
  have htr : ∀ s t u, KeepsAbove s t → KeepsAbove t u → KeepsAbove s u := fun _ _ _ => KeepsAbove.trans
  have hr : ∀ s t, ReaderFrame s t → KeepsAbove s t := fun _ _ h => keepsAbove_of_eq h.outLen h.output
  have hc : ∀ s t, CodecFrame s t → KeepsAbove s t := fun _ _ h =>
    keepsAbove_of_eq (by rw [h]) (by rw [h])
  cases i with
  | convT => cases hi; exact convTBody_leaves (R := KeepsAbove) htr hr hc writer_keepsAbove s
  | convF => cases hi; exact convFBody_leaves (R := KeepsAbove) htr hr hc writer_keepsAbove s
  | _ => cases hi

/-- The sample length of the accepted file is twice the encoded size (R181, R221). -/
theorem encodePayload_adN {r e : State} (h : encodePayload r = .go e) :
    2 * e.adN.toNat = r.sampleLength.toNat := by
  have hbound := r.cr.dataSize.isLt
  have hquarter : (BitVec.ofNat 32 (r.cr.dataSize.toNat / 4)).toNat = r.cr.dataSize.toNat / 4 :=
    Streams.toNat_ofNat_u32 (by omega)
  rw [State.sampleLength_toNat]
  obtain ⟨_, ⟨_, h4, _, _, _, rfl⟩ | ⟨_, h8, _, _, _, _, _, _, _, _, _, rfl⟩⟩ := encodePayload_go h
  · dsimp only
    omega
  · dsimp only
    omega

/-- The loop bounds of a CONV.T that gets to its end lie within the sample length. -/
theorem convTBody_loop {s t : State} (hflags : s.flags = {}) (h : convTBody s = .go t) :
    t.lr.start.toNat ≤ 2 * t.cr.dataSize.toNat ∧ t.lr.stop.toNat ≤ 2 * t.cr.dataSize.toNat := by
  obtain ⟨r, e, hr, he, ht⟩ := convTBody_go h
  have hacc := pcmReader_accepted hflags hr
  have hlr : t.lr = r.lr := by
    rw [(frame_of_go (writeAdpcmFile_frame e) ht).lr, frame_of_go (encodePayload_frame r) he]
  have hsize : t.cr.dataSize = e.adN := congrArg ContainerRec.dataSize (adpcmFile_cr he ht)
  rw [hlr, hsize, encodePayload_adN he]
  exact ⟨hacc.start, hacc.stop⟩

theorem convBody_loop {i : Instr} {body : State → Flow} (hi : convBody i = some body) {s t : State}
    (hflags : s.flags = {}) (h : body s = .go t) (hT : i = .convT) :
    t.lr.start.toNat ≤ 2 * t.cr.dataSize.toNat ∧ t.lr.stop.toNat ≤ 2 * t.cr.dataSize.toNat := by
  subst hT
  cases hi
  exact convTBody_loop hflags h

theorem errCode_eq_five {k : ErrKind} : errCode k = 5 ↔ k = .ioFailure := by
  cases k <;> decide

/-- An abort of a conversion reports its error, and one that is not of the writer leaves `OUT` alone. -/
theorem aborted_outcome {s u : State} {k : ErrKind}
    (hu : k = .ioFailure ∨ ReaderFrame (s.initialise true) u) :
    (u.abort true k).Aborted ∧ ((u.abort true k).err ≠ 5 →
      (u.abort true k).output = s.output ∧ (u.abort true k).outLen = 0) := by
  refine ⟨⟨?_, by simp, by simp, by simp⟩, fun herr => ?_⟩
  · rw [State.abort_err]
    cases k <;> decide
  · rw [State.abort_err, Ne, errCode_eq_five] at herr
    have hframe := hu.resolve_left herr
    simp [hframe.output, hframe.outLen]

theorem convBody_of_conv {i : Instr} (h : i = .convT ∨ i = .convF) :
    ∃ body, convBody i = some body ∧ ∀ s, exec i s = runCommand true body s := by
  rcases h with rfl | rfl
  · exact ⟨_, rfl, fun _ => rfl⟩
  · exact ⟨_, rfl, fun _ => rfl⟩

/-- Settles O60. -/
theorem conversionOutcomes : Obligations.ConversionOutcomes := by
  unfold Obligations.ConversionOutcomes
  intro i s t hi ht
  obtain ⟨body, hbody, hexec⟩ := convBody_of_conv hi
  rw [hexec] at ht
  have habove := convBody_keepsAbove hbody (s.initialise true)
  rcases runCommand_cases ht with ⟨u, hu, rfl⟩ | ⟨k, u, hu, rfl⟩
  · rw [hu] at habove
    refine ⟨.inl ⟨by simp, by simp, by simp, by simp, ?_, fun hT => ?_⟩, fun a ha => ?_⟩
    · rw [State.succeed_cr]
      exact Invariant.convBody_channels hbody (by simp) hu
    · rw [State.succeed_lr, State.succeed_cr]
      exact convBody_loop hbody (by simp) hu hT
    · simpa using habove.2 a (by simpa using ha)
  · rw [hu] at habove
    refine ⟨.inr (aborted_outcome (convBody_raisesEarly hbody _ k u hu)), fun a ha => ?_⟩
    simpa using habove.2 a (by simpa using ha)

end Sys2Proof.Proofs.ConversionEnds

namespace Sys2Proof.Proofs.Forgetting

open Sys2Proof.Machine Sys2Proof.Claims
open Sys2Proof.Proofs.Conversions Sys2Proof.Proofs.ConversionFiles Sys2Proof.Proofs.Walk

/-! ## States a conversion cannot tell apart -/

/-- The states agree on everything a conversion reads: the input, the capacity, the registers it has
initialised, the buffers below their length registers and the output below its own. They may differ in the
rest: the report, the codec registers, the other contents, the free values. -/
structure Alike (s s' : State) : Prop where
  inPresent : s'.inPresent = s.inPresent
  inLen : s'.inLen = s.inLen
  outLen : s'.outLen = s.outLen
  outCap : s'.outCap = s.outCap
  pos : s'.pos = s.pos
  flags : s'.flags = s.flags
  cr : s'.cr = s.cr
  lr : s'.lr = s.lr
  pcmN : s'.pcmN = s.pcmN
  adN : s'.adN = s.adN
  input : s'.input = s.input
  pcm : s'.pcmbuf.slice Config.freePcm s'.pcmN.toNat = s.pcmbuf.slice Config.freePcm s.pcmN.toNat
  ad : s'.adbuf.slice Config.freeAd s'.adN.toNat = s.adbuf.slice Config.freeAd s.adN.toNat
  output : ∀ a, a < s.outLen.toNat → s'.output.get? a = s.output.get? a

/-- Two flows that end alike, with related states. -/
inductive Paired (R : State → State → Prop) : Flow → Flow → Prop
  | go {s s' : State} (h : R s s') : Paired R (.go s) (.go s')
  | raise {k : ErrKind} {s s' : State} (h : R s s') : Paired R (.raise k s) (.raise k s')
  | refuse (r : Refusal) : Paired R (.refuse r) (.refuse r)

section Paired

variable {R Q : State → State → Prop} {x x' y y' : Flow}

theorem Paired.andThen {f f' : State → Flow} (hx : Paired R x x')
    (hf : ∀ s s', R s s' → Paired Q (f s) (f' s')) (hrq : ∀ s s', R s s' → Q s s') :
    Paired Q (x.andThen f) (x'.andThen f') := by
  cases hx with
  | go h => exact hf _ _ h
  | raise h => exact .raise (hrq _ _ h)
  | refuse r => exact .refuse r

theorem Paired.ite {c c' : Prop} [Decidable c] [Decidable c'] (hc : c' = c) (hx : Paired R x x')
    (hy : Paired R y y') : Paired R (if c then x else y) (if c' then x' else y') := by
  subst hc
  split_ifs
  · exact hx
  · exact hy

theorem Paired.withValue {β : Type} {v : Except Refusal β} {f f' : β → Flow}
    (h : ∀ b, v = .ok b → Paired R (f b) (f' b)) :
    Paired R (Flow.withValue v f) (Flow.withValue v f') := by
  cases v with
  | ok b => exact h b rfl
  | error r => exact .refuse r

end Paired

/-- A buffer loaded with as many elements as are read gives them back, whatever it was before. -/
theorem slice_load_of_length {α : Type} (free : Nat → Nat → α) (b : Buf α) {xs : List α} {n : Nat}
    (h : n = xs.length) : (b.load xs).slice free n = xs := h ▸ b.slice_load free xs

/-! ## The readers -/

section Reader

variable {s s' : State} (h : Alike s s')
include h

theorem readRiff_paired : Paired Alike (readRiff s) (readRiff s') := by
  unfold readRiff
  refine .ite (by rw [h.inLen]) (.raise h) (.ite ?_ (.raise h) (.ite ?_ (.raise h) (.go { h with
    pos := rfl, cr := ?_ })))
  · rw [State.memRead_congr h.input]
  · rw [State.memRead_congr h.input]
  · dsimp only
    rw [h.cr, State.rd32_congr h.input]

theorem captureSizes_alike : Alike (captureSizes s) (captureSizes s') :=
  { h with cr := by simp only [captureSizes, h.cr, State.rd32_congr h.input] }

theorem captureTag_alike : Alike (captureTag s) (captureTag s') :=
  { h with cr := by simp only [captureTag, h.cr, State.rd16_congr h.input] }

theorem captureChannels_alike : Alike (captureChannels s) (captureChannels s') :=
  { h with cr := by simp only [captureChannels, h.cr, State.rd16_congr h.input] }

theorem captureRates_alike : Alike (captureRates s) (captureRates s') :=
  { h with
    cr := by simp only [captureRates, h.cr, State.rd16_congr h.input, State.rd32_congr h.input] }

theorem captureDataSize_alike : Alike (captureDataSize s) (captureDataSize s') :=
  { h with cr := by simp only [captureDataSize, h.cr, State.rd32_congr h.input] }

theorem captureFormat_alike (len : U32) : Alike (captureFormat len s) (captureFormat len s') :=
  { h with
    cr := by
      simp only [captureFormat, h.cr, h.pos, State.rd16_congr h.input, State.rd32_congr h.input] }

theorem readHeaderTail_paired (c : Bool) : Paired Alike (readHeaderTail c s) (readHeaderTail c s') := by
  have hch := captureChannels_alike h
  have hrates := captureRates_alike hch
  unfold readHeaderTail
  refine .ite (by rw [hch.cr]) (.raise hch) (.ite (by rw [hrates.cr]) (.raise hrates)
    (.ite ?_ (.raise hrates) (.go (captureDataSize_alike hrates))))
  rw [State.memRead_congr h.input]

theorem readHeader_paired (c : Bool) : Paired Alike (readHeader c s) (readHeader c s') := by
  have hsizes := captureSizes_alike h
  have htag := captureTag_alike hsizes
  unfold readHeader
  refine .ite (by rw [h.inLen]) (.raise h) (.ite ?_ (.raise h) (.ite ?_ (.raise h) (.ite ?_ (.raise h)
    (.ite (by rw [hsizes.cr]) (.raise hsizes) (.ite (by rw [htag.cr]) (.raise htag)
      (readHeaderTail_paired htag c))))))
  · rw [State.memRead_congr h.input]
  · rw [State.memRead_congr h.input]
  · rw [State.memRead_congr h.input]

theorem readPayload_paired : Paired Alike (readPayload s) (readPayload s') := by
  unfold readPayload
  refine .ite (by rw [h.inLen, h.cr]) (.raise h) (.go { h with
    adN := congrArg ContainerRec.dataSize h.cr, ad := ?_ })
  have hlen : ∀ t : State, t.cr.dataSize.toNat = (t.memRead 44 t.cr.dataSize.toNat).length :=
    fun t => by simp [State.memRead]
  rw [slice_load_of_length _ _ (hlen s), slice_load_of_length _ _ (hlen s'), h.cr,
    State.memRead_congr h.input]

theorem chunkFmt_paired (len : U32) : Paired Alike (chunkFmt len s) (chunkFmt len s') := by
  have hfmt := captureFormat_alike h len
  unfold chunkFmt
  refine .ite (by rw [h.flags]) (.raise h) (.ite rfl (.raise h) (.ite (by rw [h.inLen, h.pos]) (.raise h)
    (.ite (by rw [hfmt.cr]) (.raise hfmt) (.ite (by rw [hfmt.cr]) (.raise hfmt) (.go { hfmt with
      flags := ?_ })))))
  simp only [State.captureFormat_flags, h.flags]

theorem chunkData_paired (len : U32) : Paired Alike (chunkData len s) (chunkData len s') := by
  have hn : ∀ t : State, (len / 2).toNat = (t.rdSamples (t.pos + 8) (len.toNat / 2)).length :=
    fun t => by simp [State.rdSamples]
  unfold chunkData
  refine .ite (by rw [h.flags]) (.raise h) (.ite (by rw [h.flags]) (.raise h)
    (.ite (by rw [h.cr]) (.raise h) (.ite (by rw [h.inLen, h.pos]) (.raise h) (.go { h with
      cr := ?_, pcmN := rfl, pcm := ?_, flags := ?_ }))))
  · simp only [h.flags]
  · simp only [h.cr]
  · rw [slice_load_of_length _ _ (hn s), slice_load_of_length _ _ (hn s'), h.pos,
      State.rdSamples_congr h.input]

theorem chunkSmpl_paired (len : U32) : Paired Alike (chunkSmpl len s) (chunkSmpl len s') := by
  unfold chunkSmpl
  refine .ite (by rw [h.inLen, h.pos]) (.raise h) (.go { h with lr := ?_, flags := ?_ })
  · simp only [h.flags, h.pos, State.rd32_congr h.input]
  · simp only [h.pos, h.cr, State.sampleLength, State.rd32_congr h.input]

theorem walkEnd_paired : Paired Alike (walkEnd s) (walkEnd s') := by
  unfold walkEnd
  refine .ite (by rw [h.flags]) (.raise h) (.ite (by rw [h.flags]) (.go h) (.go { h with
    flags := ?_, lr := ?_ }))
  · simp only [h.flags]
  · simp only [h.lr, h.cr, State.sampleLength]

theorem seek_alike (len : U32) : Alike (s.seek len) (s'.seek len) :=
  { h with pos := by simp only [State.seek, h.pos] }

end Reader

theorem walkLoop_paired (n : Nat) {s s' : State} (h : Alike s s') :
    Paired Alike (walkLoop n s) (walkLoop n s') := by
  induction n generalizing s s' with
  | zero => exact .go h
  | succ n ih =>
    have hnext : ∀ len t t', Alike t t' →
        Paired Alike (walkLoop n (t.seek len)) (walkLoop n (t'.seek len)) :=
      fun len t t' ht => ih (seek_alike ht len)
    unfold walkLoop
    refine .ite (by rw [h.inLen, h.pos]) (.go h) (.ite (by rw [h.inLen, h.pos]) (.raise h) ?_)
    dsimp only
    rw [h.pos, State.rd32_congr h.input, State.rd32_congr h.input]
    cases chunkKind (s.rd32 s.pos) with
    | fmt => exact (chunkFmt_paired h _).andThen (hnext _) fun _ _ ht => ht
    | data => exact (chunkData_paired h _).andThen (hnext _) fun _ _ ht => ht
    | smpl => exact chunkSmpl_paired h _
    | skip => exact hnext _ s s' h

theorem walk_paired {s s' : State} (h : Alike s s') : Paired Alike (walk s) (walk s') := by
  unfold walk
  rw [h.inLen, h.pos]
  exact (walkLoop_paired _ h).andThen (fun _ _ ht => walkEnd_paired ht) fun _ _ ht => ht

theorem pcmReader_paired {s s' : State} (h : Alike s s') :
    Paired Alike (pcmReader s) (pcmReader s') :=
  (readRiff_paired h).andThen (fun _ _ ht => walk_paired ht) fun _ _ ht => ht

theorem adpcmReader_paired {s s' : State} (h : Alike s s') :
    Paired Alike (adpcmReader s) (adpcmReader s') :=
  (readHeader_paired h _).andThen (fun _ _ ht => readPayload_paired ht) fun _ _ ht => ht

/-! ## The codec parts -/

/-- From the codec part on the codec registers agree too: every stream starts from (0, 127). -/
def AlikeCodec (s s' : State) : Prop := Alike s s' ∧ s'.codec = s.codec

theorem encodeAll_length {xs : List Sample} {p : Codec × List Byte} (h : encodeAll xs = .ok p) :
    xs.length = 2 * p.2.length := by
  obtain ⟨_, heven, rfl⟩ := encodeAll_cases h
  have := encodeStream_length Codec.initial xs
  omega

theorem decodeAll_length {bs : List Byte} {p : Codec × List Sample} (h : decodeAll bs = .ok p) :
    p.2.length = 2 * bs.length := by
  obtain ⟨_, rfl⟩ := decodeAll_cases h
  exact decodeStream_length _ _

theorem deinterleave_length {xs : List Sample} {p : List Sample × List Sample}
    (h : deinterleave xs = .ok p) : p.1.length = xs.length / 2 ∧ p.2.length = xs.length / 2 := by
  obtain ⟨_, rfl⟩ := deinterleave_cases h
  exact splitFrames_length xs

theorem interleave_length {ls rs xs : List Sample} (h : interleave ls rs = .ok xs) :
    xs.length = ls.length + rs.length := by
  obtain ⟨hlr, rfl⟩ := interleave_cases h
  rw [joinFrames_length hlr, ← hlr, Nat.two_mul]

/-- The codec part of CONV.T, behind a reader that has filled `PCMBUF` from the payload. -/
theorem encodePayload_paired {s s' : State} (h : Alike s s') (hn : s.pcmN = s.cr.dataSize / 2) :
    Paired AlikeCodec (encodePayload s) (encodePayload s') := by
  have hslice : s'.pcmSlice s'.pcmN.toNat = s.pcmSlice s.pcmN.toNat := h.pcm
  have hbound := s.cr.dataSize.isLt
  have hquarter : (BitVec.ofNat 32 (s.cr.dataSize.toNat / 4)).toNat = s.cr.dataSize.toNat / 4 :=
    Streams.toNat_ofNat_u32 (by omega)
  have hcount : (s.pcmSlice s.pcmN.toNat).length = s.cr.dataSize.toNat / 2 := by
    rw [State.pcmSlice, Buf.slice_length, hn, BitVec.toNat_udiv]
    rfl
  unfold encodePayload
  dsimp only
  rw [hslice, h.cr]
  refine .ite rfl (.ite rfl (.refuse _) (.ite rfl (.refuse _) ?_)) (.ite rfl (.refuse _)
    (.ite rfl (.refuse _) ?_))
  · refine .withValue fun p hp => .go ⟨{ h with cr := rfl, adN := rfl, ad := ?_ }, rfl⟩
    have hlen : _ = p.2.length := hquarter.trans (by have := encodeAll_length hp; omega)
    exact (slice_load_of_length _ _ hlen).trans (slice_load_of_length _ _ hlen).symm
  · refine .withValue fun q hq => .withValue fun pl hl => .withValue fun pr hr =>
      .go ⟨{ h with cr := rfl, adN := rfl, ad := ?_ }, rfl⟩
    have hlen : _ = (pl.2 ++ pr.2).length := hquarter.trans (by
      have := encodeAll_length hl
      have := encodeAll_length hr
      obtain ⟨_, _⟩ := deinterleave_length hq
      rw [List.length_append]
      omega)
    exact (slice_load_of_length _ _ hlen).trans (slice_load_of_length _ _ hlen).symm

/-- The codec part of CONV.F. -/
theorem decodePayload_paired {s s' : State} (h : Alike s s') :
    Paired AlikeCodec (decodePayload s) (decodePayload s') := by
  have had := h.ad
  have hslice : s'.adSlice s'.adN.toNat = s.adSlice s.adN.toNat := had
  have hcount : (s.adSlice s.adN.toNat).length = s.adN.toNat := Buf.slice_length _ _ _
  unfold decodePayload
  dsimp only
  rw [hslice, h.adN, h.cr]
  rw [h.adN] at had
  by_cases hlarge : pcmTooLarge s.adN = true
  · rw [if_pos hlarge, if_pos hlarge]
    exact .refuse _
  have hdouble : (2 * s.adN).toNat = 2 * s.adN.toNat := by
    simp only [pcmTooLarge, decide_eq_true_eq] at hlarge
    rw [Streams.double_eq_ofNat rfl, Streams.toNat_ofNat_u32 (by omega)]
  rw [if_neg hlarge, if_neg hlarge]
  refine .ite rfl (.ite rfl (.refuse _) ?_) (.ite rfl (.refuse _) (.ite rfl (.refuse _) ?_))
  · refine .withValue fun p hp =>
      .go ⟨{ h with cr := rfl, adN := rfl, ad := had, pcmN := rfl, pcm := ?_ }, rfl⟩
    have hlen : _ = p.2.length := hdouble.trans (by rw [decodeAll_length hp, hcount])
    exact (slice_load_of_length _ _ hlen).trans (slice_load_of_length _ _ hlen).symm
  · refine .withValue fun pl hl => .withValue fun pr hr => .withValue fun xs hx =>
      .go ⟨{ h with cr := rfl, adN := rfl, ad := had, pcmN := rfl, pcm := ?_ }, rfl⟩
    have hlen : _ = xs.length := hdouble.trans (by
      rw [interleave_length hx, decodeAll_length hl, decodeAll_length hr, List.length_take,
        List.length_drop]
      omega)
    exact (slice_load_of_length _ _ hlen).trans (slice_load_of_length _ _ hlen).symm

/-! ## The writers -/

/-- The same bytes written within the capacity keep the states alike. -/
theorem written_alike {s s' : State} (h : AlikeCodec s s') {bs : List Byte}
    (hroom : bs.length ≤ s.outCap.toNat - s.outLen.toNat) :
    AlikeCodec
      { s with
        output := s.output.putRun s.outLen.toNat bs, outLen := s.outLen + BitVec.ofNat 32 bs.length }
      { s' with
        output := s'.output.putRun s'.outLen.toNat bs
        outLen := s'.outLen + BitVec.ofNat 32 bs.length } := by
  obtain ⟨ha, hcodec⟩ := h
  refine ⟨{ ha with outLen := by simp only [ha.outLen], output := fun a hlt => ?_ }, hcodec⟩
  rw [State.outLen_add_toNat hroom] at hlt
  simp only [Memory.get?_putRun, ha.outLen]
  split_ifs with hrun
  · rfl
  · exact ha.output a (by omega)

theorem emit_paired {s s' : State} (h : AlikeCodec s s') (bs : List Byte) :
    Paired AlikeCodec (s.emit bs) (s'.emit bs) := by
  have hlen := h.1.outLen
  have hcap := h.1.outCap
  by_cases hroom : bs.length ≤ s.outCap.toNat - s.outLen.toNat
  · rw [State.emit_of_room hroom, State.emit_of_room (by rw [hlen, hcap]; exact hroom)]
    exact .go (written_alike h hroom)
  · have htake : (bs.take (s.outCap.toNat - s.outLen.toNat)).length =
        s.outCap.toNat - s.outLen.toNat := by
      rw [List.length_take]
      omega
    have hwritten := written_alike h (Nat.le_of_eq htake)
    rw [htake] at hwritten
    have hleft : s'.outCap.toNat - s'.outLen.toNat = s.outCap.toNat - s.outLen.toNat := by
      rw [hlen, hcap]
    rw [State.emit_of_no_room (by omega), State.emit_of_no_room (by omega), hleft]
    exact .raise hwritten

section Writer

variable {s s' : State} (h : AlikeCodec s s')
include h

theorem writeHeaderA_paired : Paired AlikeCodec (writeHeaderA s) (writeHeaderA s') := by
  have ha : AlikeCodec { s with cr := adpcmRecord s.adN s.cr }
      { s' with cr := adpcmRecord s'.adN s'.cr } :=
    ⟨{ h.1 with cr := by simp only [h.1.adN, h.1.cr] }, h.2⟩
  rw [writeHeaderA_eq, writeHeaderA_eq, h.1.adN, h.1.cr]
  rw [h.1.adN, h.1.cr] at ha
  exact emit_paired ha _

theorem writeDataA_paired : Paired AlikeCodec (writeDataA s) (writeDataA s') := by
  unfold writeDataA
  rw [show s'.adSlice s'.adN.toNat = s.adSlice s.adN.toNat from h.1.ad]
  exact emit_paired h _

theorem writeSmpl_paired : Paired AlikeCodec (writeSmpl s) (writeSmpl s') := by
  unfold writeSmpl
  rw [h.1.lr]
  exact emit_paired h _

theorem writeHeaderP_paired : Paired AlikeCodec (writeHeaderP s) (writeHeaderP s') := by
  have ha : AlikeCodec { s with cr := pcmRecord s.cr } { s' with cr := pcmRecord s'.cr } :=
    ⟨{ h.1 with cr := by simp only [h.1.cr] }, h.2⟩
  unfold writeHeaderP
  rw [h.1.cr] at ha ⊢
  exact .ite rfl (.refuse _) (emit_paired ha _)

theorem writeDataP_paired : Paired AlikeCodec (writeDataP s) (writeDataP s') := by
  unfold writeDataP
  rw [show s'.pcmSlice s'.pcmN.toNat = s.pcmSlice s.pcmN.toNat from h.1.pcm]
  exact emit_paired h _

theorem writeAdpcmFile_paired : Paired AlikeCodec (writeAdpcmFile s) (writeAdpcmFile s') :=
  (writeHeaderA_paired h).andThen (fun _ _ ht => (writeDataA_paired ht).andThen
    (fun _ _ hu => .ite (by rw [hu.1.flags]) (writeSmpl_paired hu) (.go hu)) fun _ _ hu => hu)
    fun _ _ ht => ht

theorem writePcmFile_paired : Paired AlikeCodec (writePcmFile s) (writePcmFile s') :=
  (writeHeaderP_paired h).andThen (fun _ _ ht => writeDataP_paired ht) fun _ _ ht => ht

end Writer

/-! ## The conversions -/

/-- After the initialisation the states agree, when the input and the capacity do: the length registers
are 0 (R271). -/
theorem initialise_alike {s s' : State} (hin : s.input = s'.input) (hlen : s.inLen = s'.inLen)
    (hp : s.inPresent = s'.inPresent) (hcap : s.outCap = s'.outCap) :
    Alike (initialisedConv s) (initialisedConv s') where
  inPresent := hp.symm
  inLen := hlen.symm
  outLen := rfl
  outCap := hcap.symm
  pos := rfl
  flags := rfl
  cr := rfl
  lr := rfl
  pcmN := rfl
  adN := rfl
  input := hin.symm
  pcm := rfl
  ad := rfl
  output := fun a ha => absurd ha (Nat.not_lt_zero a)

/-- States that agree for the report, and in the codec registers where `reached` says so. -/
def AlikeWhere (reached : Prop) (s s' : State) : Prop := Alike s s' ∧ (reached → s'.codec = s.codec)

theorem paired_mono {R Q : State → State → Prop} {x x' : Flow} (h : Paired R x x')
    (hrq : ∀ s s', R s s' → Q s s') : Paired Q x x' := by
  cases h with
  | go h => exact .go (hrq _ _ h)
  | raise h => exact .raise (hrq _ _ h)
  | refuse r => exact .refuse r

/-- A reader, then the codec part and the writer: alike, and with the same codec registers where the reader
accepts. -/
theorem paired_reader_rest {reader rest : State → Flow} {s s' : State} {reached : Prop}
    (hreader : Paired Alike (reader s) (reader s')) (hreached : reached → ∃ r, reader s = .go r)
    (hrest : ∀ r r', reader s = .go r → Alike r r' → Paired AlikeCodec (rest r) (rest r')) :
    Paired (AlikeWhere reached) ((reader s).andThen rest) ((reader s').andThen rest) := by
  generalize hx : reader s = x at *
  generalize reader s' = x' at *
  cases hreader with
  | go h => exact paired_mono (hrest _ _ rfl h) fun _ _ ht => ⟨ht.1, fun _ => ht.2⟩
  | raise h => exact .raise ⟨h, fun hr => by obtain ⟨r, hr⟩ := hreached hr; cases hr⟩
  | refuse r => exact .refuse r

theorem convTBody_paired {s s' : State} (h : Alike (initialisedConv s) (initialisedConv s')) :
    Paired (AlikeWhere (ReachesCodec .convT s)) (convTBody (initialisedConv s))
      (convTBody (initialisedConv s')) := by
  cases hp : (initialisedConv s).inPresent with
  | false =>
    rw [convTBody_absent hp, convTBody_absent (h.inPresent.trans hp)]
    exact .raise ⟨h, fun hr => absurd hr.1 (by rw [show s.inPresent = false from hp]; decide)⟩
  | true =>
    rw [convTBody_eq hp, convTBody_eq (h.inPresent.trans hp)]
    refine paired_reader_rest (pcmReader_paired h) (fun hr => hr.2) fun r r' hr halike => ?_
    exact (encodePayload_paired halike (pcmReader_accepted rfl hr).pcmN).andThen
      (fun _ _ ht => writeAdpcmFile_paired ht) fun _ _ ht => ht

theorem convFBody_paired {s s' : State} (h : Alike (initialisedConv s) (initialisedConv s')) :
    Paired (AlikeWhere (ReachesCodec .convF s)) (convFBody Config.checkDataTag (initialisedConv s))
      (convFBody Config.checkDataTag (initialisedConv s')) := by
  cases hp : (initialisedConv s).inPresent with
  | false =>
    rw [convFBody_absent _ hp, convFBody_absent _ (h.inPresent.trans hp)]
    exact .raise ⟨h, fun hr => absurd hr.1 (by rw [show s.inPresent = false from hp]; decide)⟩
  | true =>
    rw [convFBody_eq hp, convFBody_eq (h.inPresent.trans hp)]
    refine paired_reader_rest (adpcmReader_paired h) (fun hr => hr.2) fun r r' hr halike => ?_
    exact (decodePayload_paired halike).andThen (fun _ _ ht => writePcmFile_paired ht) fun _ _ ht => ht

theorem sameReport_of_alike {u u' t t' : State} (h : Alike u u')
    (ht : t = u.succeed true ∧ t' = u'.succeed true ∨
      ∃ k, t = u.abort true k ∧ t' = u'.abort true k) : SameReport t t' := by
  rcases ht with ⟨rfl, rfl⟩ | ⟨k, rfl, rfl⟩
  · constructor <;> simp [h.outLen, h.pos, h.flags, h.cr, h.lr]
    exact fun a ha => (h.output a ha).symm
  · constructor <;> simp [h.outLen, h.pos, h.flags, h.cr, h.lr]
    exact fun a ha => (h.output a ha).symm

/-- Two runs of a conversion's body that end alike give the same report. -/
theorem runConv_of_paired {body : State → Flow} {s s' : State} {reached : Prop}
    (h : Paired (AlikeWhere reached) (body (s.initialise true)) (body (s'.initialise true))) :
    (∃ r, runCommand true body s = .refused r ∧ runCommand true body s' = .refused r) ∨
      (∃ t t', runCommand true body s = .next t ∧ runCommand true body s' = .next t' ∧
        SameReport t t' ∧ (reached → t.codec = t'.codec)) := by
  generalize hx : body (s.initialise true) = x at h
  generalize hx' : body (s'.initialise true) = x' at h
  cases h with
  | go h =>
    exact .inr ⟨_, _, runCommand_of_go hx, runCommand_of_go hx',
      sameReport_of_alike h.1 (.inl ⟨rfl, rfl⟩), fun hr => by simpa using (h.2 hr).symm⟩
  | raise h =>
    exact .inr ⟨_, _, runCommand_of_raise hx, runCommand_of_raise hx',
      sameReport_of_alike h.1 (.inr ⟨_, rfl, rfl⟩), fun hr => by simpa using (h.2 hr).symm⟩
  | refuse r => exact .inl ⟨r, runCommand_of_refuse hx, runCommand_of_refuse hx'⟩

/-- Settles O56: from alike states every part of a conversion ends alike. -/
theorem conversionsForgetThePast : Obligations.ConversionsForgetThePast := by
  unfold Obligations.ConversionsForgetThePast
  intro i s s' hi hin hlen hp hcap
  have h := initialise_alike hin hlen hp hcap
  rcases hi with rfl | rfl
  · exact runConv_of_paired (convTBody_paired h)
  · exact runConv_of_paired (convFBody_paired h)

end Sys2Proof.Proofs.Forgetting
